-- ==== Sys2Proof/Word.lean ====
section
/-! DEFINITION. The machine's words. Bit 0 is the least significant bit of a value (R10). -/

namespace Sys2Proof

/-- One byte: the unit of every host memory access of the block (R62) and of every storage (R12). -/
abbrev Byte := BitVec 8

/-- A 32-bit register or command word (R10). -/
abbrev Word := BitVec 32

end Sys2Proof
end

