-- ==== Sys2Proof/Syntax.lean ====
section
/-! DEFINITION. The commands: one constructor per row of spec/opcode_table.json (R81). -/

namespace Sys2Proof

/-- A command, with the fields of its CMD word (R80). All other operands are latched registers (R86). `mode` is the raw 2-bit
field; its value 3 is refused by `WellFormed` (R82). -/
inductive Instr where
  /-- INIT, OP 0x1 (R120): `mode` is MODE [5:4], `defseed` is DEFSEED [6]. -/
  | init (mode : BitVec 2) (defseed : Bool)
  /-- RESET_STREAM, OP 0x2 (R141). -/
  | resetStream
  /-- CIPHER, OP 0x3 (R148). -/
  | cipher
  /-- DESTROY, OP 0x4 (R171). -/
  | destroy
  /-- SET_MODE, OP 0x5 (R158): `mode` is MODE [5:4]. -/
  | setMode (mode : BitVec 2)
  deriving DecidableEq, Repr

end Sys2Proof
end

