-- ==== Sys2Proof/WellFormed.lean ====
section
/-! DEFINITION. Which commands have an encoding: "INIT and SET_MODE, `w[5:4] != 3`" (R85). -/

namespace Sys2Proof

/-- The MODE field of a command is 0, 1 or 2 (R82); the other commands have no operand to check. -/
def Instr.wellFormed : Instr → Bool
  | .init mode _ => mode != 3#2
  | .resetStream => true
  | .cipher => true
  | .destroy => true
  | .setMode mode => mode != 3#2

end Sys2Proof
end

