-- ==== Sys2Proof/Decode.lean ====
section
/-! DEFINITION. Decoding a CMD word, total on every 32-bit word (R87), and the encoder (R80, R85). -/

namespace Sys2Proof

/-- Why a CMD word is illegal; each makes the command fail with ILLEGAL_COMMAND (R208). -/
inductive DecodeReject where
  /-- A bit of [31:7] is set (R84). -/
  | reservedBit
  /-- OP is 0x0 or 0x6 to 0xF (R81). -/
  | reservedOp
  /-- MODE is 3 in INIT or SET_MODE (R82). -/
  | reservedMode
  /-- MODE or DEFSEED is nonzero where it must be 0 (R85). -/
  | fieldNotZero
  deriving DecidableEq, Repr

/-- OP, bits [3:0] of a CMD word (R80). -/
def opField (w : Word) : BitVec 4 := w.extractLsb' 0 4

/-- MODE, bits [5:4] of a CMD word (R80). -/
def modeField (w : Word) : BitVec 2 := w.extractLsb' 4 2

/-- DEFSEED, bit 6 of a CMD word (R80). -/
def defseedField (w : Word) : Bool := w.getLsbD 6

/-- RSV, bits [31:7] of a CMD word (R80). -/
def reservedField (w : Word) : BitVec 25 := w.extractLsb' 7 25

/-- A word of a command without operands: its MODE and DEFSEED must be 0 (R85). -/
def decodePlain (w : Word) (i : Instr) : Except DecodeReject Instr :=
  if modeField w ≠ 0 ∨ defseedField w = true then .error .fieldNotZero else .ok i

/-- `Decode` of R87: the command a CMD word spells, or why it spells none. -/
def decode (w : Word) : Except DecodeReject Instr :=
  if reservedField w ≠ 0 then .error .reservedBit
  else if opField w = 1 then
    if modeField w = 3 then .error .reservedMode else .ok (.init (modeField w) (defseedField w))
  else if opField w = 2 then decodePlain w .resetStream
  else if opField w = 3 then decodePlain w .cipher
  else if opField w = 4 then decodePlain w .destroy
  else if opField w = 5 then
    if defseedField w = true then .error .fieldNotZero
    else if modeField w = 3 then .error .reservedMode else .ok (.setMode (modeField w))
  else .error .reservedOp

/-- The CMDW format of R80 from its fields, the reserved bits 0. -/
def commandWord (op : BitVec 4) (mode : BitVec 2) (defseed : Bool) : Word :=
  0#25 ++ BitVec.ofBool defseed ++ mode ++ op

/-- The CMD word of a command (R85). -/
def encode : Instr → Word
  | .init mode defseed => commandWord 1 mode defseed
  | .resetStream => commandWord 2 0 false
  | .cipher => commandWord 3 0 false
  | .destroy => commandWord 4 0 false
  | .setMode mode => commandWord 5 mode false

/-- The word whose bits [nbits-1:0] are those of `w`, every bit above them 0. A command is the one 32-bit word the host writes to
CMD (R80): no byte order reaches it, since registers are accessed only as whole words (R63). -/
def tableWord (nbits w : Nat) : Word := BitVec.ofNat 32 (w % 2 ^ nbits)

/-- The command this decoder reads from a word of the opcode table; none where it refuses. -/
def decodeTableWord (nbits w : Nat) : Option Instr :=
  match decode (tableWord nbits w) with
  | .ok i => some i
  | .error _ => none

end Sys2Proof
end

