-- ==== Sys2Proof/Config.lean ====
section
/-! DEFINITION. What an implementation fixes (the parameters of R7, with the constraints of R8) and the free values.
The parameters that are plain data stand in `Params`, which State carries as its field `cfg`: "the model takes it as an argument"
(R7) (log entry 4). What else the spec leaves OPEN or calls "a draw" is an opaque constant below: nothing can prove a value of it. -/

namespace Sys2Proof

/-- The parameter `HASH` (R7, R100): the reference keyed hash, or another one the platform supplies. -/
inductive HashChoice where
  /-- HMAC-SHA-256, the default (R101). -/
  | hmacSha256
  /-- Any other keyed hash; its bytes are `Config.otherHash`. -/
  | other
  deriving DecidableEq, Repr

/-- The parameter `RESET_ACCESS` (R7, R230): what a register access meets while reset is asserted. -/
inductive ResetAccess where
  /-- The platform's bus returns an error response. -/
  | error
  /-- The access waits until the block answers again. -/
  | wait
  deriving DecidableEq, Repr, Inhabited

/-- The parameters of R7 that are numbers or switches. `ADDR_WIDTH` is fixed at 32 (R7) and so is no field. Of
`DEFAULT_SEED` the length stands here and the bytes are `Config.defaultSeedByte` (log entry 6); `RESET_ACCESS` is
`Config.resetAccess`; `FAULTS` is State's field `faults`. -/
structure Params where
  /-- `MIN_TABLES`, the smallest legal table count. -/
  minTables : Nat
  /-- `MAX_TABLES`, the largest legal table count. -/
  maxTables : Nat
  /-- `DEFAULT_TABLES`, the reset value of TABLE_COUNT. -/
  defaultTables : Nat
  /-- `HASH`. -/
  hash : HashChoice
  /-- `HASH_LEN`, the output length of `HASH` in bytes. -/
  hashLen : Nat
  /-- `KEY_MAX_LEN`, the capacity of KB and OKB. -/
  keyMaxLen : Nat
  /-- `SEED_MAX_LEN`, the capacity of SEEDBUF. -/
  seedMaxLen : Nat
  /-- The length of `DEFAULT_SEED` in bytes (R8's `len(DEFAULT_SEED)`). -/
  defaultSeedLen : Nat
  /-- `TEST_PORT`: the test port registers exist. -/
  testPort : Bool
  /-- `BASE`, the base address of the register window. -/
  base : Word
  deriving DecidableEq, Repr

/-- The constraints of R8 and the alignment of `BASE` (R7, R64); the reference hash has 32 bytes of output (R101). -/
def Params.valid (p : Params) : Bool :=
  decide (1 ≤ p.minTables) && decide (p.minTables ≤ p.defaultTables) && decide (p.defaultTables ≤ p.maxTables) &&
  decide (p.maxTables * 256 ≤ 2 ^ 32) &&
  decide (p.hashLen = 32 ∨ p.hashLen = 64 ∨ p.hashLen = 128 ∨ p.hashLen = 256) &&
  decide (1 ≤ p.keyMaxLen) && decide (p.keyMaxLen ≤ 2 ^ 31 - 1) && decide (p.seedMaxLen ≤ 2 ^ 32 - 1) &&
  decide (p.defaultSeedLen ≤ p.seedMaxLen) &&
  decide (p.base.toNat % 256 = 0) && decide (p.hash = .hmacSha256 → p.hashLen = 32)

namespace Config

/-- The default values of R7. `BASE` and `DEFAULT_SEED` are OPEN there: `BASE` = 0 is a DESIGN CHOICE (log entry 5), and so is a
default seed as long as R8 allows (log entry 6). -/
def defaults : Params where
  minTables := 1
  maxTables := 10240
  defaultTables := 64
  hash := .hmacSha256
  hashLen := 32
  keyMaxLen := 1024
  seedMaxLen := 1024
  defaultSeedLen := 1024
  testPort := false
  base := 0

/-- Byte `j` of `DEFAULT_SEED` (R7, R125): OPEN, the source "never gives the bytes" (log entry 6). -/
opaque defaultSeedByte (j : Nat) : Byte

/-- `HASH` when it is not the reference (R100): byte `r` of the hash of length `len` of message `m` under key `k` is
`otherHash len k m r`. A total function of `(k, m)`, and nothing else is known of it (log entry 7). -/
opaque otherHash (len : Nat) (k m : List Byte) (r : Nat) : Byte

/-- `RESET_ACCESS` (R230): OPEN (log entry 9). -/
opaque resetAccess : ResetAccess

/-- The `n`-th draw: the value a register read returns where its rule says "a draw" (R41, R52 to R56, R238) (log entry 13). -/
opaque draw (n : Nat) : Word

end Config

end Sys2Proof
end

