-- ==== Sys2Proof/Machine/State.lean ====
section
/-! DEFINITION. The machine's state as plain data (10_state.md), the agents around the block that the spec lets act on it
(hosts, the platform, the reset input), the state after reset, and the ways a step can stop. -/

namespace Sys2Proof.Machine

/-- Byte storage indexed from 0: host memory (R60), KB, OKB, ST and SEEDBUF (R12). A list of (index, byte) pairs, the indices
strictly rising; an index not listed reads `Memory.unlisted` (Ops.lean). -/
abbrev Memory := List Host.Cell

/-- `LC`, the lifecycle state (R21); encoding 3 is never held. -/
inductive Lifecycle where
  /-- `UNINIT`, encoding 0. -/
  | uninit
  /-- `READY`, encoding 1. -/
  | ready
  /-- `DESTROYED`, encoding 2, the terminal sink. -/
  | destroyed
  deriving DecidableEq, Repr

/-- `MODE` (R22); encoding 3 is never held. -/
inductive Mode where
  /-- Undefined, encoding 0. -/
  | undefined
  /-- AutoReset, encoding 1. -/
  | autoReset
  /-- Continuous, encoding 2. -/
  | continuous
  deriving DecidableEq, Repr

/-- The completion codes of R201; codes 11 to 15 are never written (R212). -/
inductive ErrCode where
  /-- 0, success. -/
  | none
  /-- 1 (R202). -/
  | tableCountRange
  /-- 2 (R203). -/
  | alreadyInitialized
  /-- 3 (R204). -/
  | notInitialized
  /-- 4 (R205). -/
  | disposed
  /-- 5 (R206). -/
  | invalidMode
  /-- 6 (R207). -/
  | invalidKey
  /-- 7 (R208). -/
  | illegalCommand
  /-- 8 (R209). -/
  | lengthLimit
  /-- 9 (R210). -/
  | addressRange
  /-- 10 (R211). -/
  | busError
  deriving DecidableEq, Repr

/-- The eight parameter registers (R42 to R49, R59). -/
structure ParamRegs where
  /-- SEED_ADDR (R42). -/
  seedAddr : Word
  /-- SEED_LEN (R43). -/
  seedLen : Word
  /-- KEY_ADDR (R44). -/
  keyAddr : Word
  /-- KEY_LEN (R45). -/
  keyLen : Word
  /-- TABLE_COUNT (R46). -/
  tableCount : Word
  /-- SRC_ADDR (R47). -/
  srcAddr : Word
  /-- DST_ADDR (R48). -/
  dstAddr : Word
  /-- LEN (R49). -/
  len : Word
  deriving DecidableEq, Repr

/-- `LATCH` (R33): the CMD word written and a copy of the parameter registers, taken when a command is accepted. -/
structure Latch where
  /-- The CMD word. -/
  cmd : Word
  /-- The copied parameter registers. -/
  regs : ParamRegs
  deriving DecidableEq, Repr

/-- A host's access to the register window (R64), as the bus presents it. -/
structure RegAccess where
  /-- The bus address. -/
  addr : Word
  /-- The access's width in bytes. -/
  bytes : Nat
  /-- The value written, or none for a read. -/
  value : Option Word
  deriving DecidableEq, Repr

/-- One entry of the platform's parameter FAULTS (R7, R76): DMA accesses to `addr` get an error response. -/
structure DmaFault where
  /-- The host memory address. -/
  addr : Nat
  /-- Reads of it fail. -/
  onRead : Bool
  /-- Writes to it fail. -/
  onWrite : Bool
  /-- What a failed write leaves in the byte: none for its old contents, or the byte given. -/
  leaves : Option Byte
  deriving DecidableEq, Repr

/-- What the agents around the block do, in the one total order of R70; the engine's own accesses fall where the marks
`engine` and `wait` put them (log entry 1). -/
inductive Event where
  /-- A host's register access (R64). -/
  | reg (a : RegAccess)
  /-- A host's load of one byte of host memory (R70). -/
  | load (addr : Word)
  /-- A store of one byte of host memory by a host, a device or the platform (R60, R70). -/
  | store (addr : Word) (b : Byte)
  /-- The platform changes which DMA accesses fail (R60, R76). -/
  | setFaults (fs : List DmaFault)
  /-- The reset input is asserted (R230). -/
  | assertReset
  /-- The reset input is released (R231). -/
  | releaseReset
  /-- The oldest register access that waits because of RESET_ACCESS is presented again (R230). -/
  | resume
  /-- The engine takes its next action before what follows. -/
  | engine
  /-- The engine runs until BUSY = 0 before what follows: a host's WAIT (R89). -/
  | wait
  deriving DecidableEq, Repr

/-- What a host gets back from an access. -/
inductive Answer where
  /-- A register read's value. -/
  | data (v : Word)
  /-- A register write was taken. -/
  | written
  /-- An error response on the bus (R64, R230). -/
  | error
  /-- The address is outside the block's window: the block does not answer (log entry 18). -/
  | outside
  /-- A byte of host memory. -/
  | byte (b : Byte)
  deriving DecidableEq, Repr

/-- One DMA access of the block (R13, R69). -/
inductive DmaAccess where
  /-- `MemRead(addr, 1)`; `ok` is its response. -/
  | read (addr : Nat) (ok : Bool)
  /-- `MemWrite(addr, 1, b)`; `ok` is its response. -/
  | write (addr : Nat) (b : Byte) (ok : Bool)
  deriving DecidableEq, Repr

/-- The machine. The first part is the tuple of R20, the second the host's registers, the third what stands around the block. -/
structure State where
  /-- The implementation's parameters (R7). No step changes them. -/
  cfg : Params
  /-- `LC` (R21). -/
  lc : Lifecycle
  /-- `MODE` (R22). -/
  mode : Mode
  /-- `KB`, the key buffer (R23). -/
  kb : Memory
  /-- `OKB`, the original key buffer (R24). -/
  okb : Memory
  /-- `KLEN` (R25). -/
  klen : Nat
  /-- `ST`, the schedule table storage (R26). -/
  st : Memory
  /-- `TCNT` (R27). -/
  tcnt : Nat
  /-- `KI`, the key index, signed (R28). -/
  ki : Int
  /-- `SI`, the schedule index (R29). -/
  si : Nat
  /-- `SEEDBUF` (R32). -/
  seedbuf : Memory
  /-- `SLEN` (R32). -/
  slen : Nat
  /-- `GCTR`, the generator's 64-bit counter (R32, R104). -/
  gctr : BitVec 64
  /-- `BUSY` (R34). -/
  busy : Bool
  /-- `ERR` (R35). -/
  err : ErrCode
  /-- `OVR` (R36). -/
  ovr : Bool
  /-- `PROGRESS` (R37). -/
  progress : Word
  /-- `LATCH` (R33). -/
  latch : Latch
  /-- The parameter registers (R42 to R49). -/
  regs : ParamRegs
  /-- TEST_SEL [1:0] (R50). -/
  testSel : BitVec 2
  /-- TEST_IDX (R51). -/
  testIdx : Word
  /-- The reset input is asserted (R230). -/
  inReset : Bool
  /-- Host memory (R60). -/
  mem : Memory
  /-- The platform's parameter FAULTS as it now stands (R7, R76) (log entry 8). -/
  faults : List DmaFault
  /-- What the other agents do next, first entry first (R70) (log entry 1). -/
  script : List Event
  /-- Register accesses that wait for the end of reset, oldest first (R230) (log entry 17). -/
  waiting : List RegAccess
  /-- What the hosts' accesses have returned, latest first (log entry 21). -/
  answers : List Answer
  /-- The block's DMA accesses, latest first (R69) (log entry 21). -/
  dma : List DmaAccess
  /-- How many register reads have been answered: the argument of the next draw (log entry 14). -/
  draws : Nat
  deriving DecidableEq, Repr

/-- Why the machine stops. The block has no trap (R215), and no state the block can reach stops it; see `storageIndex`. -/
inductive Fault where
  /-- Raised by CIPHER's byte step when its key index or table index lies outside KB or ST: KI, KLEN, SI and TCNT then hold
  values that R25 to R30 exclude, and the spec gives the step no meaning. No reachable state raises it (R160). Safe. -/
  | storageIndex
  deriving DecidableEq, Repr

/-- Why the machine refuses a step. -/
inductive Refusal where
  /-- Raised by `exec`'s arm of an instruction that has no meaning yet. Safe. No arm raises it now. -/
  | notModelled (mnemonic : String)
  /-- Raised by `step` when the parameters break R8: "A model must refuse a configuration that breaks one." Safe. -/
  | badConfiguration
  deriving DecidableEq, Repr

/-- The parameter registers after reset (R231): all 0 but TABLE_COUNT, which holds `DEFAULT_TABLES` (R46). -/
def ParamRegs.reset (p : Params) : ParamRegs where
  seedAddr := 0
  seedLen := 0
  keyAddr := 0
  keyLen := 0
  tableCount := BitVec.ofNat 32 p.defaultTables
  srcAddr := 0
  dstAddr := 0
  len := 0

/-- LATCH after reset: "don't care" (R33, R232), and 0 here, a DESIGN CHOICE (log entry 12). -/
def Latch.reset : Latch where
  cmd := 0
  regs := { seedAddr := 0, seedLen := 0, keyAddr := 0, keyLen := 0, tableCount := 0, srcAddr := 0, dstAddr := 0, len := 0 }

/-- The machine after the post-reset sequence: the values of R232, LATCH apart. The fields that are not the block's start empty (log entries 3, 8, 11, 14, 21). -/
def State.reset : State where
  cfg := Config.defaults
  lc := .uninit
  mode := .undefined
  kb := []
  okb := []
  klen := 0
  st := []
  tcnt := 0
  ki := 0
  si := 0
  seedbuf := []
  slen := 0
  gctr := 0
  busy := false
  err := .none
  ovr := false
  progress := 0
  latch := Latch.reset
  regs := ParamRegs.reset Config.defaults
  testSel := 0
  testIdx := 0
  inReset := false
  mem := []
  faults := []
  script := []
  waiting := []
  answers := []
  dma := []
  draws := 0

end Sys2Proof.Machine
end

