-- ==== Sys2Proof/Machine/Ops.lean ====
section
/-! DEFINITION. The named operations over memory, storages and registers, and the one way a command ends, with a completion
code, which is this block's whole exception model (R200, R215). -/

namespace Sys2Proof.Machine

/-! ## Byte storage -/

/-- What an index that is not listed reads as. For KB, OKB, ST and SEEDBUF this is their reset value (R23, R24, R26, R32); for
host memory it is a DESIGN CHOICE (log entry 11). -/
def Memory.unlisted : Byte := 0

/-- The byte at an index. -/
def Memory.read : Memory → Nat → Byte
  | [], _ => Memory.unlisted
  | (k, v) :: m, a => if k = a then v else Memory.read m a

/-- Storage with a listed byte at `a`, in its place in the rising order. -/
def Memory.insert : Memory → Nat → Byte → Memory
  | [], a, b => [(a, b)]
  | (k, v) :: m, a, b =>
    if a < k then (a, b) :: (k, v) :: m
    else if a = k then (a, b) :: m
    else (k, v) :: Memory.insert m a b

/-- Storage without an entry at `a`. -/
def Memory.erase (m : Memory) (a : Nat) : Memory := m.filter (fun c => c.1 != a)

/-- A write of one byte; writing what an unlisted index reads as removes the entry, so that equal storages are equal lists. -/
def Memory.write (m : Memory) (a : Nat) (b : Byte) : Memory :=
  if b = Memory.unlisted then Memory.erase m a else Memory.insert m a b

/-- The canonical form: indices strictly rising, no entry equal to what an unlisted index reads as. -/
def Memory.wf : Memory → Bool
  | [] => true
  | [(_, v)] => v != Memory.unlisted
  | (k, v) :: (k', v') :: m => v != Memory.unlisted && decide (k < k') && Memory.wf ((k', v') :: m)

/-- Every listed index is below `n`. -/
def Memory.below (n : Nat) (m : Memory) : Bool := m.all (fun c => decide (c.1 < n))

/-- The bytes `b0, b1, …` written at `a, a + 1, …` in this order. -/
def Memory.writeBytes : Memory → Nat → List Byte → Memory
  | m, _, [] => m
  | m, a, b :: bs => Memory.writeBytes (Memory.write m a b) (a + 1) bs

/-- The bytes at `a, …, a + n - 1`. -/
def Memory.bytes (m : Memory) (a n : Nat) : List Byte := (List.range n).map (fun j => Memory.read m (a + j))

/-- `for j in 0 .. n-1: dst[j] <- src[j]`. -/
def Memory.copyFirst : Nat → Memory → Memory → Memory
  | 0, dst, _ => dst
  | n + 1, dst, src => Memory.write (Memory.copyFirst n dst src) n (Memory.read src n)

/-- `for j in 0 .. n-1: m[j] <- 0`. -/
def Memory.zeroFirst : Nat → Memory → Memory
  | 0, m => m
  | n + 1, m => Memory.write (Memory.zeroFirst n m) n 0

/-- A storage whose every byte is 0. -/
def Memory.zeros : Memory := []

/-! ## DMA (R13, R60, R62, R76) -/

/-- The platform's entry that makes a DMA read of `a` fail, if there is one. -/
def readFault (a : Nat) (s : State) : Option DmaFault := s.faults.find? (fun f => f.addr == a && f.onRead)

/-- The platform's entry that makes a DMA write to `a` fail, if there is one. -/
def writeFault (a : Nat) (s : State) : Option DmaFault := s.faults.find? (fun f => f.addr == a && f.onWrite)

/-- `MemRead(a, 1)` (R13): the byte, or none for an error response, and the state with the access on record. -/
def dmaRead (a : Nat) (s : State) : Option Byte × State :=
  match readFault a s with
  | none => (some (Memory.read s.mem a), { s with dma := .read a true :: s.dma })
  | some _ => (none, { s with dma := .read a false :: s.dma })

/-- Host memory after a failed write to `a`: "what it did to host memory is the platform's business" (R76). -/
def failedWrite (f : DmaFault) (a : Nat) (m : Memory) : Memory :=
  match f.leaves with
  | none => m
  | some b => Memory.write m a b

/-- `MemWrite(a, 1, b)` (R13): whether it succeeded, and the state after it. -/
def dmaWrite (a : Nat) (b : Byte) (s : State) : Bool × State :=
  match writeFault a s with
  | none => (true, { s with mem := Memory.write s.mem a b, dma := .write a b true :: s.dma })
  | some f => (false, { s with mem := failedWrite f a s.mem, dma := .write a b false :: s.dma })

/-! ## Key material -/

/-- `EraseAll()` (R179). Emptying a storage zeroes its every byte, listed or not; the erase is one action here, since no host
access sees a byte of it while BUSY = 1 (R52, R238) (log entry 15). -/
def eraseAll (s : State) : State :=
  { s with kb := Memory.zeros, okb := Memory.zeros, st := Memory.zeros, seedbuf := Memory.zeros, slen := 0, gctr := 0,
           klen := 0, tcnt := 0, ki := 0, si := 0, mode := .undefined }

/-- `ResetCore()` (R140), the stream reset. -/
def resetCore (s : State) : State :=
  { s with kb := Memory.copyFirst s.klen s.kb s.okb, ki := (s.klen : Int) - 1, si := 0 }

/-- "SEEDBUF[0..SEED_MAX_LEN) <- zeros; SLEN <- 0; GCTR <- 0" (R122, R127). -/
def dropSeed (s : State) : State := { s with seedbuf := Memory.zeros, slen := 0, gctr := 0 }

/-! ## Commands: acceptance, completion, and the ways an execution can stand -/

/-- Acceptance of the CMD word `w` (R39): operands are latched, ERR and PROGRESS cleared, BUSY set. -/
def accept (w : Word) (s : State) : State :=
  { s with latch := { cmd := w, regs := s.regs }, err := .none, progress := 0, busy := true }

/-- Completion of a command with code `e` (R39, R200): "ERR <- code; BUSY <- 0". Raising an error does this and nothing else:
no pc is saved, no mode changes, nothing is redirected (R215). DESIGN CHOICE (log entry 28): the two assignments are one action,
so that no STATUS read falls between them and none shows BUSY = 1 with a code in ERR. -/
def complete (e : ErrCode) (s : State) : State := { s with err := e, busy := false }

/-- How a part of a command's execution ended. -/
inductive Run where
  /-- It goes on. -/
  | done (s : State)
  /-- `raise e` (R13). -/
  | failed (e : ErrCode) (s : State)
  /-- The reset input was asserted: the command is abandoned and reports nothing (R230, R243). -/
  | abandoned (s : State)
  /-- The machine stops. -/
  | stopped (r : Fault)
  deriving DecidableEq, Repr

/-- What follows, where the execution goes on. -/
def Run.andThen (r : Run) (k : State → Run) : Run :=
  match r with
  | .done s => k s
  | .failed e s => .failed e s
  | .abandoned s => .abandoned s
  | .stopped f => .stopped f

/-- The end of a command's execution as the outcome of a step. -/
def Run.outcome : Run → Host.Outcome State Fault Refusal
  | .done s => .next (complete .none s)
  | .failed e s => .next (complete e s)
  | .abandoned s => .next s
  | .stopped f => .fault f

/-! ## The reset input (R230, R231) -/

/-- Reset is asserted. Nothing else changes before it is released (log entry 16). -/
def assertReset (s : State) : State := { s with inReset := true }

/-- Reset is released: `ResetSequence()` up to its erase (R231), with LATCH, don't care, at 0 (log entry 12). Without an asserted
reset nothing happens. -/
def releaseReset (s : State) : State :=
  if s.inReset then
    { s with inReset := false, regs := ParamRegs.reset s.cfg, testSel := 0, testIdx := 0, err := .none, ovr := false,
             progress := 0, lc := .uninit, busy := true, latch := Latch.reset }
  else s

/-- The rest of `ResetSequence()`: `EraseAll()`, then `BUSY <- 0` (R231). -/
def finishReset (s : State) : State := { eraseAll s with busy := false }

/-- `EraseAll()` has nothing left to clear: KB, OKB, ST, SEEDBUF, the numbers and MODE are 0 (R179). -/
def erased (s : State) : Bool := decide (eraseAll s = s)

/-- The post-reset erase is due or has yet to report: BUSY = 1 between commands, with reset released (R231, R34). -/
def erasePending (s : State) : Bool := s.busy && !s.inReset

/-- The engine's own next action between commands. In the post-reset sequence it is `EraseAll()` while anything is left to erase,
and then `BUSY <- 0` (R231), so that a host's access can fall between the two: STATUS then shows BUSY = 1 with MODE = 0
(log entry 24). At any other time there is none. -/
def engineTurn (s : State) : State :=
  if erasePending s then if erased s then { s with busy := false } else eraseAll s else s

/-- The engine's actions between commands until BUSY = 0 (a host's WAIT, R89): the rest of the post-reset sequence, if it runs.
DESIGN CHOICE (log entry 20): while reset is asserted the engine does not act and no STATUS read is answered (R230), and the WAIT is
over at once, even with BUSY = 1. -/
def engineFinish (s : State) : State := if erasePending s then finishReset s else s

end Sys2Proof.Machine
end

