-- ==== Sys2Proof/Machine/Flags.lean ====
section
/-! DEFINITION. The encodings of LC, MODE and ERR and the STATUS word (R40). The block has no flags besides STATUS (R59). -/

namespace Sys2Proof.Machine

/-- The 2-bit encoding of LC (R21). -/
def Lifecycle.code : Lifecycle → BitVec 2
  | .uninit => 0
  | .ready => 1
  | .destroyed => 2

/-- The 2-bit encoding of MODE (R22). -/
def Mode.code : Mode → BitVec 2
  | .undefined => 0
  | .autoReset => 1
  | .continuous => 2

/-- The 4-bit code of ERR (R201). -/
def ErrCode.code : ErrCode → BitVec 4
  | .none => 0
  | .tableCountRange => 1
  | .alreadyInitialized => 2
  | .notInitialized => 3
  | .disposed => 4
  | .invalidMode => 5
  | .invalidKey => 6
  | .illegalCommand => 7
  | .lengthLimit => 8
  | .addressRange => 9
  | .busError => 10

/-- The STATUS word (R40): ERR [11:8], 0 [7:6], MODE [5:4], LC [3:2], OVR [1], BUSY [0]. -/
def statusWord (s : State) : Word :=
  0#20 ++ s.err.code ++ 0#2 ++ s.mode.code ++ s.lc.code ++ BitVec.ofBool s.ovr ++ BitVec.ofBool s.busy

end Sys2Proof.Machine
end

