-- ==== Sys2Proof/Machine/Bus.lean ====
section
/-! DEFINITION. The host register window (10_state.md sections 2 and 3, R64) and host accesses other than an accepted CMD write. -/

namespace Sys2Proof.Machine

/-! ## Reads -/

/-- PROGRESS as read (R41): exact while BUSY = 0; otherwise a draw in `[0, LEN]`, LEN being the register or its latched copy,
whichever is larger (log entry 13). -/
def progressRead (s : State) : Word :=
  if s.busy then
    BitVec.ofNat 32 ((Config.draw s.draws).toNat % (max s.regs.len.toNat s.latch.regs.len.toNat + 1))
  else s.progress

/-- The byte TEST_DATA shows while BUSY = 0 (R52). -/
def testByte (s : State) : Byte :=
  if s.testSel = 0 then if s.testIdx.toNat < s.cfg.keyMaxLen then Memory.read s.kb s.testIdx.toNat else 0
  else if s.testSel = 1 then if s.testIdx.toNat < s.cfg.keyMaxLen then Memory.read s.okb s.testIdx.toNat else 0
  else if s.testSel = 2 then if s.testIdx.toNat < s.cfg.maxTables * 256 then Memory.read s.st s.testIdx.toNat else 0
  else 0

/-- TEST_DATA as read (R52): bits [31:8] are 0, and bits [7:0] are a draw while BUSY = 1. DESIGN CHOICE (log entry 29): so are they
for the reserved SEL = 3, which R50 has read 0 and R52 makes no exception for; the draw can be 0. -/
def testDataRead (s : State) : Word :=
  if s.busy then (BitVec.setWidth 8 (Config.draw s.draws)).setWidth 32 else (testByte s).setWidth 32

/-- A 32-bit test port register that shows a number: exact while BUSY = 0, otherwise a draw (R53 to R56). -/
def testNumberRead (s : State) (v : Word) : Word := if s.busy then Config.draw s.draws else v

/-- The test port (R50 to R56), offsets 0x40 to 0x58; reserved, and so 0, when TEST_PORT = 0 (R57). -/
def testPortRead (off : Nat) (s : State) : Word :=
  if s.cfg.testPort = false then 0
  else match off with
  | 0x40 => s.testSel.setWidth 32
  | 0x44 => s.testIdx
  | 0x48 => testDataRead s
  | 0x4C => testNumberRead s (BitVec.ofInt 32 s.ki)
  | 0x50 => testNumberRead s (BitVec.ofNat 32 s.si)
  | 0x54 => testNumberRead s (BitVec.ofNat 32 s.klen)
  | 0x58 => testNumberRead s (BitVec.ofNat 32 s.tcnt)
  | _ => 0

/-- The value a read of the register at a byte offset returns (R38); CMD and the reserved offsets read 0 (R39, R57). -/
def readReg (off : Nat) (s : State) : Word :=
  match off with
  | 0x00 => 0
  | 0x04 => statusWord s
  | 0x08 => progressRead s
  | 0x10 => s.regs.seedAddr
  | 0x14 => s.regs.seedLen
  | 0x18 => s.regs.keyAddr
  | 0x1C => s.regs.keyLen
  | 0x20 => s.regs.tableCount
  | 0x24 => s.regs.srcAddr
  | 0x28 => s.regs.dstAddr
  | 0x2C => s.regs.len
  | _ => testPortRead off s

/-! ## Writes -/

/-- A CMD write that is not accepted: dropped, with OVR set, while BUSY = 1 (R39, R235). (With BUSY = 0 the write is accepted,
and Command.lean runs it.) -/
def dropCommand (s : State) : State := if s.busy then { s with ovr := true } else s

/-- A write to STATUS: bit 1 clears OVR, nothing else is writable (R40). -/
def writeStatus (v : Word) (s : State) : State := if v.getLsbD 1 then { s with ovr := false } else s

/-- A write to the test port: TEST_SEL and TEST_IDX are writable when TEST_PORT = 1 (R50, R51, R56). -/
def writeTestPort (off : Nat) (v : Word) (s : State) : State :=
  if s.cfg.testPort = false then s
  else match off with
  | 0x40 => { s with testSel := v.extractLsb' 0 2 }
  | 0x44 => { s with testIdx := v }
  | _ => s

/-- The effect of a write to the register at a byte offset (R38), whatever BUSY is (R236); PROGRESS and the reserved offsets
ignore it (R41, R57). -/
def writeReg (off : Nat) (v : Word) (s : State) : State :=
  match off with
  | 0x00 => dropCommand s
  | 0x04 => writeStatus v s
  | 0x10 => { s with regs := { s.regs with seedAddr := v } }
  | 0x14 => { s with regs := { s.regs with seedLen := v } }
  | 0x18 => { s with regs := { s.regs with keyAddr := v } }
  | 0x1C => { s with regs := { s.regs with keyLen := v } }
  | 0x20 => { s with regs := { s.regs with tableCount := v } }
  | 0x24 => { s with regs := { s.regs with srcAddr := v } }
  | 0x28 => { s with regs := { s.regs with dstAddr := v } }
  | 0x2C => { s with regs := { s.regs with len := v } }
  | _ => writeTestPort off v s

/-! ## The bus -/

/-- The offset of a bus address from BASE. -/
def windowOffset (s : State) (addr : Word) : Nat := (addr - s.cfg.base).toNat

/-- The bus address lies in the 256-byte window (R38, R64). -/
def inWindow (s : State) (addr : Word) : Bool := decide (windowOffset s addr < 256)

/-- The access is a 32-bit access at an offset that is a multiple of 4 (R64). -/
def wellSized (s : State) (a : RegAccess) : Bool := decide (a.bytes = 4) && decide (windowOffset s a.addr % 4 = 0)

/-- An answer on record. -/
def answer (r : Answer) (s : State) : State := { s with answers := r :: s.answers }

/-- A read of the register at `off`, answered; the next draw is a new one (log entry 14). -/
def answerRead (off : Nat) (s : State) : State :=
  { s with answers := .data (readReg off s) :: s.answers, draws := s.draws + 1 }

/-- An access to the window while reset is asserted: the block answers none, "the platform's bus returns an error or waits"
(R230). -/
def accessInReset (a : RegAccess) (s : State) : State :=
  match Config.resetAccess with
  | .error => answer .error s
  | .wait => { s with waiting := s.waiting ++ [a] }

/-- The CMD word an access gets accepted: an aligned 32-bit write at offset 0 with reset released and BUSY = 0 (R39). -/
def acceptedWord (a : RegAccess) (s : State) : Option Word :=
  if inWindow s a.addr && wellSized s a && !s.inReset && !s.busy && windowOffset s a.addr == 0 then a.value else none

/-- Every register access but an accepted CMD write. -/
def busAccess (a : RegAccess) (s : State) : State :=
  if inWindow s a.addr = false then answer .outside s
  else if s.inReset then accessInReset a s
  else if wellSized s a = false then answer .error s
  else match a.value with
  | none => answerRead (windowOffset s a.addr) s
  | some v => answer .written (writeReg (windowOffset s a.addr) v s)

/-- The oldest waiting access is presented again; nothing happens while reset is asserted. -/
def resumeAccess (s : State) : State :=
  match s.waiting with
  | [] => s
  | a :: rest => if s.inReset then s else busAccess a { s with waiting := rest }

/-- What an event of another agent does when it is not an accepted CMD write. The marks `engine` and `wait` are no action of an
agent, and `assertReset` during a command is Interleave.lean's. -/
def hostEvent (e : Event) (s : State) : State :=
  match e with
  | .reg a => busAccess a s
  | .load addr => answer (.byte (Memory.read s.mem addr.toNat)) s
  | .store addr b => { s with mem := Memory.write s.mem addr.toNat b }
  | .setFaults fs => { s with faults := fs }
  | .assertReset => assertReset s
  | .releaseReset => releaseReset s
  | .resume => resumeAccess s
  | .engine => s
  | .wait => s

end Sys2Proof.Machine
end

