-- ==== Sys2Proof/Machine/Interleave.lean ====
section
/-! DEFINITION. How other agents' accesses fall between the engine's own actions during a command (R70, R220, R237), and the
execution of one accepted command (R39). -/

namespace Sys2Proof.Machine

/-- The other agents' accesses that precede the engine's next action: all up to the next mark `engine`, which is used up; up to a
mark `wait`, which stays until the command is over; or up to a reset, which ends the command at once (R230). Where the script is
empty the engine goes on, so every command completes (R241). -/
def serve : List Event → State → State
  | [], s => { s with script := [] }
  | .wait :: rest, s => { s with script := .wait :: rest }
  | .engine :: rest, s => { s with script := rest }
  | .assertReset :: rest, s => assertReset { s with script := rest }
  | e :: rest, s => serve rest (hostEvent e s)

/-- A point between two actions of the engine. -/
def window (s : State) : State := serve s.script s

/-- What the engine does after a point where other agents' accesses can fall; a reset there abandons the command (R230). -/
def atWindow (s : State) (k : State → Run) : Run :=
  if (window s).inReset then .abandoned (window s) else k (window s)

/-- The point between a command's last action and its completion. An access that falls here is answered with BUSY = 1 and ERR = 0:
`ERR <- code` and `BUSY <- 0` follow it as one action (R71; DESIGN CHOICE, log entry 28). -/
def Run.close : Run → Run
  | .done s => atWindow s .done
  | .failed e s => atWindow s (.failed e)
  | .abandoned s => .abandoned s
  | .stopped f => .stopped f

/-- One command (R39): the CMD word `w` is accepted, the command's rule runs on the latched operands, and when its execution
completes, ERR takes the code and BUSY falls. -/
def command (w : Word) (body : State → Run) (s : State) : Host.Outcome State Fault Refusal :=
  (atWindow (accept w s) body).close.outcome

end Sys2Proof.Machine
end

