-- ==== Sys2Proof/Machine/Erasure.lean ====
section
/-! DEFINITION. The key-material erasure controller (43_erasure.md): DESTROY. -/

namespace Sys2Proof.Machine

/-- DESTROY's rule (R171): a repeat is a no-op (R175); otherwise the erase comes first and LC changes only after it (R173). -/
def destroyBody (s : State) : Run :=
  if s.lc = .destroyed then .done s
  else atWindow (eraseAll s) fun s1 => .done { s1 with lc := .destroyed }

/-- DESTROY (R171). -/
def execDestroy (s : State) : Host.Outcome State Fault Refusal := command (encode .destroy) destroyBody s

end Sys2Proof.Machine
end

