-- ==== Sys2Proof/Machine/Sha256.lean ====
section
/-! DEFINITION. SHA-256 (FIPS 180-4) and HMAC-SHA-256 (RFC 2104, FIPS 198-1): the reference keyed hash of R101.
The spec gives the HMAC construction itself and takes SHA-256 "by reference (not transcribed)" (93_implementation_defined.md
G1, G2); the compression function and its constants below are PRESUMED from FIPS 180-4 (log entry 10) and held to the vectors
of 95_test_vectors.md section 1 in Tests/Slice0.lean. -/

namespace Sys2Proof.Machine

/-- The round constants of FIPS 180-4 section 4.2.2, first half. -/
def sha256RoundsA : List Word :=
  [0x428a2f98#32, 0x71374491#32, 0xb5c0fbcf#32, 0xe9b5dba5#32, 0x3956c25b#32, 0x59f111f1#32, 0x923f82a4#32, 0xab1c5ed5#32,
   0xd807aa98#32, 0x12835b01#32, 0x243185be#32, 0x550c7dc3#32, 0x72be5d74#32, 0x80deb1fe#32, 0x9bdc06a7#32, 0xc19bf174#32,
   0xe49b69c1#32, 0xefbe4786#32, 0x0fc19dc6#32, 0x240ca1cc#32, 0x2de92c6f#32, 0x4a7484aa#32, 0x5cb0a9dc#32, 0x76f988da#32,
   0x983e5152#32, 0xa831c66d#32, 0xb00327c8#32, 0xbf597fc7#32, 0xc6e00bf3#32, 0xd5a79147#32, 0x06ca6351#32, 0x14292967#32]

/-- The round constants of FIPS 180-4 section 4.2.2, second half. -/
def sha256RoundsB : List Word :=
  [0x27b70a85#32, 0x2e1b2138#32, 0x4d2c6dfc#32, 0x53380d13#32, 0x650a7354#32, 0x766a0abb#32, 0x81c2c92e#32, 0x92722c85#32,
   0xa2bfe8a1#32, 0xa81a664b#32, 0xc24b8b70#32, 0xc76c51a3#32, 0xd192e819#32, 0xd6990624#32, 0xf40e3585#32, 0x106aa070#32,
   0x19a4c116#32, 0x1e376c08#32, 0x2748774c#32, 0x34b0bcb5#32, 0x391c0cb3#32, 0x4ed8aa4a#32, 0x5b9cca4f#32, 0x682e6ff3#32,
   0x748f82ee#32, 0x78a5636f#32, 0x84c87814#32, 0x8cc70208#32, 0x90befffa#32, 0xa4506ceb#32, 0xbef9a3f7#32, 0xc67178f2#32]

/-- The eight working variables a..h of FIPS 180-4, also the hash value H0..H7. -/
structure ShaState where
  a : Word
  b : Word
  c : Word
  d : Word
  e : Word
  f : Word
  g : Word
  h : Word
  deriving DecidableEq, Repr

/-- The starting hash value of FIPS 180-4 section 5.3.3. -/
def sha256Start : ShaState :=
  ⟨0x6a09e667#32, 0xbb67ae85#32, 0x3c6ef372#32, 0xa54ff53a#32, 0x510e527f#32, 0x9b05688c#32, 0x1f83d9ab#32, 0x5be0cd19#32⟩

/-- Σ0 of FIPS 180-4 (4.4). -/
def shaBigSigma0 (x : Word) : Word := x.rotateRight 2 ^^^ x.rotateRight 13 ^^^ x.rotateRight 22

/-- Σ1 of FIPS 180-4 (4.5). -/
def shaBigSigma1 (x : Word) : Word := x.rotateRight 6 ^^^ x.rotateRight 11 ^^^ x.rotateRight 25

/-- σ0 of FIPS 180-4 (4.6). -/
def shaSmallSigma0 (x : Word) : Word := x.rotateRight 7 ^^^ x.rotateRight 18 ^^^ x >>> 3

/-- σ1 of FIPS 180-4 (4.7). -/
def shaSmallSigma1 (x : Word) : Word := x.rotateRight 17 ^^^ x.rotateRight 19 ^^^ x >>> 10

/-- One round: the working variables after round constant `k` and message-schedule word `w`. -/
def shaRound (v : ShaState) (k w : Word) : ShaState :=
  let t1 := v.h + shaBigSigma1 v.e + ((v.e &&& v.f) ^^^ (~~~v.e &&& v.g)) + k + w
  let t2 := shaBigSigma0 v.a + ((v.a &&& v.b) ^^^ (v.a &&& v.c) ^^^ (v.b &&& v.c))
  ⟨t1 + t2, v.a, v.b, v.c, v.d + t1, v.e, v.f, v.g⟩

/-- The next 16 words of the message schedule's sliding window: its first word leaves, the word 16 places on enters. -/
def shaSlide (w : List Word) : List Word :=
  w.tail ++ [shaSmallSigma1 (w.getD 14 0) + w.getD 9 0 + shaSmallSigma0 (w.getD 1 0) + w.getD 0 0]

/-- The rounds for the remaining round constants, with `w` the window of the message schedule. -/
def shaRounds : List Word → List Word → ShaState → ShaState
  | [], _, v => v
  | k :: ks, w, v => shaRounds ks (shaSlide w) (shaRound v k (w.getD 0 0))

/-- The compression of one block of 16 words into the hash value. -/
def shaCompress (hv : ShaState) (block : List Word) : ShaState :=
  let v := shaRounds (sha256RoundsA ++ sha256RoundsB) block hv
  ⟨hv.a + v.a, hv.b + v.b, hv.c + v.c, hv.d + v.d, hv.e + v.e, hv.f + v.f, hv.g + v.g, hv.h + v.h⟩

/-- Four bytes as a big-endian word. -/
def shaWord (b0 b1 b2 b3 : Byte) : Word := b0 ++ b1 ++ b2 ++ b3

/-- A byte string as big-endian words; a tail shorter than four bytes is dropped (padded messages have none). -/
def shaWords : List Byte → List Word
  | b0 :: b1 :: b2 :: b3 :: rest => shaWord b0 b1 b2 b3 :: shaWords rest
  | _ => []

/-- `n` blocks of 16 words, compressed in order. -/
def shaBlocks : Nat → List Word → ShaState → ShaState
  | 0, _, hv => hv
  | n + 1, ws, hv => shaBlocks n (ws.drop 16) (shaCompress hv (ws.take 16))

/-- The `n`-byte big-endian encoding of a number. -/
def bigEndian : Nat → Nat → List Byte
  | 0, _ => []
  | n + 1, v => BitVec.ofNat 8 (v / 256 ^ n) :: bigEndian n v

/-- How many zero bytes the padding of a message of `len` bytes holds: 0x80, these zeros and the 8 length bytes fill the last
64-byte block (FIPS 180-4 section 5.1.1). -/
def shaPadZeros (len : Nat) : Nat := (119 - len % 64) % 64

/-- The padded message. -/
def shaPad (m : List Byte) : List Byte :=
  m ++ 0x80#8 :: List.replicate (shaPadZeros m.length) 0 ++ bigEndian 8 (8 * m.length)

/-- The four big-endian bytes of a word. -/
def shaWordBytes (w : Word) : List Byte :=
  [w.extractLsb' 24 8, w.extractLsb' 16 8, w.extractLsb' 8 8, w.extractLsb' 0 8]

/-- SHA-256: 32 bytes of output. -/
def sha256 (m : List Byte) : List Byte :=
  let p := shaPad m
  let v := shaBlocks (p.length / 64) (shaWords p) sha256Start
  shaWordBytes v.a ++ shaWordBytes v.b ++ shaWordBytes v.c ++ shaWordBytes v.d ++
    shaWordBytes v.e ++ shaWordBytes v.f ++ shaWordBytes v.g ++ shaWordBytes v.h

/-- The 64-byte block key K0 of R101. -/
def hmacBlockKey (k : List Byte) : List Byte :=
  if k.length ≤ 64 then k ++ List.replicate (64 - k.length) 0 else sha256 k ++ List.replicate 32 0

/-- HMAC-SHA-256 as R101 writes it. -/
def hmacSha256 (k m : List Byte) : List Byte :=
  sha256 ((hmacBlockKey k).map (· ^^^ 0x5C#8) ++ sha256 ((hmacBlockKey k).map (· ^^^ 0x36#8) ++ m))

end Sys2Proof.Machine
end

