-- ==== Sys2Proof/Machine/Generator.lean ====
section
/-! DEFINITION. The schedule generator (40_schedule_generator.md). -/

namespace Sys2Proof.Machine

/-- `HASH(k, m)`, exactly `HASH_LEN` bytes (R100, R101). -/
def hashBytes (p : Params) (k m : List Byte) : List Byte :=
  match p.hash with
  | .hmacSha256 => hmacSha256 k m
  | .other => (List.range p.hashLen).map (Config.otherHash p.hashLen k m)

/-- `BE64(c)` (R11, R102): the counter, most significant byte first. -/
def be64 (c : BitVec 64) : List Byte := bigEndian 8 c.toNat

/-- `x` of the seed transform (R103): the table count modulo 255, as a byte. -/
def seedMask (t : Nat) : Byte := BitVec.ofNat 8 (t % 255)

/-- `for j in 0 .. n-1: SEEDBUF[j] <- SEEDBUF[j] ^ x` (R103). -/
def maskSeed (x : Byte) : Nat → Memory → Memory
  | 0, m => m
  | n + 1, m => Memory.write (maskSeed x n m) n (Memory.read m n ^^^ x)

/-- `SEEDBUF[0..SLEN)`: the HMAC key of every hash evaluation of a generation (R103). -/
def seedBytes (s : State) : List Byte := Memory.bytes s.seedbuf 0 s.slen

/-- One hash evaluation (R106): its output goes to ST from index `base` on, and the counter goes up by 1. -/
def hashInto (base : Nat) (s : State) : State :=
  { s with st := Memory.writeBytes s.st base (hashBytes s.cfg (seedBytes s) (be64 s.gctr)), gctr := s.gctr + 1 }

/-- `for q in q .. q+n-1` of R106: `n` hash outputs of table `t`. -/
def fillTable (t : Nat) : Nat → Nat → State → State
  | 0, _, s => s
  | n + 1, q, s => fillTable t n (q + 1) (hashInto (t * 256 + q * s.cfg.hashLen) s)

/-- `for t in t .. t+n-1` of R106: `n` tables in order. -/
def fillTables : Nat → Nat → State → State
  | 0, _, s => s
  | n + 1, t, s => fillTables n (t + 1) (fillTable t (256 / s.cfg.hashLen) 0 s)

/-- `GenerateSchedule(T)` (R106). -/
def generateSchedule (t : Nat) (s : State) : State :=
  fillTables t 0 { s with seedbuf := maskSeed (seedMask t) s.slen s.seedbuf, gctr := 0 }

end Sys2Proof.Machine
end

