-- ==== Sys2Proof/Machine/Operands.lean ====
section
/-! DEFINITION. A command's operands: the MODE field, and the latched registers, "each read as an unsigned 32-bit integer and used
without extension, scaling or sign" (R86). -/

namespace Sys2Proof.Machine

/-- The mode a MODE field encodes; 3 encodes none (R82). -/
def Mode.ofField (m : BitVec 2) : Option Mode :=
  if m = 0 then some .undefined
  else if m = 1 then some .autoReset
  else if m = 2 then some .continuous
  else none

/-- `reg(SEED_ADDR)`. -/
def opSeedAddr (s : State) : Nat := s.latch.regs.seedAddr.toNat

/-- `reg(SEED_LEN)`. -/
def opSeedLen (s : State) : Nat := s.latch.regs.seedLen.toNat

/-- `reg(KEY_ADDR)`. -/
def opKeyAddr (s : State) : Nat := s.latch.regs.keyAddr.toNat

/-- `reg(KEY_LEN)`. -/
def opKeyLen (s : State) : Nat := s.latch.regs.keyLen.toNat

/-- `reg(TABLE_COUNT)`. -/
def opTableCount (s : State) : Nat := s.latch.regs.tableCount.toNat

/-- `reg(SRC_ADDR)`. -/
def opSrcAddr (s : State) : Nat := s.latch.regs.srcAddr.toNat

/-- `reg(DST_ADDR)`. -/
def opDstAddr (s : State) : Nat := s.latch.regs.dstAddr.toNat

/-- `reg(LEN)`. -/
def opLen (s : State) : Nat := s.latch.regs.len.toNat

/-- The byte range `(base, n)` is in range: `base + n <= 2^32` over the integers (R65). -/
def inRange (base n : Nat) : Bool := decide (base + n ≤ 2 ^ 32)

end Sys2Proof.Machine
end

