-- ==== Sys2Proof/Machine/Init.lean ====
section
/-! DEFINITION. INIT (41_init.md). -/

namespace Sys2Proof.Machine

/-- INIT's validation, the rows of R121 in order; `d` is DEFSEED. -/
def initCheck (d : Bool) (s : State) : Option ErrCode :=
  if s.lc = .destroyed then some .disposed
  else if s.lc = .ready then some .alreadyInitialized
  else if opTableCount s < s.cfg.minTables ∨ opTableCount s > s.cfg.maxTables then some .tableCountRange
  else if opKeyLen s = 0 then some .invalidKey
  else if opKeyLen s > s.cfg.keyMaxLen then some .lengthLimit
  else if d = false ∧ opSeedLen s > s.cfg.seedMaxLen then some .lengthLimit
  else if d = false ∧ inRange (opSeedAddr s) (opSeedLen s) = false then some .addressRange
  else if inRange (opKeyAddr s) (opKeyLen s) = false then some .addressRange
  else none

/-- `InitAbort()` (R124). -/
def initAbort (s : State) : State :=
  { dropSeed s with kb := Memory.zeroFirst (opKeyLen s) s.kb, okb := Memory.zeroFirst (opKeyLen s) s.okb }

/-- The seed bytes `j, …, j+n-1` read from host memory into SEEDBUF (R66, R122). -/
def loadSeed : Nat → Nat → State → Run
  | 0, _, s => .done s
  | n + 1, j, s => atWindow s fun s1 =>
    match dmaRead (opSeedAddr s1 + j) s1 with
    | (none, s2) => .failed .busError (initAbort s2)
    | (some b, s2) => loadSeed n (j + 1) { s2 with seedbuf := Memory.write s2.seedbuf j b }

/-- The key bytes `j, …, j+n-1` read from host memory into KB and OKB (R66, R122). -/
def loadKey : Nat → Nat → State → Run
  | 0, _, s => .done s
  | n + 1, j, s => atWindow s fun s1 =>
    match dmaRead (opKeyAddr s1 + j) s1 with
    | (none, s2) => .failed .busError (initAbort s2)
    | (some b, s2) => loadKey n (j + 1) { s2 with kb := Memory.write s2.kb j b, okb := Memory.write s2.okb j b }

/-- `DEFAULT_SEED` (R125). R8 bounds its length by SEED_MAX_LEN, and `step` refuses a configuration that breaks that. -/
def defaultSeed (p : Params) : List Byte := (List.range p.defaultSeedLen).map Config.defaultSeedByte

/-- "load seed into scratch" (R122, R125). -/
def takeSeed (d : Bool) (s : State) : Run :=
  if d then
    .done { s with slen := (defaultSeed s.cfg).length, seedbuf := Memory.writeBytes s.seedbuf 0 (defaultSeed s.cfg) }
  else loadSeed (opSeedLen s) 0 { s with slen := opSeedLen s }

/-- "schedule generator, exactly once" and "drop the seed" (R122). -/
def generateAndDrop (s : State) : State := dropSeed (generateSchedule (opTableCount s) s)

/-- "install", up to `MODE <- m` (R122). -/
def installKey (m : Mode) (s : State) : State :=
  { s with klen := opKeyLen s, tcnt := opTableCount s, ki := (opKeyLen s : Int) - 1, si := 0, mode := m }

/-- INIT after its validation (R122). -/
def initRun (m : Mode) (d : Bool) (s : State) : Run :=
  (takeSeed d s).andThen fun s1 =>
  (loadKey (opKeyLen s1) 0 s1).andThen fun s2 =>
  atWindow s2 fun s3 =>
  atWindow (generateAndDrop s3) fun s4 =>
  atWindow (installKey m s4) fun s5 =>
  .done (resetCore { s5 with lc := .ready })

/-- INIT's rule (R122). MODE = 3 is ILLEGAL_COMMAND, before every other check (R82, R213). -/
def initBody (mode : BitVec 2) (d : Bool) (s : State) : Run :=
  match Mode.ofField mode with
  | none => .failed .illegalCommand s
  | some m =>
    match initCheck d s with
    | some e => .failed e s
    | none => initRun m d s

/-- INIT (R120 to R129). -/
def execInit (mode : BitVec 2) (d : Bool) (s : State) : Host.Outcome State Fault Refusal :=
  command (encode (.init mode d)) (initBody mode d) s

end Sys2Proof.Machine
end

