-- ==== Sys2Proof/Machine/Keystream.lean ====
section
/-! DEFINITION. The keystream permutation unit (42_keystream.md): RESET_STREAM, CIPHER and SET_MODE. -/

namespace Sys2Proof.Machine

/-- The lifecycle checks of RESET_STREAM, CIPHER and SET_MODE, in the order of R213. -/
def readyCheck (s : State) : Option ErrCode :=
  match s.lc with
  | .destroyed => some .disposed
  | .uninit => some .notInitialized
  | .ready => none

/-! ## RESET_STREAM -/

/-- RESET_STREAM's rule (R141). -/
def resetStreamBody (s : State) : Run :=
  match readyCheck s with
  | some e => .failed e s
  | none => .done (resetCore s)

/-- RESET_STREAM (R141). -/
def execResetStream (s : State) : Host.Outcome State Fault Refusal := command (encode .resetStream) resetStreamBody s

/-! ## CIPHER -/

/-- `ki` of a byte step (R142, R143 step a). -/
def wrapKi (s : State) : Int := if s.ki = -1 then (s.klen : Int) - 1 else s.ki

/-- `si` of a byte step (R142, R143 step b). -/
def wrapSi (s : State) : Nat := if s.si = s.tcnt then 0 else s.si

/-- The key byte a byte step uses, `KB[ki]`. -/
def keyByte (s : State) : Byte := Memory.read s.kb (wrapKi s).toNat

/-- `si*256 + KB[ki]`, where a byte step looks up ST (R144). -/
def tableIndex (s : State) : Nat := wrapSi s * 256 + (keyByte s).toNat

/-- `ks` of a byte step (R142, R144 step c). -/
def keystreamByte (s : State) : Byte := Memory.read s.st (tableIndex s)

/-- `byte(ki + 11 + si)` of a byte step (R146 step e). -/
def keyMask (s : State) : Byte := BitVec.ofInt 8 (wrapKi s + 11 + wrapSi s)

/-- A byte step's indices lie inside KB and ST (R160). -/
def indicesInside (s : State) : Bool :=
  decide (0 ≤ wrapKi s) && decide (wrapKi s < s.cfg.keyMaxLen) && decide (tableIndex s < s.cfg.maxTables * 256)

/-- What a byte step commits after its write succeeded, all together (R142 steps e and f). -/
def commitStep (k : Nat) (s : State) : State :=
  { s with kb := Memory.write s.kb (wrapKi s).toNat (keyByte s ^^^ keyMask s), ki := wrapKi s - 1, si := wrapSi s + 1,
           progress := BitVec.ofNat 32 (k + 1) }

/-- `ByteStep(k)` (R142). The keystream byte and the indices read after the accesses are those read before them: no other agent
changes KB, ST, KI, SI, KLEN or TCNT (R20). -/
def byteStep (k : Nat) (s : State) : Run :=
  if indicesInside s then
    atWindow s fun s1 =>
    match dmaRead (opSrcAddr s1 + k) s1 with
    | (none, s2) => .failed .busError s2
    | (some b, s2) => atWindow s2 fun s3 =>
      match dmaWrite (opDstAddr s3 + k) (b ^^^ keystreamByte s3) s3 with
      | (false, s4) => .failed .busError s4
      | (true, s4) => .done (commitStep k s4)
  else .stopped .storageIndex

/-- The byte steps `k, …, k+n-1` (R150). -/
def byteSteps : Nat → Nat → State → Run
  | 0, _, s => .done s
  | n + 1, k, s => (byteStep k s).andThen (byteSteps n (k + 1))

/-- CIPHER's validation, in the order of R150 and R213. -/
def cipherCheck (s : State) : Option ErrCode :=
  match readyCheck s with
  | some e => some e
  | none =>
    if s.mode = .undefined then some .invalidMode
    else if inRange (opSrcAddr s) (opLen s) = false then some .addressRange
    else if inRange (opDstAddr s) (opLen s) = false then some .addressRange
    else none

/-- AutoReset rolls the key state back, "even when LEN = 0"; Continuous does not (R149). -/
def modeDispatch (s : State) : State := if s.mode = .autoReset then resetCore s else s

/-- CIPHER's rule (R150). -/
def cipherBody (s : State) : Run :=
  match cipherCheck s with
  | some e => .failed e s
  | none => byteSteps (opLen s) 0 (modeDispatch s)

/-- CIPHER (R148 to R153). -/
def execCipher (s : State) : Host.Outcome State Fault Refusal := command (encode .cipher) cipherBody s

/-! ## SET_MODE -/

/-- SET_MODE's rule (R158). MODE = 3 is ILLEGAL_COMMAND, before every other check (R82, R213). -/
def setModeBody (mode : BitVec 2) (s : State) : Run :=
  match Mode.ofField mode with
  | none => .failed .illegalCommand s
  | some m =>
    match readyCheck s with
    | some e => .failed e s
    | none => .done { s with mode := m }

/-- SET_MODE (R158). -/
def execSetMode (mode : BitVec 2) (s : State) : Host.Outcome State Fault Refusal :=
  command (encode (.setMode mode)) (setModeBody mode) s

end Sys2Proof.Machine
end

