-- ==== Sys2Proof/Machine/Dispatch.lean ====
section
/-! DEFINITION. The dispatch of a decoded command to its meaning. -/

namespace Sys2Proof.Machine

/-- The meaning of a command: its whole execution, from the acceptance of its CMD word to the fall of BUSY (R14, R39). -/
def exec (i : Instr) (s : State) : Host.Outcome State Fault Refusal :=
  match i with
  | .init mode defseed => Sys2Proof.Machine.execInit mode defseed s
  | .resetStream => Sys2Proof.Machine.execResetStream s
  | .cipher => Sys2Proof.Machine.execCipher s
  | .destroy => Sys2Proof.Machine.execDestroy s
  | .setMode mode => Sys2Proof.Machine.execSetMode mode s

end Sys2Proof.Machine
end

