-- ==== Sys2Proof/Machine/Command.lean ====
section
/-! DEFINITION. What a step does with the next event: an accepted CMD write is decoded and executed (R39, R87), every other event
is the other agents' own. -/

namespace Sys2Proof.Machine

/-- A CMD word that does not decode: it is accepted and completes with ILLEGAL_COMMAND, before any other check (R84, R208). -/
def execIllegal (w : Word) (s : State) : Host.Outcome State Fault Refusal :=
  command w (fun s1 => .failed .illegalCommand s1) s

/-- An accepted CMD word (R39, R87). -/
def runWord (w : Word) (s : State) : Host.Outcome State Fault Refusal :=
  match decode w with
  | .ok i => exec i s
  | .error _ => execIllegal w s

/-- A register access while no command runs. -/
def present (a : RegAccess) (s : State) : Host.Outcome State Fault Refusal :=
  match acceptedWord a s with
  | some w => runWord w (answer .written s)
  | none => .next (busAccess a s)

/-- The oldest waiting access is presented again; nothing happens while reset is asserted (R230). -/
def presentWaiting (s : State) : Host.Outcome State Fault Refusal :=
  match s.waiting with
  | [] => .next s
  | a :: rest => if s.inReset then .next s else present a { s with waiting := rest }

/-- One event while no command runs. -/
def runEvent (e : Event) (s : State) : Host.Outcome State Fault Refusal :=
  match e with
  | .reg a => present a s
  | .resume => presentWaiting s
  | .engine => .next (engineTurn s)
  | .wait => .next (engineFinish s)
  | .load _ => .next (hostEvent e s)
  | .store _ _ => .next (hostEvent e s)
  | .setFaults _ => .next (hostEvent e s)
  | .assertReset => .next (hostEvent e s)
  | .releaseReset => .next (hostEvent e s)

/-- The next event of the script; with an empty script the engine has its turn, so that the post-reset erase completes (R241). -/
def runNext (s : State) : Host.Outcome State Fault Refusal :=
  match s.script with
  | [] => .next (engineTurn s)
  | e :: rest => runEvent e { s with script := rest }

/-- The host's write of a CMD word. -/
def cmdWrite (s : State) (w : Word) : RegAccess := { addr := s.cfg.base, bytes := 4, value := some w }

end Sys2Proof.Machine
end

