-- ==== Sys2Proof/Machine/Step.lean ====
section
/-! DEFINITION. One step of the machine, and the placing of a command where the next step takes it. -/

namespace Sys2Proof.Machine

/-- One step: the next event in the total order of R70, a whole command with the accesses that fall into it counting as one
(R14). A configuration that breaks R8 is refused. -/
def step (s : State) : Host.Outcome State Fault Refusal :=
  if s.cfg.valid then runNext s else .refused .badConfiguration

/-- The block fetches nothing: its commands are writes to CMD (R58, R74). The next event becomes a host's write of the word to
CMD, followed by that host's WAIT; the write is accepted, since BUSY = 0 and reset is released. -/
def State.withFetchWord (s : State) (nbits w : Nat) : State :=
  { s with script := .reg (cmdWrite s (tableWord nbits w)) :: .wait :: s.script, busy := false, inReset := false }

end Sys2Proof.Machine
end

