-- ==== Sys2Proof/Safety.lean ====
section
/-! DEFINITION. What counts as a good state, and the words the statements use. -/

namespace Sys2Proof.Machine

/-- No other agent acts before the engine's next action: the script is empty, or a host WAITs (R89). -/
def State.quiet (s : State) : Bool :=
  match s.script with
  | [] => true
  | .wait :: _ => true
  | _ => false

/-- No other agent acts while a command runs from here, and reset is released: the premise R237 asks of a claim about output. -/
def State.calm (s : State) : Prop := s.quiet = true ∧ s.inReset = false

/-- The part of State that R20 gives the engine, but for OVR, which a host's write to STATUS clears (R40). -/
structure Engine where
  lc : Lifecycle
  mode : Mode
  kb : Memory
  okb : Memory
  klen : Nat
  st : Memory
  tcnt : Nat
  ki : Int
  si : Nat
  seedbuf : Memory
  slen : Nat
  gctr : BitVec 64
  busy : Bool
  err : ErrCode
  progress : Word
  latch : Latch
  deriving DecidableEq, Repr

/-- The engine's own part of a state (R20). -/
def State.engine (s : State) : Engine where
  lc := s.lc
  mode := s.mode
  kb := s.kb
  okb := s.okb
  klen := s.klen
  st := s.st
  tcnt := s.tcnt
  ki := s.ki
  si := s.si
  seedbuf := s.seedbuf
  slen := s.slen
  gctr := s.gctr
  busy := s.busy
  err := s.err
  progress := s.progress
  latch := s.latch

/-- Every byte from index `n` on is 0. -/
def Memory.zeroFrom (m : Memory) (n : Nat) : Prop := ∀ j, n ≤ j → Memory.read m j = 0

/-- R30, with its last sentence: what holds of the engine between commands when LC = READY. -/
structure State.ReadyInv (s : State) : Prop where
  klen_pos : 1 ≤ s.klen
  klen_le : s.klen ≤ s.cfg.keyMaxLen
  tcnt_ge : s.cfg.minTables ≤ s.tcnt
  tcnt_le : s.tcnt ≤ s.cfg.maxTables
  ki_ge : -1 ≤ s.ki
  ki_le : s.ki ≤ (s.klen : Int) - 1
  si_le : s.si ≤ s.tcnt
  kb_zero : s.kb.zeroFrom s.klen
  okb_zero : s.okb.zeroFrom s.klen
  st_zero : s.st.zeroFrom (s.tcnt * 256)
  seedbuf_zero : s.seedbuf.zeroFrom 0
  slen_zero : s.slen = 0
  gctr_zero : s.gctr = 0

/-- R31: what holds of the engine between commands when LC is UNINIT or DESTROYED. -/
structure State.ErasedInv (s : State) : Prop where
  klen_zero : s.klen = 0
  tcnt_zero : s.tcnt = 0
  ki_zero : s.ki = 0
  si_zero : s.si = 0
  mode_undefined : s.mode = .undefined
  kb_zero : s.kb.zeroFrom 0
  okb_zero : s.okb.zeroFrom 0
  st_zero : s.st.zeroFrom 0
  seedbuf_zero : s.seedbuf.zeroFrom 0
  slen_zero : s.slen = 0
  gctr_zero : s.gctr = 0

/-- Every storage of the block and host memory is in canonical form. -/
structure State.Canonical (s : State) : Prop where
  kb : s.kb.wf = true
  okb : s.okb.wf = true
  st : s.st.wf = true
  seedbuf : s.seedbuf.wf = true
  mem : s.mem.wf = true

/-- The model's invariant between steps: a legal configuration (R8), canonical storages, and, with reset released, either the
post-reset erase pending with LC = UNINIT (R231) or the engine as R30 or R31 say. -/
structure State.Inv (s : State) : Prop where
  cfg_valid : s.cfg.valid = true
  canonical : s.Canonical
  erasing : s.inReset = false → s.busy = true → s.lc = .uninit
  ready : s.inReset = false → s.busy = false → s.lc = .ready → s.ReadyInv
  erased : s.inReset = false → s.busy = false → s.lc ≠ .ready → s.ErasedInv

/-- R25 to R30 for the key state alone: where a byte step's indices can lie. -/
structure State.KeyInv (s : State) : Prop where
  klen_pos : 1 ≤ s.klen
  klen_le : s.klen ≤ s.cfg.keyMaxLen
  tcnt_pos : 1 ≤ s.tcnt
  tcnt_le : s.tcnt ≤ s.cfg.maxTables
  ki_ge : -1 ≤ s.ki
  ki_le : s.ki ≤ (s.klen : Int) - 1
  si_le : s.si ≤ s.tcnt

/-- The key state after `n` byte steps, data apart: KB, KI and SI as R142 steps a, b, e and f leave them. -/
def keyAfter : Nat → State → State
  | 0, s => s
  | n + 1, s => commitStep n (keyAfter n s)

/-- Keystream byte `n` of a CIPHER whose first byte step starts from `s`. -/
def keystreamAt (n : Nat) (s : State) : Byte := keystreamByte (keyAfter n s)

/-- The record of `n` byte steps' accesses (R67): read 0, write 0, read 1, write 1, and so on, latest first; `out j` is the byte
written by step `j`. -/
def stepTrace (src dst : Nat) (out : Nat → Byte) : Nat → List DmaAccess
  | 0 => []
  | n + 1 => .write (dst + n) (out n) true :: .read (src + n) true :: stepTrace src dst out n

/-- No DMA read of the byte range `(base, n)` fails. -/
def readsSucceed (base n : Nat) (s : State) : Prop := ∀ j, j < n → readFault (base + j) s = none

/-- No DMA write to the byte range `(base, n)` fails. -/
def writesSucceed (base n : Nat) (s : State) : Prop := ∀ j, j < n → writeFault (base + j) s = none

/-- The record of `n` successful DMA reads of `base, base + 1, …` in this order, latest first. -/
def readTrace (base n : Nat) : List DmaAccess := ((List.range n).map (fun j => DmaAccess.read (base + j) true)).reverse

/-- A byte string XORed with the seed transform's mask (R103). -/
def maskedSeed (t : Nat) (seed : List Byte) : List Byte := seed.map (· ^^^ seedMask t)

/-- R105: schedule byte `j` for the transformed seed `key`. -/
def scheduleByte (p : Params) (key : List Byte) (j : Nat) : Byte :=
  (hashBytes p key (be64 (BitVec.ofNat 64 (j / p.hashLen)))).getD (j % p.hashLen) 0

/-- The state after a command word `w` that fails with `e` before it changes anything (R214): only LATCH, ERR, PROGRESS and BUSY
are not as before. -/
def State.rejected (s : State) (w : Word) (e : ErrCode) : State :=
  { s with latch := { cmd := w, regs := s.regs }, err := e, progress := 0, busy := false }

/-- The rows of R121 in order: INIT's conditions on the state and the registers at acceptance, each with its error. -/
def initRows (d : Bool) (s : State) : List (Bool × ErrCode) :=
  [(s.lc == .destroyed, .disposed),
   (s.lc == .ready, .alreadyInitialized),
   (decide (s.regs.tableCount.toNat < s.cfg.minTables) || decide (s.regs.tableCount.toNat > s.cfg.maxTables), .tableCountRange),
   (decide (s.regs.keyLen.toNat = 0), .invalidKey),
   (decide (s.regs.keyLen.toNat > s.cfg.keyMaxLen), .lengthLimit),
   (!d && decide (s.regs.seedLen.toNat > s.cfg.seedMaxLen), .lengthLimit),
   (!d && decide (s.regs.seedAddr.toNat + s.regs.seedLen.toNat > 2 ^ 32), .addressRange),
   (decide (s.regs.keyAddr.toNat + s.regs.keyLen.toNat > 2 ^ 32), .addressRange)]

/-- CIPHER's conditions in the order of R150, each with its error. -/
def cipherRows (s : State) : List (Bool × ErrCode) :=
  [(s.lc == .destroyed, .disposed),
   (s.lc == .uninit, .notInitialized),
   (s.mode == .undefined, .invalidMode),
   (decide (s.regs.srcAddr.toNat + s.regs.len.toNat > 2 ^ 32), .addressRange),
   (decide (s.regs.dstAddr.toNat + s.regs.len.toNat > 2 ^ 32), .addressRange)]

/-- A host's word-wide write of `v` to the register at offset `off` of the window at `base`. -/
def regWrite (base off v : Word) : RegAccess := { addr := base + off, bytes := 4, value := some v }

/-- The offsets of the eight parameter registers (R38). -/
def paramOffsets : List Nat := [0x10, 0x14, 0x18, 0x1C, 0x20, 0x24, 0x28, 0x2C]

/-- The seed an INIT takes from host memory or, with DEFSEED = 1, from `DEFAULT_SEED` (R125). -/
def seedOf (d : Bool) (s : State) : List Byte :=
  if d then defaultSeed s.cfg else Memory.bytes s.mem s.regs.seedAddr.toNat s.regs.seedLen.toNat

/-- The state from which a CIPHER's first byte step starts, KB, KI and SI apart from the data: rolled back in AutoReset mode, as
it stands in Continuous mode (R149). -/
def cipherStart (s : State) : State := { modeDispatch s with progress := 0 }

/-- The key state is that just after INIT or a stream reset (R140, R156). -/
def State.resetPoint (s : State) : Prop :=
  (∀ j, j < s.klen → Memory.read s.kb j = Memory.read s.okb j) ∧ s.ki = (s.klen : Int) - 1 ∧ s.si = 0

/-- The parameter registers set for a CIPHER of `n` bytes from `src` to `dst`. -/
def State.setCipher (s : State) (src dst n : Word) : State :=
  { s with regs := { s.regs with srcAddr := src, dstAddr := dst, len := n } }

/-- In-place CIPHERs of the ranges of a list, one after another; none where one of them does not complete with ERR = 0. -/
def cipherEach : List (Word × Word) → State → Option State
  | [], s => some s
  | (a, n) :: rest, s =>
    match exec .cipher (s.setCipher a a n) with
    | .next t => if t.err = .none then cipherEach rest t else none
    | .fault _ => none
    | .refused _ => none

/-- One CIPHER of a sequence: its operands, and host memory as the hosts have it when they start it. -/
structure CipherJob where
  src : Word
  dst : Word
  len : Word
  mem : Memory
  deriving DecidableEq, Repr

/-- The bytes a CIPHER is given. -/
def CipherJob.input (j : CipherJob) : List Byte := Memory.bytes j.mem j.src.toNat j.len.toNat

/-- The state in which the CIPHER starts. -/
def CipherJob.place (j : CipherJob) (s : State) : State := ({ s with mem := j.mem } : State).setCipher j.src j.dst j.len

/-- Both ranges are in range and no access to them fails, and the target does not run ahead into the source (R65, R68, R76). -/
def CipherJob.Fits (j : CipherJob) (s : State) : Prop :=
  j.src.toNat + j.len.toNat ≤ 2 ^ 32 ∧ j.dst.toNat + j.len.toNat ≤ 2 ^ 32 ∧
  (j.dst.toNat ≤ j.src.toNat ∨ j.src.toNat + j.len.toNat ≤ j.dst.toNat) ∧
  readsSucceed j.src.toNat j.len.toNat s ∧ writesSucceed j.dst.toNat j.len.toNat s

/-- CIPHERs one after another: what each left in its target, and the last state; none where one of them does not complete with
ERR = 0. -/
def cipherJobs : List CipherJob → State → Option (List (List Byte) × State)
  | [], s => some ([], s)
  | j :: rest, s =>
    match exec .cipher (j.place s) with
    | .next t =>
      if t.err = .none then
        (cipherJobs rest t).map (fun r => (Memory.bytes t.mem j.dst.toNat j.len.toNat :: r.1, r.2))
      else none
    | .fault _ => none
    | .refused _ => none

end Sys2Proof.Machine
end

