-- ==== Sys2Proof/Certificates/Slice0/Obligations.lean ====
section
/-! DEFINITION. The statements for the provers, each from a numbered rule of spec/ unless its docstring says otherwise. A statement
about a command speaks of `exec`, the command's whole execution from the acceptance of its CMD word (R39); `StepRunsDecodedCommand`
carries it to `step`. The premise `s.calm` says that no other agent acts while the command runs and that reset is released: R237
asks for it ("No claim about the output may rest on such a program unless it states the interleaving"). -/

open Sys2Proof Sys2Proof.Machine

/-! ## Encoding -/

/-- Decoding accepts exactly the encodings of the well-formed commands, and gives back the command encoded (R85, R87). -/
def Obligations.DecodeAcceptsExactlyEncodings : Prop :=
  ∀ (w : Word) (i : Instr), decode w = .ok i ↔ (i.wellFormed = true ∧ encode i = w)

/-- The match and mask table of R85. -/
def Obligations.WordsSpellMnemonicsByMatchAndMask : Prop :=
  ∀ w : Word,
    (∀ m d, decode w = .ok (.init m d) ↔
      (w &&& 0xFFFFFF8F#32 = 0x00000001#32 ∧ w.extractLsb' 4 2 ≠ 3 ∧ w.extractLsb' 4 2 = m ∧ w.getLsbD 6 = d)) ∧
    (decode w = .ok .resetStream ↔ w &&& 0xFFFFFFFF#32 = 0x00000002#32) ∧
    (decode w = .ok .cipher ↔ w &&& 0xFFFFFFFF#32 = 0x00000003#32) ∧
    (decode w = .ok .destroy ↔ w &&& 0xFFFFFFFF#32 = 0x00000004#32) ∧
    (∀ m, decode w = .ok (.setMode m) ↔
      (w &&& 0xFFFFFFCF#32 = 0x00000005#32 ∧ w.extractLsb' 4 2 ≠ 3 ∧ w.extractLsb' 4 2 = m))

/-- The twelve legal words of R88 with their meanings, and no other word. -/
def Obligations.ExactlyTwelveLegalWords : Prop :=
  ∀ (w : Word) (i : Instr), decode w = .ok i ↔ (w, i) ∈
    [(0x01#32, Instr.init 0 false), (0x11, .init 1 false), (0x21, .init 2 false), (0x41, .init 0 true), (0x51, .init 1 true),
     (0x61, .init 2 true), (0x02, .resetStream), (0x03, .cipher), (0x04, .destroy), (0x05, .setMode 0), (0x15, .setMode 1),
     (0x25, .setMode 2)]

/-- One word of each command, written out from R80 and R85, decodes to it. -/
def Obligations.SampleWordsDecode : Prop :=
  decode 0b00000000000000000000000001010001#32 = .ok (.init 1 true) ∧
  decode 0b00000000000000000000000000000010#32 = .ok .resetStream ∧
  decode 0b00000000000000000000000000000011#32 = .ok .cipher ∧
  decode 0b00000000000000000000000000000100#32 = .ok .destroy ∧
  decode 0b00000000000000000000000000100101#32 = .ok (.setMode 2)

/-- A word that R208 calls illegal completes with ILLEGAL_COMMAND, code 7, in every lifecycle state; nothing else changes but
LATCH, PROGRESS and BUSY (R39), the script's next entry and the record of the write's answer. -/
def Obligations.IllegalWordsFailInEveryState : Prop :=
  ErrCode.illegalCommand.code = 7 ∧
  ∀ (s : State) (w : Word) (rest : List Event), s.cfg.valid = true → s.busy = false →
    s.script = .reg (regWrite s.cfg.base 0 w) :: rest → ({ s with script := rest } : State).calm →
    (w.extractLsb' 0 4 = 0 ∨ 6 ≤ (w.extractLsb' 0 4).toNat ∨ w.extractLsb' 7 25 ≠ 0 ∨
      ((w.extractLsb' 0 4 = 1 ∨ w.extractLsb' 0 4 = 5) ∧ w.extractLsb' 4 2 = 3) ∨
      ((w.extractLsb' 0 4 = 2 ∨ w.extractLsb' 0 4 = 3 ∨ w.extractLsb' 0 4 = 4) ∧ w.extractLsb' 4 2 ≠ 0) ∨
      (w.extractLsb' 0 4 ≠ 1 ∧ w.getLsbD 6 = true)) →
    step s = .next { s with script := rest, answers := .written :: s.answers, latch := { cmd := w, regs := s.regs },
                            err := .illegalCommand, progress := 0, busy := false }

/-- The model's choice (log entry 23): no word decodes to INIT or SET_MODE with MODE = 3, and the spec gives the meaning of such a
term no word of its own. Here it ends as the CMD word with that field does (R82, R208, R213, R214): ILLEGAL_COMMAND before every
other check, in every lifecycle state, with nothing else changed. -/
def Obligations.ModeThreeIsIllegal : Prop :=
  ∀ (s : State) (d : Bool), s.calm →
    exec (.init 3 d) s = .next (s.rejected (encode (.init 3 d)) .illegalCommand) ∧
    exec (.setMode 3) s = .next (s.rejected (encode (.setMode 3)) .illegalCommand)

/-! ## Steps and the register window -/

/-- A host's write of a legal CMD word while BUSY = 0 and reset is released: the step is `exec` of the command decoded, on the
state with the write taken from the script and answered (R39, R87). -/
def Obligations.StepRunsDecodedCommand : Prop :=
  ∀ (s : State) (w : Word) (i : Instr) (rest : List Event), s.cfg.valid = true → s.busy = false → s.inReset = false →
    s.script = .reg (regWrite s.cfg.base 0 w) :: rest → decode w = .ok i →
    step s = exec i { s with script := rest, answers := .written :: s.answers }

/-- A CMD write while BUSY = 1 between commands (during the post-reset erase, R231) is dropped: it changes only OVR, the script's
next entry and the record of its answer (R39, R235). -/
def Obligations.CommandDuringEraseOnlySetsOvr : Prop :=
  ∀ (s : State) (w : Word) (rest : List Event), s.cfg.valid = true → s.busy = true → s.inReset = false →
    s.script = .reg (regWrite s.cfg.base 0 w) :: rest →
    step s = .next { s with script := rest, answers := .written :: s.answers, ovr := true }

/-- A CMD write during a command is lost (R218, R235). `before` is anything the other agents and the engine do first; after the
write only the engine acts, until BUSY falls. With no other agent's access before it the command runs as if the write had not come,
with OVR set. Whatever comes before it, as long as that holds no action of the engine and no reset, the command ends as it would
have without the write, but for OVR and the write's answer. And where `before` holds actions of the engine or a reset, either that
is so, or the write still stands in the script when the command is over, which it has not changed at all. -/
def Obligations.CommandDuringCommandIsLost : Prop :=
  ∀ (i : Instr) (s : State) (w : Word) (before rest : List Event), s.inReset = false →
    s.script = before ++ .reg (regWrite s.cfg.base 0 w) :: .wait :: rest →
    (before = [] → exec i s = exec i { s with script := .wait :: rest, answers := .written :: s.answers, ovr := true }) ∧
    ∀ t : State, exec i { s with script := before ++ .wait :: rest } = .next t →
      ((∀ e ∈ before, e ≠ .engine ∧ e ≠ .wait ∧ e ≠ .assertReset) →
        exec i s = .next { t with ovr := true, answers := .written :: t.answers }) ∧
      (exec i s = .next { t with ovr := true, answers := .written :: t.answers } ∨
        ∃ left : List Event, t.script = left ++ .wait :: rest ∧
          exec i s = .next { t with script := left ++ .reg (regWrite s.cfg.base 0 w) :: .wait :: rest })

/-- A write to a parameter register that falls within a running command, in any of its windows, changes that register at once and
the command not at all (R33, R236): it ends as it would have without the write. `before` is anything the other agents and the engine
do first; where it holds actions of the engine or a reset, the command can be over before the write, which then still stands in the
script. -/
def Obligations.RunningCommandUsesLatchedOperands : Prop :=
  ∀ (i : Instr) (s t : State) (off v : Word) (before rest : List Event), s.inReset = false → off.toNat ∈ paramOffsets →
    s.script = before ++ .reg (regWrite s.cfg.base off v) :: .wait :: rest →
    exec i { s with script := before ++ .wait :: rest } = .next t →
    ((∀ e ∈ before, e ≠ .engine ∧ e ≠ .wait ∧ e ≠ .assertReset) →
      exec i s = .next { t with regs := (writeReg off.toNat v t).regs, answers := .written :: t.answers }) ∧
    (exec i s = .next { t with regs := (writeReg off.toNat v t).regs, answers := .written :: t.answers } ∨
      ∃ left : List Event, t.script = left ++ .wait :: rest ∧
        exec i s = .next { t with script := left ++ .reg (regWrite s.cfg.base off v) :: .wait :: rest })

/-- A parameter register reads back what was last written to it, whatever BUSY is; the write reaches no other parameter register
and no part of the engine, LATCH included (R42 to R49, R236). -/
def Obligations.ParameterRegistersReadBack : Prop :=
  ∀ (s : State) (off : Nat) (v : Word), off ∈ paramOffsets →
    readReg off (writeReg off v s) = v ∧
    (∀ off' ∈ paramOffsets, off' ≠ off → readReg off' (writeReg off v s) = readReg off' s) ∧
    writeReg off v s = { s with regs := (writeReg off v s).regs }

/-- The STATUS word's fields with the encodings of LC, MODE and ERR (R21, R22, R201), and the one bit a write to STATUS can change
(R40). -/
def Obligations.StatusFieldsAndWriteOneToClear : Prop :=
  (∀ s : State,
    (readReg 0x04 s).getLsbD 0 = s.busy ∧ (readReg 0x04 s).getLsbD 1 = s.ovr ∧
    (readReg 0x04 s).extractLsb' 2 2 = s.lc.code ∧ (readReg 0x04 s).extractLsb' 4 2 = s.mode.code ∧
    (readReg 0x04 s).extractLsb' 6 2 = 0 ∧ (readReg 0x04 s).extractLsb' 8 4 = s.err.code ∧
    (readReg 0x04 s).extractLsb' 12 20 = 0) ∧
  (∀ (s : State) (v : Word), writeReg 0x04 v s = { s with ovr := if v.getLsbD 1 then false else s.ovr }) ∧
  (Lifecycle.uninit.code = 0 ∧ Lifecycle.ready.code = 1 ∧ Lifecycle.destroyed.code = 2) ∧
  (Mode.undefined.code = 0 ∧ Mode.autoReset.code = 1 ∧ Mode.continuous.code = 2) ∧
  (ErrCode.none.code = 0 ∧ ErrCode.tableCountRange.code = 1 ∧ ErrCode.alreadyInitialized.code = 2 ∧
    ErrCode.notInitialized.code = 3 ∧ ErrCode.disposed.code = 4 ∧ ErrCode.invalidMode.code = 5 ∧ ErrCode.invalidKey.code = 6 ∧
    ErrCode.illegalCommand.code = 7 ∧ ErrCode.lengthLimit.code = 8 ∧ ErrCode.addressRange.code = 9 ∧ ErrCode.busError.code = 10) ∧
  (Mode.ofField 0 = some .undefined ∧ Mode.ofField 1 = some .autoReset ∧ Mode.ofField 2 = some .continuous ∧
    Mode.ofField 3 = none)

/-- The reserved offsets, among them the test port's when TEST_PORT = 0, read 0 and ignore writes; so do TEST_SEL's reserved
bits (R57, R50). -/
def Obligations.ReservedOffsetsReadZeroAndIgnoreWrites : Prop :=
  (∀ (s : State) (off : Nat) (v : Word), off < 256 → off % 4 = 0 →
    (off = 0x0C ∨ (0x30 ≤ off ∧ off ≤ 0x3C) ∨ 0x5C ≤ off ∨ (0x40 ≤ off ∧ off ≤ 0x58 ∧ s.cfg.testPort = false)) →
    readReg off s = 0 ∧ writeReg off v s = s) ∧
  (∀ (s : State) (v : Word), s.cfg.testPort = true →
    readReg 0x40 (writeReg 0x40 v s) = v &&& 3 ∧ writeReg 0x40 v s = { s with testSel := v.extractLsb' 0 2 })

/-- An access to the window of another width than 32 bits, or misaligned, gets an error response and has no effect (R64). -/
def Obligations.MalformedAccessOnlyGetsAnError : Prop :=
  ∀ (s : State) (a : RegAccess) (rest : List Event), s.cfg.valid = true → s.inReset = false →
    s.script = .reg a :: rest → (a.addr - s.cfg.base).toNat < 256 →
    (a.bytes ≠ 4 ∨ (a.addr - s.cfg.base).toNat % 4 ≠ 0) →
    step s = .next { s with script := rest, answers := .error :: s.answers }

/-- A well-formed read of the window returns the register's value and has no side effect: only the record of answers, the model's
count of reads and the script's next entry change (R64). -/
def Obligations.RegisterReadHasNoSideEffect : Prop :=
  ∀ (s : State) (off : Nat) (rest : List Event), s.cfg.valid = true → s.inReset = false → off < 256 → off % 4 = 0 →
    s.script = .reg { addr := s.cfg.base + BitVec.ofNat 32 off, bytes := 4, value := none } :: rest →
    step s = .next { s with script := rest, answers := .data (readReg off s) :: s.answers, draws := s.draws + 1 }

/-- PROGRESS reads exactly while BUSY = 0 and ignores writes; while BUSY = 1 it reads a value in [0, LEN] (R41). LEN is the
register and its latched copy where they agree; where a host changes LEN during a command the model bounds the draw by the larger
(log entry 13). -/
def Obligations.ProgressReadsExactlyOrWithinLen : Prop :=
  (∀ s : State, s.busy = false → readReg 0x08 s = s.progress) ∧
  (∀ s : State, s.busy = true → s.regs.len = s.latch.regs.len → (readReg 0x08 s).toNat ≤ s.regs.len.toNat) ∧
  (∀ (s : State) (v : Word), writeReg 0x08 v s = s)

/-- The test port with TEST_PORT = 1 and BUSY = 0 (R50 to R56). -/
def Obligations.TestPortShowsTheStorages : Prop :=
  ∀ s : State, s.cfg.testPort = true → s.busy = false →
    (s.testSel = 0 → s.testIdx.toNat < s.cfg.keyMaxLen →
      readReg 0x48 s = (Memory.read s.kb s.testIdx.toNat).setWidth 32) ∧
    (s.testSel = 1 → s.testIdx.toNat < s.cfg.keyMaxLen →
      readReg 0x48 s = (Memory.read s.okb s.testIdx.toNat).setWidth 32) ∧
    (s.testSel = 2 → s.testIdx.toNat < s.cfg.maxTables * 256 →
      readReg 0x48 s = (Memory.read s.st s.testIdx.toNat).setWidth 32) ∧
    ((s.testSel = 0 ∨ s.testSel = 1) → s.cfg.keyMaxLen ≤ s.testIdx.toNat → readReg 0x48 s = 0) ∧
    (s.testSel = 2 → s.cfg.maxTables * 256 ≤ s.testIdx.toNat → readReg 0x48 s = 0) ∧
    (s.testSel = 3 → readReg 0x48 s = 0) ∧
    readReg 0x4C s = BitVec.ofInt 32 s.ki ∧ (s.ki = -1 → readReg 0x4C s = 0xFFFFFFFF#32) ∧
    readReg 0x50 s = BitVec.ofNat 32 s.si ∧ readReg 0x54 s = BitVec.ofNat 32 s.klen ∧
    readReg 0x58 s = BitVec.ofNat 32 s.tcnt ∧
    (∀ v : Word, ∀ off ∈ [0x48, 0x4C, 0x50, 0x54, 0x58], writeReg off v s = s)

/-- TEST_DATA read while BUSY = 1 is a byte: bits [31:8] are 0 (R52). -/
def Obligations.BusyTestDataIsAByte : Prop :=
  ∀ s : State, s.busy = true → (readReg 0x48 s).toNat < 256

/-- While reset is asserted the block answers no register access: the platform's bus returns an error, or the access waits,
whichever RESET_ACCESS says; nothing else happens (R230). That a waiting access joins a queue is the model's form of it (log
entry 17). -/
def Obligations.AccessDuringResetReachesNoRegister : Prop :=
  ∀ (s : State) (a : RegAccess) (rest : List Event), s.cfg.valid = true → s.inReset = true → s.script = .reg a :: rest →
    (a.addr - s.cfg.base).toNat < 256 →
    (Config.resetAccess = .error ∧ step s = .next { s with script := rest, answers := .error :: s.answers }) ∨
    (Config.resetAccess = .wait ∧ step s = .next { s with script := rest, waiting := s.waiting ++ [a] })

/-- A store to host memory that falls before a command's first access is seen by the command (R70). -/
def Obligations.StoreBeforeFirstAccessIsSeen : Prop :=
  ∀ (i : Instr) (s : State) (a : Word) (b : Byte) (rest : List Event), s.inReset = false →
    s.script = .store a b :: .wait :: rest →
    exec i s = exec i { s with script := .wait :: rest, mem := Memory.write s.mem a.toNat b }

/-! ## Reset -/

/-- Reset asserted before a command's first action stops it at once: no memory access, no report (R230, R243). That the engine
stands as it was until the release, BUSY included, is the model's reading (log entry 16). -/
def Obligations.ResetStopsCommandAtOnce : Prop :=
  ∀ (i : Instr) (s : State) (rest : List Event), s.inReset = false → s.script = .assertReset :: rest →
    exec i s = .next { s with script := rest, latch := { cmd := encode i, regs := s.regs }, err := .none, progress := 0,
                              busy := true, inReset := true }

/-- However the other agents act, a command that a reset stops reports nothing (R230). How the model shows that is its own reading,
clause by clause: that BUSY has not fallen, since the state stands as it was until the release (R34; log entry 16), and that ERR holds
no code, since ERR and BUSY take their last values in one action (R35; log entry 28). -/
def Obligations.StoppedCommandReportsNothing : Prop :=
  ∀ (i : Instr) (s t : State), s.inReset = false → exec i s = .next t → t.inReset = true → t.busy = true ∧ t.err = .none

/-- The post-reset sequence (R231), from any state with reset asserted: after the release STATUS shows BUSY = 1 and LC = 0, and
when the erase is done every piece of the block's state but LATCH has its value of R232; host memory is untouched. -/
def Obligations.ResetSequenceGivesResetValues : Prop :=
  ∀ (s : State) (rest : List Event), s.cfg.valid = true → s.inReset = true → s.script = .releaseReset :: .wait :: rest →
    ∃ u t : State, step s = .next u ∧ u.busy = true ∧ u.lc = .uninit ∧ u.mem = s.mem ∧ step u = .next t ∧
      t = { s with
        lc := .uninit, mode := .undefined, kb := [], okb := [], klen := 0, st := [], tcnt := 0, ki := 0, si := 0,
        seedbuf := [], slen := 0, gctr := 0, busy := false, err := .none, ovr := false, progress := 0,
        regs := { seedAddr := 0, seedLen := 0, keyAddr := 0, keyLen := 0,
                  tableCount := BitVec.ofNat 32 s.cfg.defaultTables, srcAddr := 0, dstAddr := 0, len := 0 },
        testSel := 0, testIdx := 0, inReset := false, script := rest, latch := t.latch } ∧
      (∀ j, Memory.read t.kb j = 0 ∧ Memory.read t.okb j = 0 ∧ Memory.read t.st j = 0 ∧ Memory.read t.seedbuf j = 0)

/-- What the registers read after reset: STATUS 0, TABLE_COUNT 64, all others 0 (R38, R46, R232). -/
def Obligations.ResetRegisterValues : Prop :=
  (∀ off ∈ [0x00, 0x04, 0x08, 0x10, 0x14, 0x18, 0x1C, 0x24, 0x28, 0x2C], readReg off State.reset = 0) ∧
  readReg 0x20 State.reset = 64

/-! ## INIT -/

/-- INIT's checks in the order of R121: the first row whose condition holds gives its error, and nothing but ERR, LATCH,
PROGRESS and BUSY changes (R214). -/
def Obligations.InitFailsWithFirstRowThatHolds : Prop :=
  ∀ (s : State) (m : BitVec 2) (d : Bool) (c : Bool) (e : ErrCode), s.calm → m ≠ 3 →
    (initRows d s).find? (fun r => r.1) = some (c, e) →
    exec (.init m d) s = .next (s.rejected (encode (.init m d)) e)

/-- A successful INIT (R122, R123): the key in both buffers, the schedule of R105 in ST, the indices at their reset point, the
mode stored as given (Undefined too, R126), no seed byte left, and everything else as it was; its reads are the seed's and then
the key's, each byte once and in ascending order (R66). -/
def Obligations.InitInstallsKeyAndSchedule : Prop :=
  ∀ (s : State) (m : BitVec 2) (d : Bool), s.calm → s.cfg.valid = true → s.lc = .uninit → s.ErasedInv → m ≠ 3 →
    s.cfg.minTables ≤ s.regs.tableCount.toNat → s.regs.tableCount.toNat ≤ s.cfg.maxTables →
    1 ≤ s.regs.keyLen.toNat → s.regs.keyLen.toNat ≤ s.cfg.keyMaxLen →
    s.regs.keyAddr.toNat + s.regs.keyLen.toNat ≤ 2 ^ 32 → readsSucceed s.regs.keyAddr.toNat s.regs.keyLen.toNat s →
    (d = false → s.regs.seedLen.toNat ≤ s.cfg.seedMaxLen ∧ s.regs.seedAddr.toNat + s.regs.seedLen.toNat ≤ 2 ^ 32 ∧
      readsSucceed s.regs.seedAddr.toNat s.regs.seedLen.toNat s) →
    ∃ t : State, exec (.init m d) s = .next t ∧
      t.mode.code = m ∧
      (∀ j, j < s.regs.keyLen.toNat →
        Memory.read t.kb j = Memory.read s.mem (s.regs.keyAddr.toNat + j) ∧
        Memory.read t.okb j = Memory.read s.mem (s.regs.keyAddr.toNat + j)) ∧
      (∀ j, s.regs.keyLen.toNat ≤ j → Memory.read t.kb j = 0 ∧ Memory.read t.okb j = 0) ∧
      (∀ j, j < s.regs.tableCount.toNat * 256 →
        Memory.read t.st j = scheduleByte s.cfg (maskedSeed s.regs.tableCount.toNat (seedOf d s)) j) ∧
      (∀ j, s.regs.tableCount.toNat * 256 ≤ j → Memory.read t.st j = 0) ∧
      (∀ a, Memory.read t.mem a = Memory.read s.mem a) ∧
      t = { s with
        lc := .ready, mode := t.mode, kb := t.kb, okb := t.okb, klen := s.regs.keyLen.toNat, st := t.st,
        tcnt := s.regs.tableCount.toNat, ki := (s.regs.keyLen.toNat : Int) - 1, si := 0, seedbuf := [], slen := 0, gctr := 0,
        latch := { cmd := encode (.init m d), regs := s.regs }, err := .none, progress := 0, busy := false,
        dma := readTrace s.regs.keyAddr.toNat s.regs.keyLen.toNat ++
          ((if d then [] else readTrace s.regs.seedAddr.toNat s.regs.seedLen.toNat) ++ s.dma) }

/-- INIT with a failing seed or key read: the state is the one before the command but for ERR = BUS_ERROR, LATCH, PROGRESS, BUSY
and the record of the reads, none of which follows the failing one (R66, R124). -/
def Obligations.InitBusErrorRestoresState : Prop :=
  ∀ (s : State) (m : BitVec 2) (d : Bool) (k : Nat) (f : DmaFault), s.calm → s.cfg.valid = true → s.lc = .uninit →
    s.ErasedInv → s.Canonical → m ≠ 3 → (initRows d s).find? (fun r => r.1) = none →
    ((d = false ∧ k < s.regs.seedLen.toNat ∧ readsSucceed s.regs.seedAddr.toNat k s ∧
        readFault (s.regs.seedAddr.toNat + k) s = some f) →
      exec (.init m d) s = .next { s.rejected (encode (.init m d)) .busError with
        dma := .read (s.regs.seedAddr.toNat + k) false :: (readTrace s.regs.seedAddr.toNat k ++ s.dma) }) ∧
    (((d = false → readsSucceed s.regs.seedAddr.toNat s.regs.seedLen.toNat s) ∧ k < s.regs.keyLen.toNat ∧
        readsSucceed s.regs.keyAddr.toNat k s ∧ readFault (s.regs.keyAddr.toNat + k) s = some f) →
      exec (.init m d) s = .next { s.rejected (encode (.init m d)) .busError with
        dma := .read (s.regs.keyAddr.toNat + k) false :: (readTrace s.regs.keyAddr.toNat k ++
          ((if d then [] else readTrace s.regs.seedAddr.toNat s.regs.seedLen.toNat) ++ s.dma)) })

/-- GenerateSchedule (R103 to R106): the seed is transformed once, the counter ends at the number of evaluations, every schedule
byte is the one R105 gives, and ST beyond the schedule is left as it was. -/
def Obligations.GeneratorFillsScheduleFromCounter : Prop :=
  ∀ (s : State) (t : Nat), s.cfg.valid = true →
    seedBytes (generateSchedule t s) = (seedBytes s).map (· ^^^ BitVec.ofNat 8 (t % 255)) ∧
    (generateSchedule t s).gctr = BitVec.ofNat 64 (t * 256 / s.cfg.hashLen) ∧
    (∀ j, j < t * 256 → Memory.read (generateSchedule t s).st j =
      (hashBytes s.cfg (seedBytes (generateSchedule t s)) (be64 (BitVec.ofNat 64 (j / s.cfg.hashLen)))).getD
        (j % s.cfg.hashLen) 0) ∧
    (∀ j, t * 256 ≤ j → Memory.read (generateSchedule t s).st j = Memory.read s.st j)

/-- Two instances given the same seed and table count install identical tables, whatever their keys or modes (R110). -/
def Obligations.SameSeedAndCountGiveSameTables : Prop :=
  ∀ (s₁ s₂ t₁ t₂ : State) (m₁ m₂ : BitVec 2) (d₁ d₂ : Bool), s₁.calm → s₂.calm → s₁.cfg.valid = true → s₂.cfg = s₁.cfg →
    s₁.ErasedInv → s₂.ErasedInv → exec (.init m₁ d₁) s₁ = .next t₁ → exec (.init m₂ d₂) s₂ = .next t₂ →
    t₁.err = .none → t₂.err = .none → s₂.regs.tableCount = s₁.regs.tableCount → seedOf d₂ s₂ = seedOf d₁ s₁ →
    ∀ j, Memory.read t₁.st j = Memory.read t₂.st j

/-- Table counts that are equal modulo 255 collide: the smaller schedule is a prefix of the larger (R111). -/
def Obligations.CountsEqualModulo255Collide : Prop :=
  ∀ (s : State) (t₁ t₂ : Nat), s.cfg.valid = true → t₁ < t₂ → t₁ % 255 = t₂ % 255 →
    seedBytes (generateSchedule t₁ s) = seedBytes (generateSchedule t₂ s) ∧
    ∀ j, j < t₁ * 256 → Memory.read (generateSchedule t₁ s).st j = Memory.read (generateSchedule t₂ s).st j

/-! ## RESET_STREAM -/

/-- RESET_STREAM in READY, in every mode (R140, R141): the live key bytes come back from OKB, KI and SI go to their start, and
everything else stays. -/
def Obligations.ResetStreamRollsKeyStateBack : Prop :=
  ∀ s : State, s.calm → s.lc = .ready →
    ∃ t : State, exec .resetStream s = .next t ∧
      (∀ j, j < s.klen → Memory.read t.kb j = Memory.read s.okb j) ∧
      (∀ j, s.klen ≤ j → Memory.read t.kb j = Memory.read s.kb j) ∧
      (∀ a, Memory.read t.mem a = Memory.read s.mem a) ∧
      t = { s with kb := t.kb, ki := (s.klen : Int) - 1, si := 0, latch := { cmd := encode .resetStream, regs := s.regs },
                   err := .none, progress := 0, busy := false }

/-- The errors of the lifecycle table (R170, R203, R204, R205): each leaves everything but ERR, LATCH, PROGRESS and BUSY. -/
def Obligations.LifecycleErrors : Prop :=
  ∀ (s : State) (m : BitVec 2) (d : Bool), s.calm → m ≠ 3 →
    (s.lc = .uninit →
      exec .resetStream s = .next (s.rejected (encode .resetStream) .notInitialized) ∧
      exec .cipher s = .next (s.rejected (encode .cipher) .notInitialized) ∧
      exec (.setMode m) s = .next (s.rejected (encode (.setMode m)) .notInitialized)) ∧
    (s.lc = .ready → exec (.init m d) s = .next (s.rejected (encode (.init m d)) .alreadyInitialized)) ∧
    (s.lc = .destroyed →
      exec (.init m d) s = .next (s.rejected (encode (.init m d)) .disposed) ∧
      exec .resetStream s = .next (s.rejected (encode .resetStream) .disposed) ∧
      exec .cipher s = .next (s.rejected (encode .cipher) .disposed) ∧
      exec (.setMode m) s = .next (s.rejected (encode (.setMode m)) .disposed))

/-! ## CIPHER -/

/-- ByteStep(k) (R142), with no other agent acting: the wrapped indices, the keystream byte, the byte written, and the commit of
KB, KI, SI and PROGRESS together; a failing access changes no engine state, the wraps included. That a failed write changes no byte
of host memory but its own is the model's choice: R76 leaves it to the platform (log entry 8, unsafe). -/
def Obligations.ByteStepFollowsItsSteps : Prop :=
  ∀ (s : State) (k : Nat) (ki : Int) (si : Nat) (ks b : Byte), s.calm → s.KeyInv →
    ki = (if s.ki = -1 then (s.klen : Int) - 1 else s.ki) → si = (if s.si = s.tcnt then 0 else s.si) →
    ks = Memory.read s.st (si * 256 + (Memory.read s.kb ki.toNat).toNat) →
    b = Memory.read s.mem (s.latch.regs.srcAddr.toNat + k) →
    (readFault (s.latch.regs.srcAddr.toNat + k) s = none → writeFault (s.latch.regs.dstAddr.toNat + k) s = none →
      byteStep k s = .done { s with
        mem := Memory.write s.mem (s.latch.regs.dstAddr.toNat + k) (b ^^^ ks),
        kb := Memory.write s.kb ki.toNat (Memory.read s.kb ki.toNat ^^^ BitVec.ofInt 8 ((ki + 11 + si) % 256)),
        ki := ki - 1, si := si + 1, progress := BitVec.ofNat 32 (k + 1),
        dma := .write (s.latch.regs.dstAddr.toNat + k) (b ^^^ ks) true :: .read (s.latch.regs.srcAddr.toNat + k) true ::
          s.dma }) ∧
    (∀ f, readFault (s.latch.regs.srcAddr.toNat + k) s = some f →
      byteStep k s = .failed .busError { s with dma := .read (s.latch.regs.srcAddr.toNat + k) false :: s.dma }) ∧
    (∀ f, readFault (s.latch.regs.srcAddr.toNat + k) s = none → writeFault (s.latch.regs.dstAddr.toNat + k) s = some f →
      ∃ t, byteStep k s = .failed .busError t ∧ t.engine = s.engine ∧
        (∀ a, a ≠ s.latch.regs.dstAddr.toNat + k → Memory.read t.mem a = Memory.read s.mem a))

/-- The pair (ki, si) of byte step n from a reset point (R147), and where KI and SI rest after n steps (R161 d, e). -/
def Obligations.IndicesWalkFromResetPoint : Prop :=
  ∀ (s : State) (n : Nat), 1 ≤ s.klen → 1 ≤ s.tcnt → s.ki = (s.klen : Int) - 1 → s.si = 0 →
    wrapKi (keyAfter n s) = (s.klen : Int) - 1 - ((n % s.klen : Nat) : Int) ∧
    wrapSi (keyAfter n s) = n % s.tcnt ∧
    ((keyAfter n s).ki = -1 ↔ n % s.klen = 0 ∧ n ≠ 0) ∧
    ((keyAfter n s).si = s.tcnt ↔ n % s.tcnt = 0 ∧ n ≠ 0)

/-- The arithmetic laws of R160: the wrapped indices of a byte step, the table lookup inside the installed schedule, the range of
`ki + 11 + si`, and where the step leaves KI and SI. -/
def Obligations.ByteStepIndicesStayInRange : Prop :=
  ∀ (s : State) (k : Nat), s.KeyInv →
    0 ≤ wrapKi s ∧ wrapKi s ≤ (s.klen : Int) - 1 ∧ wrapSi s + 1 ≤ s.tcnt ∧
    tableIndex s = wrapSi s * 256 + (Memory.read s.kb (wrapKi s).toNat).toNat ∧ tableIndex s < s.tcnt * 256 ∧
    11 ≤ wrapKi s + 11 + wrapSi s ∧ wrapKi s + 11 + wrapSi s ≤ (s.klen : Int) + s.tcnt + 9 ∧
    (keyMask s).toNat = ((wrapKi s + 11 + wrapSi s) % 256).toNat ∧
    -1 ≤ (commitStep k s).ki ∧ (commitStep k s).ki ≤ (s.klen : Int) - 1 ∧ (commitStep k s).si ≤ s.tcnt

/-- With one key byte and one table the keystream has period 2 (R161 c). -/
def Obligations.OneByteKeyAndOneTableGivePeriodTwo : Prop :=
  ∀ (s : State) (n : Nat), s.klen = 1 → s.tcnt = 1 → s.ki = 0 → s.si = 0 →
    keystreamAt n s =
      Memory.read s.st (if n % 2 = 0 then Memory.read s.kb 0 else Memory.read s.kb 0 ^^^ 0x0b).toNat

/-- CIPHER's checks in the order of R150 and R213. -/
def Obligations.CipherFailsWithFirstRowThatHolds : Prop :=
  ∀ (s : State) (c : Bool) (e : ErrCode), s.calm → (cipherRows s).find? (fun r => r.1) = some (c, e) →
    exec .cipher s = .next (s.rejected (encode .cipher) e)

/-- A successful CIPHER (R67, R68, R145, R149, R150, R153). `out k` is the byte written by byte step k: the byte at SRC_ADDR + k,
which is an earlier byte's output where the target runs into the source, XORed with keystream byte k. The key state is that after
LEN byte steps from the state R149 gives, everything else stays, and no byte outside the target range changes. -/
def Obligations.CipherEnciphersRange : Prop :=
  ∀ s : State, s.calm → s.lc = .ready → s.mode ≠ .undefined → s.KeyInv →
    s.regs.srcAddr.toNat + s.regs.len.toNat ≤ 2 ^ 32 → s.regs.dstAddr.toNat + s.regs.len.toNat ≤ 2 ^ 32 →
    readsSucceed s.regs.srcAddr.toNat s.regs.len.toNat s → writesSucceed s.regs.dstAddr.toNat s.regs.len.toNat s →
    ∃ (t : State) (out : Nat → Byte), exec .cipher s = .next t ∧
      (∀ k, k < s.regs.len.toNat →
        out k = (if s.regs.dstAddr.toNat ≤ s.regs.srcAddr.toNat + k ∧ s.regs.srcAddr.toNat < s.regs.dstAddr.toNat
                 then out (s.regs.srcAddr.toNat + k - s.regs.dstAddr.toNat)
                 else Memory.read s.mem (s.regs.srcAddr.toNat + k)) ^^^ keystreamAt k (cipherStart s)) ∧
      (∀ k, k < s.regs.len.toNat → Memory.read t.mem (s.regs.dstAddr.toNat + k) = out k) ∧
      (∀ a, (a < s.regs.dstAddr.toNat ∨ s.regs.dstAddr.toNat + s.regs.len.toNat ≤ a) →
        Memory.read t.mem a = Memory.read s.mem a) ∧
      t = { s with
        kb := (keyAfter s.regs.len.toNat (cipherStart s)).kb, ki := (keyAfter s.regs.len.toNat (cipherStart s)).ki,
        si := (keyAfter s.regs.len.toNat (cipherStart s)).si, mem := t.mem,
        latch := { cmd := encode .cipher, regs := s.regs }, err := .none, progress := s.regs.len, busy := false,
        dma := stepTrace s.regs.srcAddr.toNat s.regs.dstAddr.toNat out s.regs.len.toNat ++ s.dma }

/-- A CIPHER whose byte step k is the first with a failing access (R151): ERR = BUS_ERROR, PROGRESS = k, the bytes and key state
of the steps before k stand (after the roll-back, in AutoReset mode), step k changes no engine state, and no access follows the
failing one (R67). `out j` is the byte step j writes, or was to write, for every overlap of source and target (R68). That a failed
write changes no byte of host memory but its own, DST_ADDR + k, is the model's choice: R76 leaves it to the platform (log entry 8,
unsafe). -/
def Obligations.CipherBusErrorKeepsPrefix : Prop :=
  ∀ (s : State) (k : Nat) (f : DmaFault), s.calm → s.lc = .ready → s.mode ≠ .undefined → s.KeyInv →
    s.regs.srcAddr.toNat + s.regs.len.toNat ≤ 2 ^ 32 → s.regs.dstAddr.toNat + s.regs.len.toNat ≤ 2 ^ 32 →
    k < s.regs.len.toNat → readsSucceed s.regs.srcAddr.toNat k s → writesSucceed s.regs.dstAddr.toNat k s →
    (readFault (s.regs.srcAddr.toNat + k) s = some f ∨
      (readFault (s.regs.srcAddr.toNat + k) s = none ∧ writeFault (s.regs.dstAddr.toNat + k) s = some f)) →
    ∃ (t : State) (out : Nat → Byte), exec .cipher s = .next t ∧
      (∀ j, j ≤ k →
        out j = (if s.regs.dstAddr.toNat ≤ s.regs.srcAddr.toNat + j ∧ s.regs.srcAddr.toNat < s.regs.dstAddr.toNat
                 then out (s.regs.srcAddr.toNat + j - s.regs.dstAddr.toNat)
                 else Memory.read s.mem (s.regs.srcAddr.toNat + j)) ^^^ keystreamAt j (cipherStart s)) ∧
      (∀ j, j < k → Memory.read t.mem (s.regs.dstAddr.toNat + j) = out j) ∧
      (∀ a, (a < s.regs.dstAddr.toNat ∨ s.regs.dstAddr.toNat + k < a ∨
          (a = s.regs.dstAddr.toNat + k ∧ readFault (s.regs.srcAddr.toNat + k) s = some f)) →
        Memory.read t.mem a = Memory.read s.mem a) ∧
      t = { s with
        kb := (keyAfter k (cipherStart s)).kb, ki := (keyAfter k (cipherStart s)).ki, si := (keyAfter k (cipherStart s)).si,
        mem := t.mem, latch := { cmd := encode .cipher, regs := s.regs }, err := .busError, progress := BitVec.ofNat 32 k,
        busy := false,
        dma := (if (readFault (s.regs.srcAddr.toNat + k) s).isSome then [.read (s.regs.srcAddr.toNat + k) false]
                else [.write (s.regs.dstAddr.toNat + k) (out k) false, .read (s.regs.srcAddr.toNat + k) true]) ++
          (stepTrace s.regs.srcAddr.toNat s.regs.dstAddr.toNat out k ++ s.dma) }

/-- CIPHER with LEN = 0 makes no memory access and commits no byte; in AutoReset mode it still rolls the key state back, in
Continuous mode it changes nothing (R152). -/
def Obligations.CipherOfZeroBytes : Prop :=
  ∀ s : State, s.calm → s.lc = .ready → s.regs.len = 0 →
    (s.mode = .autoReset → exec .cipher s = .next { resetCore s with
      latch := { cmd := encode .cipher, regs := s.regs }, err := .none, progress := 0, busy := false }) ∧
    (s.mode = .continuous → exec .cipher s = .next { s with
      latch := { cmd := encode .cipher, regs := s.regs }, err := .none, progress := 0, busy := false })

/-- Two CIPHERs of the same length from the same engine state (R154): they leave the same key state, whatever the data and the
addresses, and they XOR their inputs with the same keystream, for the overlaps R154 admits. -/
def Obligations.KeystreamDependsOnNoData : Prop :=
  ∀ s₁ s₂ : State, s₁.calm → s₂.calm → s₁.lc = .ready → s₁.mode ≠ .undefined → s₁.KeyInv → s₂.cfg = s₁.cfg →
    s₂.engine = s₁.engine → s₂.regs.len = s₁.regs.len →
    readsSucceed s₁.regs.srcAddr.toNat s₁.regs.len.toNat s₁ → writesSucceed s₁.regs.dstAddr.toNat s₁.regs.len.toNat s₁ →
    readsSucceed s₂.regs.srcAddr.toNat s₂.regs.len.toNat s₂ → writesSucceed s₂.regs.dstAddr.toNat s₂.regs.len.toNat s₂ →
    s₁.regs.srcAddr.toNat + s₁.regs.len.toNat ≤ 2 ^ 32 → s₁.regs.dstAddr.toNat + s₁.regs.len.toNat ≤ 2 ^ 32 →
    s₂.regs.srcAddr.toNat + s₂.regs.len.toNat ≤ 2 ^ 32 → s₂.regs.dstAddr.toNat + s₂.regs.len.toNat ≤ 2 ^ 32 →
    (s₁.regs.dstAddr = s₁.regs.srcAddr ∨ s₁.regs.srcAddr.toNat + s₁.regs.len.toNat ≤ s₁.regs.dstAddr.toNat ∨
      s₁.regs.dstAddr.toNat + s₁.regs.len.toNat ≤ s₁.regs.srcAddr.toNat) →
    (s₂.regs.dstAddr = s₂.regs.srcAddr ∨ s₂.regs.srcAddr.toNat + s₂.regs.len.toNat ≤ s₂.regs.dstAddr.toNat ∨
      s₂.regs.dstAddr.toNat + s₂.regs.len.toNat ≤ s₂.regs.srcAddr.toNat) →
    ∃ t₁ t₂ : State, exec .cipher s₁ = .next t₁ ∧ exec .cipher s₂ = .next t₂ ∧
      t₁.kb = t₂.kb ∧ t₁.ki = t₂.ki ∧ t₁.si = t₂.si ∧
      ∀ k, k < s₁.regs.len.toNat →
        Memory.read t₁.mem (s₁.regs.dstAddr.toNat + k) ^^^ Memory.read s₁.mem (s₁.regs.srcAddr.toNat + k) =
        Memory.read t₂.mem (s₂.regs.dstAddr.toNat + k) ^^^ Memory.read s₂.mem (s₂.regs.srcAddr.toNat + k)

/-- AutoReset round trip (R155): a CIPHER of M and, in any later READY state `u` of the same installation in AutoReset mode in
which the output still stands, a CIPHER of that output gives M again, whatever has moved the key state in between. -/
def Obligations.AutoResetRoundTrip : Prop :=
  ∀ (s : State) (src dst back n : Word), s.calm → s.lc = .ready → s.mode = .autoReset → s.KeyInv →
    readsSucceed src.toNat n.toNat s → writesSucceed dst.toNat n.toNat s →
    src.toNat + n.toNat ≤ 2 ^ 32 → dst.toNat + n.toNat ≤ 2 ^ 32 → back.toNat + n.toNat ≤ 2 ^ 32 →
    (dst.toNat ≤ src.toNat ∨ src.toNat + n.toNat ≤ dst.toNat) →
    (back.toNat ≤ dst.toNat ∨ dst.toNat + n.toNat ≤ back.toNat) →
    ∃ t : State, exec .cipher (s.setCipher src dst n) = .next t ∧ t.err = .none ∧
      ∀ u : State, u.calm → u.lc = .ready → u.mode = .autoReset → readsSucceed dst.toNat n.toNat u →
        writesSucceed back.toNat n.toNat u → u.cfg = s.cfg → u.okb = s.okb →
        u.klen = s.klen → u.st = s.st → u.tcnt = s.tcnt → u.KeyInv →
        (∀ k, k < n.toNat → Memory.read u.mem (dst.toNat + k) = Memory.read t.mem (dst.toNat + k)) →
        ∃ v : State, exec .cipher (u.setCipher dst back n) = .next v ∧ v.err = .none ∧
          ∀ k, k < n.toNat → Memory.read v.mem (back.toNat + k) = Memory.read s.mem (src.toNat + k)

/-- Continuous round trip in place (R156): from a reset point, in-place CIPHERs of any list of ranges in which no access fails,
RESET_STREAM, and CIPHERs of the same ranges in the same order give every byte of host memory back. (Messages with targets of their
own: `ContinuousMessagesRoundTrip`.) -/
def Obligations.ContinuousRoundTrip : Prop :=
  ∀ (s : State) (l : List (Word × Word)), s.calm → s.lc = .ready → s.mode = .continuous → s.KeyInv → s.resetPoint →
    (∀ r ∈ l, r.1.toNat + r.2.toNat ≤ 2 ^ 32 ∧ readsSucceed r.1.toNat r.2.toNat s ∧ writesSucceed r.1.toNat r.2.toNat s) →
    ∃ t u v : State, cipherEach l s = some t ∧ exec .resetStream t = .next u ∧ cipherEach l u = some v ∧
      ∀ a, Memory.read v.mem a = Memory.read s.mem a

/-- Chunking (R157): in Continuous mode one CIPHER of a + b bytes does to host memory and to the key state what a CIPHER of the
first a bytes and a CIPHER of the other b bytes do; a or b may be 0. -/
def Obligations.ContinuousChunking : Prop :=
  ∀ (s : State) (src dst a b : Word), s.calm → s.lc = .ready → s.mode = .continuous → s.KeyInv →
    readsSucceed src.toNat (a.toNat + b.toNat) s → writesSucceed dst.toNat (a.toNat + b.toNat) s →
    src.toNat + (a.toNat + b.toNat) ≤ 2 ^ 32 → dst.toNat + (a.toNat + b.toNat) ≤ 2 ^ 32 → a.toNat + b.toNat < 2 ^ 32 →
    ∃ t u v : State, exec .cipher (s.setCipher src dst (a + b)) = .next t ∧
      exec .cipher (s.setCipher src dst a) = .next u ∧
      exec .cipher (u.setCipher (src + a) (dst + a) b) = .next v ∧
      t.err = .none ∧ u.err = .none ∧ v.err = .none ∧
      (∀ x, Memory.read v.mem x = Memory.read t.mem x) ∧ v.kb = t.kb ∧ v.ki = t.ki ∧ v.si = t.si

/-! ## SET_MODE -/

/-- SET_MODE in READY stores its operand, Undefined too, and touches nothing else (R158). -/
def Obligations.SetModeStoresItsOperand : Prop :=
  ∀ (s : State) (m : BitVec 2), s.calm → s.lc = .ready → m ≠ 3 →
    ∃ t : State, exec (.setMode m) s = .next t ∧ t.mode.code = m ∧
      (∀ a, Memory.read t.mem a = Memory.read s.mem a) ∧
      t = { s with mode := t.mode, latch := { cmd := encode (.setMode m), regs := s.regs }, err := .none, progress := 0,
                   busy := false }

/-! ## DESTROY and the lifecycle -/

/-- DESTROY from UNINIT or READY (R171, R172, R174, R178): every byte of KB, OKB, ST and SEEDBUF is 0 and the test port shows 0
everywhere, the numeric state and MODE are 0, LC is DESTROYED, and the registers, OVR and host memory stay. -/
def Obligations.DestroyErasesAllKeyMaterial : Prop :=
  ∀ s : State, s.calm → s.lc ≠ .destroyed →
    ∃ t : State, exec .destroy s = .next t ∧
      (∀ j, Memory.read t.kb j = 0 ∧ Memory.read t.okb j = 0 ∧ Memory.read t.st j = 0 ∧ Memory.read t.seedbuf j = 0) ∧
      (∀ (sel : BitVec 2) (idx : Word), readReg 0x48 { t with testSel := sel, testIdx := idx } = 0) ∧
      (∀ a, Memory.read t.mem a = Memory.read s.mem a) ∧
      t = { s with
        lc := .destroyed, mode := .undefined, kb := t.kb, okb := t.okb, klen := 0, st := t.st, tcnt := 0, ki := 0, si := 0,
        seedbuf := t.seedbuf, slen := 0, gctr := 0, latch := { cmd := encode .destroy, regs := s.regs }, err := .none,
        progress := 0, busy := false }

/-- DESTROY while LC = DESTROYED changes no state and completes with ERR = 0 (R175). -/
def Obligations.RepeatedDestroyIsANoOp : Prop :=
  ∀ s : State, s.calm → s.lc = .destroyed → exec .destroy s = .next (s.rejected (encode .destroy) .none)

/-- No step leaves DESTROYED but the release of an asserted reset (R170, R177). -/
def Obligations.OnlyResetLeavesDestroyed : Prop :=
  ∀ s t : State, s.lc = .destroyed → step s = .next t → t.lc ≠ .destroyed →
    s.inReset = true ∧ ∃ rest, s.script = .releaseReset :: rest

/-- However the other agents act, RESET_STREAM, CIPHER and SET_MODE write neither ST nor OKB, nor the lengths of the key and the
schedule, nor LC (R24, R112). -/
def Obligations.ScheduleAndOriginalKeyStay : Prop :=
  ∀ (i : Instr) (s t : State), (i = .resetStream ∨ i = .cipher ∨ ∃ m, i = .setMode m) → s.inReset = false →
    exec i s = .next t → t.st = s.st ∧ t.okb = s.okb ∧ t.klen = s.klen ∧ t.tcnt = s.tcnt ∧ t.lc = s.lc

/-! ## Every command, every step -/

/-- A completed command leaves the parameter registers, the test-port selectors, OVR and the platform's part alone, and BUSY
falls (R34, R36, R59). -/
def Obligations.CommandsLeaveHostRegistersAlone : Prop :=
  ∀ (i : Instr) (s t : State), s.calm → exec i s = .next t →
    t.regs = s.regs ∧ t.testSel = s.testSel ∧ t.testIdx = s.testIdx ∧ t.ovr = s.ovr ∧ t.busy = false ∧
    t.faults = s.faults ∧ t.script = s.script ∧ t.waiting = s.waiting ∧ t.answers = s.answers ∧ t.inReset = false

/-- Only CIPHER writes host memory, and RESET_STREAM, SET_MODE and DESTROY make no access to it at all (R61). -/
def Obligations.OnlyCipherWritesHostMemory : Prop :=
  ∀ (i : Instr) (s t : State), s.calm → i ≠ .cipher → exec i s = .next t →
    (∀ a, Memory.read t.mem a = Memory.read s.mem a) ∧
    ((i = .resetStream ∨ i = .destroy ∨ ∃ m, i = .setMode m) → t.dma = s.dma)

/-- A configuration that breaks any of the six constraints of R8 is refused by every step; the one of State.reset, R7's defaults
with the model's choices for BASE and the length of DEFAULT_SEED (log entries 5, 6), breaks none. -/
def Obligations.BadConfigurationIsRefused : Prop :=
  Config.defaults.valid = true ∧
  ∀ s : State,
    (¬(1 ≤ s.cfg.minTables ∧ s.cfg.minTables ≤ s.cfg.defaultTables ∧ s.cfg.defaultTables ≤ s.cfg.maxTables) ∨
      ¬(s.cfg.maxTables * 256 ≤ 2 ^ 32) ∨ s.cfg.hashLen ∉ [32, 64, 128, 256] ∨
      ¬(1 ≤ s.cfg.keyMaxLen ∧ s.cfg.keyMaxLen ≤ 2 ^ 31 - 1) ∨ ¬(s.cfg.seedMaxLen ≤ 2 ^ 32 - 1) ∨
      ¬((defaultSeed s.cfg).length ≤ s.cfg.seedMaxLen)) →
    step s = .refused .badConfiguration

/-- The model's choice (log entry 4): the parameters of R7 that stand in State's `cfg` are fixed, no step changes them. (FAULTS,
also a parameter of R7, is State's `faults`, which the platform may change.) -/
def Obligations.StepKeepsConfiguration : Prop :=
  ∀ s t : State, step s = .next t → t.cfg = s.cfg

/-- The invariant of Safety.lean: legal parameters, canonical storages, and between commands the engine as R30 and R31 say. Every
step from a state that meets it, whatever the other agents do, leads to one that meets it. -/
def Obligations.StepKeepsInvariant : Prop :=
  ∀ s t : State, s.Inv → step s = .next t → t.Inv

/-- The state after reset meets the invariant. -/
def Obligations.ResetStateMeetsInvariant : Prop := State.reset.Inv

/-- From a state that meets the invariant every step goes on: no fault, no refusal, whatever the other agents do; in particular
no table lookup leaves the installed schedule (R160, R241). -/
def Obligations.EveryStepFromInvariantGoesOn : Prop :=
  ∀ s : State, s.Inv → ∃ t : State, step s = .next t

/-! ## The test selectors, and the erase after reset action by action -/

/-- With TEST_PORT = 1, TEST_SEL reads back the two low bits written and TEST_IDX the whole word, whatever BUSY is; neither write
changes anything else (R50, R51). -/
def Obligations.TestSelectorsReadBack : Prop :=
  ∀ (s : State) (v : Word), s.cfg.testPort = true →
    readReg 0x40 (writeReg 0x40 v s) = v &&& 3 ∧ writeReg 0x40 v s = { s with testSel := v.extractLsb' 0 2 } ∧
    readReg 0x44 (writeReg 0x44 v s) = v ∧ writeReg 0x44 v s = { s with testIdx := v }

/-- The engine's two actions of the post-reset sequence, one after another (R231, R179): while anything is left to erase its next
action is the erase, with BUSY still 1, so that a host then reads STATUS with BUSY = 1, LC = 0 and MODE = 0; once nothing is left it
is the fall of BUSY. That other agents' accesses can fall between the two and not within the erase is the model's reading (log
entries 15, 24). -/
def Obligations.EraseComesBeforeBusyFalls : Prop :=
  ∀ (s : State) (rest : List Event), s.cfg.valid = true → s.inReset = false → s.busy = true → s.script = .engine :: rest →
    (eraseAll s ≠ s → step s = .next { eraseAll s with script := rest }) ∧
    (eraseAll s = s → step s = .next { s with script := rest, busy := false }) ∧
    (eraseAll s).mode = .undefined ∧ (eraseAll s).busy = true ∧ eraseAll (eraseAll s) = eraseAll s ∧
    (s.lc = .uninit → s.err = .none → readReg 0x04 (eraseAll s) = if s.ovr then 3 else 1)

/-! ## Register writes of a step, and messages with targets of their own -/

/-- A well-formed write of the window that is no accepted CMD word, whatever BUSY is otherwise: the step does to the state exactly
what the register's own write rule does (`writeReg`: R39 for CMD while BUSY = 1, R40 for STATUS, R42 to R49 for the parameters, R50
and R51 for the test selectors, R41, R52 to R57 for what ignores writes), takes the write from the script and answers it. -/
def Obligations.RegisterWriteReachesItsRegister : Prop :=
  ∀ (s : State) (off v : Word) (rest : List Event), s.cfg.valid = true → s.inReset = false →
    off.toNat < 256 → off.toNat % 4 = 0 → (off ≠ 0 ∨ s.busy = true) →
    s.script = .reg (regWrite s.cfg.base off v) :: rest →
    step s = .next { writeReg off.toNat v s with script := rest, answers := .written :: s.answers }

/-- Continuous round trip (R156): from a reset point, CIPHERs of the messages M1, …, Mn give C1, …, Cn; then RESET_STREAM; then
CIPHERs of C1, …, Cn, wherever they stand by then, give M1, …, Mn. Each CIPHER has a source and a target of its own, which may
overlap as R68 admits for the plain result and in which no access fails; hosts may do anything to host memory between two commands
(`CipherJob.mem`). -/
def Obligations.ContinuousMessagesRoundTrip : Prop :=
  ∀ (s : State) (l back : List CipherJob), s.calm → s.lc = .ready → s.mode = .continuous → s.KeyInv → s.resetPoint →
    (∀ j ∈ l, j.Fits s) → (∀ j ∈ back, j.Fits s) →
    ∃ (outs : List (List Byte)) (t u : State), cipherJobs l s = some (outs, t) ∧ exec .resetStream t = .next u ∧
      (back.map CipherJob.input = outs → ∃ v : State, cipherJobs back u = some (l.map CipherJob.input, v))
end

