-- ==== Sys2Proof/Laws/Memory.lean ====
section
/-! SUPPORT. Laws of byte storage: read after write, the canonical form, and the loops over it. -/

namespace Sys2Proof.Machine

@[simp] theorem Memory.read_nil (a : Nat) : Memory.read [] a = 0 := rfl

@[simp] theorem Memory.read_zeros (a : Nat) : Memory.read Memory.zeros a = 0 := rfl

theorem Memory.read_cons (k : Nat) (v : Byte) (m : Memory) (a : Nat) :
    Memory.read ((k, v) :: m) a = if k = a then v else Memory.read m a := rfl

theorem Memory.read_insert (m : Memory) (a c : Nat) (b : Byte) :
    Memory.read (Memory.insert m a b) c = if a = c then b else Memory.read m c := by
  induction m with
  | nil => rfl
  | cons e m ih =>
    obtain ⟨k, v⟩ := e
    simp only [Memory.insert]
    split
    · rfl
    · split
      · subst_vars
        simp only [Memory.read_cons]
        split <;> simp_all
      · simp only [Memory.read_cons, ih]
        split
        · split
          · omega
          · rfl
        · rfl

theorem Memory.read_erase (m : Memory) (a c : Nat) :
    Memory.read (Memory.erase m a) c = if a = c then 0 else Memory.read m c := by
  induction m with
  | nil => simp [Memory.erase]
  | cons e m ih =>
    obtain ⟨k, v⟩ := e
    simp only [Memory.erase] at ih ⊢
    by_cases h : k = a
    · subst h
      simp only [List.filter_cons, bne_self_eq_false, Bool.false_eq_true, if_false, ih, Memory.read_cons]
      split <;> rfl
    · have hb : (k != a) = true := by simpa using h
      simp only [List.filter_cons, hb, if_true, Memory.read_cons, ih]
      split
      · split
        · omega
        · rfl
      · rfl

/-- A read after a write. -/
theorem Memory.read_write (m : Memory) (a c : Nat) (b : Byte) :
    Memory.read (Memory.write m a b) c = if a = c then b else Memory.read m c := by
  unfold Memory.write
  split
  · rename_i h
    rw [Memory.read_erase, h]; rfl
  · exact Memory.read_insert m a c b

@[simp] theorem Memory.read_write_same (m : Memory) (a : Nat) (b : Byte) :
    Memory.read (Memory.write m a b) a = b := by simp [Memory.read_write]

theorem Memory.read_write_other (m : Memory) {a c : Nat} (b : Byte) (h : a ≠ c) :
    Memory.read (Memory.write m a b) c = Memory.read m c := by simp [Memory.read_write, h]

/-! ## The canonical form -/

/-- The canonical form as a statement about the list: strictly rising indices, no entry that reads as unlisted. -/
theorem Memory.wf_iff (m : Memory) :
    Memory.wf m = true ↔ m.Pairwise (fun x y => x.1 < y.1) ∧ ∀ c ∈ m, c.2 ≠ Memory.unlisted := by
  induction m with
  | nil => simp [Memory.wf]
  | cons e m ih =>
    obtain ⟨k, v⟩ := e
    cases m with
    | nil => simp [Memory.wf]
    | cons e' m =>
      obtain ⟨k', v'⟩ := e'
      simp only [Memory.wf, Bool.and_eq_true, ih, bne_iff_ne, decide_eq_true_eq]
      constructor
      · rintro ⟨⟨hv, hk⟩, hp, hz⟩
        refine ⟨List.pairwise_cons.2 ⟨?_, hp⟩, ?_⟩
        · intro c hc
          rcases List.mem_cons.1 hc with rfl | hc
          · exact hk
          · exact Nat.lt_trans hk ((List.pairwise_cons.1 hp).1 c hc)
        · intro c hc
          rcases List.mem_cons.1 hc with rfl | hc
          · exact hv
          · exact hz c hc
      · rintro ⟨hp, hz⟩
        have hp' := List.pairwise_cons.1 hp
        exact ⟨⟨hz (k, v) (by simp), hp'.1 (k', v') (by simp)⟩, hp'.2,
          fun c hc => hz c (List.mem_cons_of_mem _ hc)⟩

theorem Memory.mem_insert {m : Memory} {a : Nat} {b : Byte} {c : Host.Cell} (h : c ∈ Memory.insert m a b) :
    c = (a, b) ∨ c ∈ m := by
  induction m with
  | nil => simpa [Memory.insert] using h
  | cons e m ih =>
    obtain ⟨k, v⟩ := e
    simp only [Memory.insert] at h
    split at h
    · simpa using h
    · split at h
      · rcases List.mem_cons.1 h with h | h
        · exact .inl h
        · exact .inr (List.mem_cons_of_mem _ h)
      · rcases List.mem_cons.1 h with h | h
        · exact .inr (h ▸ List.mem_cons_self)
        · rcases ih h with h | h
          · exact .inl h
          · exact .inr (List.mem_cons_of_mem _ h)

theorem Memory.wf_insert {m : Memory} (a : Nat) {b : Byte} (hb : b ≠ Memory.unlisted) (h : Memory.wf m = true) :
    Memory.wf (Memory.insert m a b) = true := by
  rw [Memory.wf_iff] at h ⊢
  obtain ⟨hp, hz⟩ := h
  refine ⟨?_, ?_⟩
  · induction m with
    | nil => simp [Memory.insert]
    | cons e m ih =>
      obtain ⟨k, v⟩ := e
      have hp' := List.pairwise_cons.1 hp
      simp only [Memory.insert]
      split
      · rename_i hlt
        refine List.pairwise_cons.2 ⟨?_, hp⟩
        intro c hc
        rcases List.mem_cons.1 hc with rfl | hc
        · exact hlt
        · exact Nat.lt_trans hlt (hp'.1 c hc)
      · split
        · subst_vars
          exact List.pairwise_cons.2 ⟨hp'.1, hp'.2⟩
        · refine List.pairwise_cons.2 ⟨?_, ih hp'.2 (fun c hc => hz c (List.mem_cons_of_mem _ hc))⟩
          intro c hc
          rcases Memory.mem_insert hc with rfl | hc
          · show k < a; omega
          · exact hp'.1 c hc
  · intro c hc
    rcases Memory.mem_insert hc with rfl | hc
    · exact hb
    · exact hz c hc

theorem Memory.wf_erase {m : Memory} (a : Nat) (h : Memory.wf m = true) : Memory.wf (Memory.erase m a) = true := by
  rw [Memory.wf_iff] at h ⊢
  exact ⟨h.1.filter _, fun c hc => h.2 c (List.mem_filter.1 hc).1⟩

/-- A write keeps the canonical form. -/
theorem Memory.wf_write {m : Memory} (a : Nat) (b : Byte) (h : Memory.wf m = true) :
    Memory.wf (Memory.write m a b) = true := by
  unfold Memory.write
  split
  · exact Memory.wf_erase a h
  · exact Memory.wf_insert a ‹_› h

@[simp] theorem Memory.wf_zeros : Memory.wf Memory.zeros = true := rfl

theorem Memory.wf_writeBytes {m : Memory} (a : Nat) (bs : List Byte) (h : Memory.wf m = true) :
    Memory.wf (Memory.writeBytes m a bs) = true := by
  induction bs generalizing m a with
  | nil => exact h
  | cons b bs ih => exact ih _ (Memory.wf_write a b h)

theorem Memory.wf_copyFirst (n : Nat) {dst : Memory} (src : Memory) (h : Memory.wf dst = true) :
    Memory.wf (Memory.copyFirst n dst src) = true := by
  induction n with
  | zero => exact h
  | succ n ih => exact Memory.wf_write _ _ ih

theorem Memory.wf_zeroFirst (n : Nat) {m : Memory} (h : Memory.wf m = true) :
    Memory.wf (Memory.zeroFirst n m) = true := by
  induction n with
  | zero => exact h
  | succ n ih => exact Memory.wf_write _ _ ih

theorem Memory.wf_failedWrite (f : DmaFault) (a : Nat) {m : Memory} (h : Memory.wf m = true) :
    Memory.wf (failedWrite f a m) = true := by
  unfold failedWrite
  split
  · exact h
  · exact Memory.wf_write _ _ h

/-- An index listed in a canonical storage does not read as unlisted. -/
theorem Memory.read_mem {m : Memory} (h : Memory.wf m = true) {k : Nat} {v : Byte} (hc : (k, v) ∈ m) :
    Memory.read m k = v := by
  rw [Memory.wf_iff] at h
  obtain ⟨hp, -⟩ := h
  induction m with
  | nil => cases hc
  | cons e m ih =>
    obtain ⟨k', v'⟩ := e
    have hp' := List.pairwise_cons.1 hp
    rw [Memory.read_cons]
    rcases List.mem_cons.1 hc with hc | hc
    · cases hc; simp
    · have := hp'.1 _ hc
      rw [if_neg (by simp at this; omega)]
      exact ih hc hp'.2

/-- Below its first entry a canonical storage reads as unlisted. -/
theorem Memory.read_of_lt {m : Memory} {a : Nat} (h : ∀ c ∈ m, a < c.1) : Memory.read m a = 0 := by
  induction m with
  | nil => rfl
  | cons e m ih =>
    obtain ⟨k, v⟩ := e
    have := h (k, v) (by simp)
    rw [Memory.read_cons, if_neg (by simp at this; omega)]
    exact ih (fun c hc => h c (List.mem_cons_of_mem _ hc))

/-- Canonical storages that read the same everywhere are the same list. -/
theorem Memory.ext_of_wf {m m' : Memory} (h : Memory.wf m = true) (h' : Memory.wf m' = true)
    (he : ∀ a, Memory.read m a = Memory.read m' a) : m = m' := by
  induction m generalizing m' with
  | nil =>
    cases m' with
    | nil => rfl
    | cons e' m' =>
      obtain ⟨k', v'⟩ := e'
      have := he k'
      rw [Memory.read_mem h' (List.mem_cons_self)] at this
      exact absurd this.symm (((Memory.wf_iff _).1 h').2 _ (List.mem_cons_self))
  | cons e m ih =>
    obtain ⟨k, v⟩ := e
    have hw := (Memory.wf_iff _).1 h
    have hp := List.pairwise_cons.1 hw.1
    cases m' with
    | nil =>
      have := he k
      rw [Memory.read_mem h (List.mem_cons_self)] at this
      exact absurd this (hw.2 _ (List.mem_cons_self))
    | cons e' m' =>
      obtain ⟨k', v'⟩ := e'
      have hw' := (Memory.wf_iff _).1 h'
      have hp' := List.pairwise_cons.1 hw'.1
      have hk : k = k' := by
        rcases Nat.lt_trichotomy k k' with hlt | heq | hlt
        · have h1 := he k
          rw [Memory.read_mem h (List.mem_cons_self), Memory.read_of_lt (m := (k', v') :: m')] at h1
          · exact absurd h1 (hw.2 _ (List.mem_cons_self))
          · intro c hc
            rcases List.mem_cons.1 hc with rfl | hc
            · exact hlt
            · exact Nat.lt_trans hlt (hp'.1 c hc)
        · exact heq
        · have h1 := he k'
          rw [Memory.read_mem h' (List.mem_cons_self), Memory.read_of_lt (m := (k, v) :: m)] at h1
          · exact absurd h1.symm (hw'.2 _ (List.mem_cons_self))
          · intro c hc
            rcases List.mem_cons.1 hc with rfl | hc
            · exact hlt
            · exact Nat.lt_trans hlt (hp.1 c hc)
      subst hk
      have hv : v = v' := by
        have := he k
        rwa [Memory.read_mem h (List.mem_cons_self), Memory.read_mem h' (List.mem_cons_self)] at this
      subst hv
      congr 1
      refine ih ((Memory.wf_iff _).2 ⟨hp.2, fun c hc => hw.2 c (List.mem_cons_of_mem _ hc)⟩)
        ((Memory.wf_iff _).2 ⟨hp'.2, fun c hc => hw'.2 c (List.mem_cons_of_mem _ hc)⟩) (fun a => ?_)
      by_cases ha : k = a
      · subst ha
        rw [Memory.read_of_lt hp.1, Memory.read_of_lt hp'.1]
      · have := he a
        rwa [Memory.read_cons, Memory.read_cons, if_neg ha, if_neg ha] at this

/-! ## Loops -/

theorem Memory.read_writeBytes (m : Memory) (a : Nat) (bs : List Byte) (c : Nat) :
    Memory.read (Memory.writeBytes m a bs) c =
      if a ≤ c ∧ c < a + bs.length then bs.getD (c - a) 0 else Memory.read m c := by
  induction bs generalizing m a with
  | nil => simp [Memory.writeBytes]
  | cons b bs ih =>
    simp only [Memory.writeBytes, ih, List.length_cons, Memory.read_write]
    by_cases h : a = c
    · subst h; simp
    · by_cases h2 : a + 1 ≤ c ∧ c < a + 1 + bs.length
      · rw [if_pos h2, if_pos (by omega)]
        obtain ⟨d, rfl⟩ : ∃ d, c = a + 1 + d := ⟨c - (a + 1), by omega⟩
        simp [show a + 1 + d - a = d + 1 by omega]
      · rw [if_neg h2, if_neg h, if_neg (by omega)]

@[simp] theorem Memory.length_bytes (m : Memory) (a n : Nat) : (Memory.bytes m a n).length = n := by
  simp [Memory.bytes]

theorem Memory.getD_bytes (m : Memory) (a n j : Nat) (h : j < n) :
    (Memory.bytes m a n).getD j 0 = Memory.read m (a + j) := by
  simp [Memory.bytes, List.getD_eq_getElem?_getD, h]

theorem Memory.bytes_succ (m : Memory) (a n : Nat) :
    Memory.bytes m a (n + 1) = Memory.read m a :: Memory.bytes m (a + 1) n := by
  simp only [Memory.bytes, List.range_succ_eq_map, List.map_cons, List.map_map, Nat.add_zero]
  refine congrArg _ (List.map_congr_left (fun j _ => ?_))
  simp only [Function.comp_apply, Nat.succ_eq_add_one]
  rw [Nat.add_assoc, Nat.add_comm 1 j]

theorem Memory.bytes_congr {m m' : Memory} {a n : Nat}
    (h : ∀ j, j < n → Memory.read m (a + j) = Memory.read m' (a + j)) : Memory.bytes m a n = Memory.bytes m' a n := by
  simp only [Memory.bytes]
  exact List.map_congr_left (fun j hj => h j (List.mem_range.1 hj))

theorem Memory.read_copyFirst (n : Nat) (dst src : Memory) (c : Nat) :
    Memory.read (Memory.copyFirst n dst src) c = if c < n then Memory.read src c else Memory.read dst c := by
  induction n with
  | zero => simp [Memory.copyFirst]
  | succ n ih =>
    simp only [Memory.copyFirst, Memory.read_write, ih]
    split
    · subst_vars; simp
    · split <;> split <;> first | rfl | omega

theorem Memory.read_zeroFirst (n : Nat) (m : Memory) (c : Nat) :
    Memory.read (Memory.zeroFirst n m) c = if c < n then 0 else Memory.read m c := by
  induction n with
  | zero => simp [Memory.zeroFirst]
  | succ n ih =>
    simp only [Memory.zeroFirst, Memory.read_write, ih]
    split
    · subst_vars; simp
    · split <;> split <;> first | rfl | omega

/-- A storage that lists no index from `n` on reads 0 there. -/
theorem Memory.read_of_below {n : Nat} : ∀ {m : Memory}, Memory.below n m = true → ∀ j, n ≤ j → Memory.read m j = 0 := by
  intro m
  induction m with
  | nil => intro _ _ _; rfl
  | cons c m ih =>
    intro h j hj
    obtain ⟨k, v⟩ := c
    simp only [Memory.below, List.all_cons, Bool.and_eq_true, decide_eq_true_eq] at h
    rw [Memory.read_cons, if_neg (by omega)]
    exact ih h.2 j hj

end Sys2Proof.Machine
end

