-- ==== Sys2Proof/Laws/State.lean ====
section
/-! SUPPORT. One lemma per field and named update of State, each true by rfl, so that no later proof unfolds an update. -/

namespace Sys2Proof.Machine

/-! ## accept -/

@[simp] theorem accept_cfg (w : Word) (s : State) : (accept w s).cfg = s.cfg := rfl
@[simp] theorem accept_lc (w : Word) (s : State) : (accept w s).lc = s.lc := rfl
@[simp] theorem accept_mode (w : Word) (s : State) : (accept w s).mode = s.mode := rfl
@[simp] theorem accept_kb (w : Word) (s : State) : (accept w s).kb = s.kb := rfl
@[simp] theorem accept_okb (w : Word) (s : State) : (accept w s).okb = s.okb := rfl
@[simp] theorem accept_klen (w : Word) (s : State) : (accept w s).klen = s.klen := rfl
@[simp] theorem accept_st (w : Word) (s : State) : (accept w s).st = s.st := rfl
@[simp] theorem accept_tcnt (w : Word) (s : State) : (accept w s).tcnt = s.tcnt := rfl
@[simp] theorem accept_ki (w : Word) (s : State) : (accept w s).ki = s.ki := rfl
@[simp] theorem accept_si (w : Word) (s : State) : (accept w s).si = s.si := rfl
@[simp] theorem accept_seedbuf (w : Word) (s : State) : (accept w s).seedbuf = s.seedbuf := rfl
@[simp] theorem accept_slen (w : Word) (s : State) : (accept w s).slen = s.slen := rfl
@[simp] theorem accept_gctr (w : Word) (s : State) : (accept w s).gctr = s.gctr := rfl
@[simp] theorem accept_busy (w : Word) (s : State) : (accept w s).busy = true := rfl
@[simp] theorem accept_err (w : Word) (s : State) : (accept w s).err = .none := rfl
@[simp] theorem accept_ovr (w : Word) (s : State) : (accept w s).ovr = s.ovr := rfl
@[simp] theorem accept_progress (w : Word) (s : State) : (accept w s).progress = 0 := rfl
@[simp] theorem accept_latch (w : Word) (s : State) : (accept w s).latch = { cmd := w, regs := s.regs } := rfl
@[simp] theorem accept_regs (w : Word) (s : State) : (accept w s).regs = s.regs := rfl
@[simp] theorem accept_testSel (w : Word) (s : State) : (accept w s).testSel = s.testSel := rfl
@[simp] theorem accept_testIdx (w : Word) (s : State) : (accept w s).testIdx = s.testIdx := rfl
@[simp] theorem accept_inReset (w : Word) (s : State) : (accept w s).inReset = s.inReset := rfl
@[simp] theorem accept_mem (w : Word) (s : State) : (accept w s).mem = s.mem := rfl
@[simp] theorem accept_faults (w : Word) (s : State) : (accept w s).faults = s.faults := rfl
@[simp] theorem accept_script (w : Word) (s : State) : (accept w s).script = s.script := rfl
@[simp] theorem accept_waiting (w : Word) (s : State) : (accept w s).waiting = s.waiting := rfl
@[simp] theorem accept_answers (w : Word) (s : State) : (accept w s).answers = s.answers := rfl
@[simp] theorem accept_dma (w : Word) (s : State) : (accept w s).dma = s.dma := rfl
@[simp] theorem accept_draws (w : Word) (s : State) : (accept w s).draws = s.draws := rfl

/-! ## complete -/

@[simp] theorem complete_cfg (e : ErrCode) (s : State) : (complete e s).cfg = s.cfg := rfl
@[simp] theorem complete_lc (e : ErrCode) (s : State) : (complete e s).lc = s.lc := rfl
@[simp] theorem complete_mode (e : ErrCode) (s : State) : (complete e s).mode = s.mode := rfl
@[simp] theorem complete_kb (e : ErrCode) (s : State) : (complete e s).kb = s.kb := rfl
@[simp] theorem complete_okb (e : ErrCode) (s : State) : (complete e s).okb = s.okb := rfl
@[simp] theorem complete_klen (e : ErrCode) (s : State) : (complete e s).klen = s.klen := rfl
@[simp] theorem complete_st (e : ErrCode) (s : State) : (complete e s).st = s.st := rfl
@[simp] theorem complete_tcnt (e : ErrCode) (s : State) : (complete e s).tcnt = s.tcnt := rfl
@[simp] theorem complete_ki (e : ErrCode) (s : State) : (complete e s).ki = s.ki := rfl
@[simp] theorem complete_si (e : ErrCode) (s : State) : (complete e s).si = s.si := rfl
@[simp] theorem complete_seedbuf (e : ErrCode) (s : State) : (complete e s).seedbuf = s.seedbuf := rfl
@[simp] theorem complete_slen (e : ErrCode) (s : State) : (complete e s).slen = s.slen := rfl
@[simp] theorem complete_gctr (e : ErrCode) (s : State) : (complete e s).gctr = s.gctr := rfl
@[simp] theorem complete_busy (e : ErrCode) (s : State) : (complete e s).busy = false := rfl
@[simp] theorem complete_err (e : ErrCode) (s : State) : (complete e s).err = e := rfl
@[simp] theorem complete_ovr (e : ErrCode) (s : State) : (complete e s).ovr = s.ovr := rfl
@[simp] theorem complete_progress (e : ErrCode) (s : State) : (complete e s).progress = s.progress := rfl
@[simp] theorem complete_latch (e : ErrCode) (s : State) : (complete e s).latch = s.latch := rfl
@[simp] theorem complete_regs (e : ErrCode) (s : State) : (complete e s).regs = s.regs := rfl
@[simp] theorem complete_testSel (e : ErrCode) (s : State) : (complete e s).testSel = s.testSel := rfl
@[simp] theorem complete_testIdx (e : ErrCode) (s : State) : (complete e s).testIdx = s.testIdx := rfl
@[simp] theorem complete_inReset (e : ErrCode) (s : State) : (complete e s).inReset = s.inReset := rfl
@[simp] theorem complete_mem (e : ErrCode) (s : State) : (complete e s).mem = s.mem := rfl
@[simp] theorem complete_faults (e : ErrCode) (s : State) : (complete e s).faults = s.faults := rfl
@[simp] theorem complete_script (e : ErrCode) (s : State) : (complete e s).script = s.script := rfl
@[simp] theorem complete_waiting (e : ErrCode) (s : State) : (complete e s).waiting = s.waiting := rfl
@[simp] theorem complete_answers (e : ErrCode) (s : State) : (complete e s).answers = s.answers := rfl
@[simp] theorem complete_dma (e : ErrCode) (s : State) : (complete e s).dma = s.dma := rfl
@[simp] theorem complete_draws (e : ErrCode) (s : State) : (complete e s).draws = s.draws := rfl

/-! ## assertReset -/

@[simp] theorem assertReset_cfg (s : State) : (assertReset s).cfg = s.cfg := rfl
@[simp] theorem assertReset_lc (s : State) : (assertReset s).lc = s.lc := rfl
@[simp] theorem assertReset_mode (s : State) : (assertReset s).mode = s.mode := rfl
@[simp] theorem assertReset_kb (s : State) : (assertReset s).kb = s.kb := rfl
@[simp] theorem assertReset_okb (s : State) : (assertReset s).okb = s.okb := rfl
@[simp] theorem assertReset_klen (s : State) : (assertReset s).klen = s.klen := rfl
@[simp] theorem assertReset_st (s : State) : (assertReset s).st = s.st := rfl
@[simp] theorem assertReset_tcnt (s : State) : (assertReset s).tcnt = s.tcnt := rfl
@[simp] theorem assertReset_ki (s : State) : (assertReset s).ki = s.ki := rfl
@[simp] theorem assertReset_si (s : State) : (assertReset s).si = s.si := rfl
@[simp] theorem assertReset_seedbuf (s : State) : (assertReset s).seedbuf = s.seedbuf := rfl
@[simp] theorem assertReset_slen (s : State) : (assertReset s).slen = s.slen := rfl
@[simp] theorem assertReset_gctr (s : State) : (assertReset s).gctr = s.gctr := rfl
@[simp] theorem assertReset_busy (s : State) : (assertReset s).busy = s.busy := rfl
@[simp] theorem assertReset_err (s : State) : (assertReset s).err = s.err := rfl
@[simp] theorem assertReset_ovr (s : State) : (assertReset s).ovr = s.ovr := rfl
@[simp] theorem assertReset_progress (s : State) : (assertReset s).progress = s.progress := rfl
@[simp] theorem assertReset_latch (s : State) : (assertReset s).latch = s.latch := rfl
@[simp] theorem assertReset_regs (s : State) : (assertReset s).regs = s.regs := rfl
@[simp] theorem assertReset_testSel (s : State) : (assertReset s).testSel = s.testSel := rfl
@[simp] theorem assertReset_testIdx (s : State) : (assertReset s).testIdx = s.testIdx := rfl
@[simp] theorem assertReset_inReset (s : State) : (assertReset s).inReset = true := rfl
@[simp] theorem assertReset_mem (s : State) : (assertReset s).mem = s.mem := rfl
@[simp] theorem assertReset_faults (s : State) : (assertReset s).faults = s.faults := rfl
@[simp] theorem assertReset_script (s : State) : (assertReset s).script = s.script := rfl
@[simp] theorem assertReset_waiting (s : State) : (assertReset s).waiting = s.waiting := rfl
@[simp] theorem assertReset_answers (s : State) : (assertReset s).answers = s.answers := rfl
@[simp] theorem assertReset_dma (s : State) : (assertReset s).dma = s.dma := rfl
@[simp] theorem assertReset_draws (s : State) : (assertReset s).draws = s.draws := rfl

/-! ## answer -/

@[simp] theorem answer_cfg (r : Answer) (s : State) : (answer r s).cfg = s.cfg := rfl
@[simp] theorem answer_lc (r : Answer) (s : State) : (answer r s).lc = s.lc := rfl
@[simp] theorem answer_mode (r : Answer) (s : State) : (answer r s).mode = s.mode := rfl
@[simp] theorem answer_kb (r : Answer) (s : State) : (answer r s).kb = s.kb := rfl
@[simp] theorem answer_okb (r : Answer) (s : State) : (answer r s).okb = s.okb := rfl
@[simp] theorem answer_klen (r : Answer) (s : State) : (answer r s).klen = s.klen := rfl
@[simp] theorem answer_st (r : Answer) (s : State) : (answer r s).st = s.st := rfl
@[simp] theorem answer_tcnt (r : Answer) (s : State) : (answer r s).tcnt = s.tcnt := rfl
@[simp] theorem answer_ki (r : Answer) (s : State) : (answer r s).ki = s.ki := rfl
@[simp] theorem answer_si (r : Answer) (s : State) : (answer r s).si = s.si := rfl
@[simp] theorem answer_seedbuf (r : Answer) (s : State) : (answer r s).seedbuf = s.seedbuf := rfl
@[simp] theorem answer_slen (r : Answer) (s : State) : (answer r s).slen = s.slen := rfl
@[simp] theorem answer_gctr (r : Answer) (s : State) : (answer r s).gctr = s.gctr := rfl
@[simp] theorem answer_busy (r : Answer) (s : State) : (answer r s).busy = s.busy := rfl
@[simp] theorem answer_err (r : Answer) (s : State) : (answer r s).err = s.err := rfl
@[simp] theorem answer_ovr (r : Answer) (s : State) : (answer r s).ovr = s.ovr := rfl
@[simp] theorem answer_progress (r : Answer) (s : State) : (answer r s).progress = s.progress := rfl
@[simp] theorem answer_latch (r : Answer) (s : State) : (answer r s).latch = s.latch := rfl
@[simp] theorem answer_regs (r : Answer) (s : State) : (answer r s).regs = s.regs := rfl
@[simp] theorem answer_testSel (r : Answer) (s : State) : (answer r s).testSel = s.testSel := rfl
@[simp] theorem answer_testIdx (r : Answer) (s : State) : (answer r s).testIdx = s.testIdx := rfl
@[simp] theorem answer_inReset (r : Answer) (s : State) : (answer r s).inReset = s.inReset := rfl
@[simp] theorem answer_mem (r : Answer) (s : State) : (answer r s).mem = s.mem := rfl
@[simp] theorem answer_faults (r : Answer) (s : State) : (answer r s).faults = s.faults := rfl
@[simp] theorem answer_script (r : Answer) (s : State) : (answer r s).script = s.script := rfl
@[simp] theorem answer_waiting (r : Answer) (s : State) : (answer r s).waiting = s.waiting := rfl
@[simp] theorem answer_answers (r : Answer) (s : State) : (answer r s).answers = r :: s.answers := rfl
@[simp] theorem answer_dma (r : Answer) (s : State) : (answer r s).dma = s.dma := rfl
@[simp] theorem answer_draws (r : Answer) (s : State) : (answer r s).draws = s.draws := rfl

/-! ## dropSeed -/

@[simp] theorem dropSeed_cfg (s : State) : (dropSeed s).cfg = s.cfg := rfl
@[simp] theorem dropSeed_lc (s : State) : (dropSeed s).lc = s.lc := rfl
@[simp] theorem dropSeed_mode (s : State) : (dropSeed s).mode = s.mode := rfl
@[simp] theorem dropSeed_kb (s : State) : (dropSeed s).kb = s.kb := rfl
@[simp] theorem dropSeed_okb (s : State) : (dropSeed s).okb = s.okb := rfl
@[simp] theorem dropSeed_klen (s : State) : (dropSeed s).klen = s.klen := rfl
@[simp] theorem dropSeed_st (s : State) : (dropSeed s).st = s.st := rfl
@[simp] theorem dropSeed_tcnt (s : State) : (dropSeed s).tcnt = s.tcnt := rfl
@[simp] theorem dropSeed_ki (s : State) : (dropSeed s).ki = s.ki := rfl
@[simp] theorem dropSeed_si (s : State) : (dropSeed s).si = s.si := rfl
@[simp] theorem dropSeed_seedbuf (s : State) : (dropSeed s).seedbuf = Memory.zeros := rfl
@[simp] theorem dropSeed_slen (s : State) : (dropSeed s).slen = 0 := rfl
@[simp] theorem dropSeed_gctr (s : State) : (dropSeed s).gctr = 0 := rfl
@[simp] theorem dropSeed_busy (s : State) : (dropSeed s).busy = s.busy := rfl
@[simp] theorem dropSeed_err (s : State) : (dropSeed s).err = s.err := rfl
@[simp] theorem dropSeed_ovr (s : State) : (dropSeed s).ovr = s.ovr := rfl
@[simp] theorem dropSeed_progress (s : State) : (dropSeed s).progress = s.progress := rfl
@[simp] theorem dropSeed_latch (s : State) : (dropSeed s).latch = s.latch := rfl
@[simp] theorem dropSeed_regs (s : State) : (dropSeed s).regs = s.regs := rfl
@[simp] theorem dropSeed_testSel (s : State) : (dropSeed s).testSel = s.testSel := rfl
@[simp] theorem dropSeed_testIdx (s : State) : (dropSeed s).testIdx = s.testIdx := rfl
@[simp] theorem dropSeed_inReset (s : State) : (dropSeed s).inReset = s.inReset := rfl
@[simp] theorem dropSeed_mem (s : State) : (dropSeed s).mem = s.mem := rfl
@[simp] theorem dropSeed_faults (s : State) : (dropSeed s).faults = s.faults := rfl
@[simp] theorem dropSeed_script (s : State) : (dropSeed s).script = s.script := rfl
@[simp] theorem dropSeed_waiting (s : State) : (dropSeed s).waiting = s.waiting := rfl
@[simp] theorem dropSeed_answers (s : State) : (dropSeed s).answers = s.answers := rfl
@[simp] theorem dropSeed_dma (s : State) : (dropSeed s).dma = s.dma := rfl
@[simp] theorem dropSeed_draws (s : State) : (dropSeed s).draws = s.draws := rfl

/-! ## eraseAll -/

@[simp] theorem eraseAll_cfg (s : State) : (eraseAll s).cfg = s.cfg := rfl
@[simp] theorem eraseAll_lc (s : State) : (eraseAll s).lc = s.lc := rfl
@[simp] theorem eraseAll_mode (s : State) : (eraseAll s).mode = .undefined := rfl
@[simp] theorem eraseAll_kb (s : State) : (eraseAll s).kb = Memory.zeros := rfl
@[simp] theorem eraseAll_okb (s : State) : (eraseAll s).okb = Memory.zeros := rfl
@[simp] theorem eraseAll_klen (s : State) : (eraseAll s).klen = 0 := rfl
@[simp] theorem eraseAll_st (s : State) : (eraseAll s).st = Memory.zeros := rfl
@[simp] theorem eraseAll_tcnt (s : State) : (eraseAll s).tcnt = 0 := rfl
@[simp] theorem eraseAll_ki (s : State) : (eraseAll s).ki = 0 := rfl
@[simp] theorem eraseAll_si (s : State) : (eraseAll s).si = 0 := rfl
@[simp] theorem eraseAll_seedbuf (s : State) : (eraseAll s).seedbuf = Memory.zeros := rfl
@[simp] theorem eraseAll_slen (s : State) : (eraseAll s).slen = 0 := rfl
@[simp] theorem eraseAll_gctr (s : State) : (eraseAll s).gctr = 0 := rfl
@[simp] theorem eraseAll_busy (s : State) : (eraseAll s).busy = s.busy := rfl
@[simp] theorem eraseAll_err (s : State) : (eraseAll s).err = s.err := rfl
@[simp] theorem eraseAll_ovr (s : State) : (eraseAll s).ovr = s.ovr := rfl
@[simp] theorem eraseAll_progress (s : State) : (eraseAll s).progress = s.progress := rfl
@[simp] theorem eraseAll_latch (s : State) : (eraseAll s).latch = s.latch := rfl
@[simp] theorem eraseAll_regs (s : State) : (eraseAll s).regs = s.regs := rfl
@[simp] theorem eraseAll_testSel (s : State) : (eraseAll s).testSel = s.testSel := rfl
@[simp] theorem eraseAll_testIdx (s : State) : (eraseAll s).testIdx = s.testIdx := rfl
@[simp] theorem eraseAll_inReset (s : State) : (eraseAll s).inReset = s.inReset := rfl
@[simp] theorem eraseAll_mem (s : State) : (eraseAll s).mem = s.mem := rfl
@[simp] theorem eraseAll_faults (s : State) : (eraseAll s).faults = s.faults := rfl
@[simp] theorem eraseAll_script (s : State) : (eraseAll s).script = s.script := rfl
@[simp] theorem eraseAll_waiting (s : State) : (eraseAll s).waiting = s.waiting := rfl
@[simp] theorem eraseAll_answers (s : State) : (eraseAll s).answers = s.answers := rfl
@[simp] theorem eraseAll_dma (s : State) : (eraseAll s).dma = s.dma := rfl
@[simp] theorem eraseAll_draws (s : State) : (eraseAll s).draws = s.draws := rfl

/-! ## finishReset -/

@[simp] theorem finishReset_cfg (s : State) : (finishReset s).cfg = s.cfg := rfl
@[simp] theorem finishReset_lc (s : State) : (finishReset s).lc = s.lc := rfl
@[simp] theorem finishReset_mode (s : State) : (finishReset s).mode = .undefined := rfl
@[simp] theorem finishReset_kb (s : State) : (finishReset s).kb = Memory.zeros := rfl
@[simp] theorem finishReset_okb (s : State) : (finishReset s).okb = Memory.zeros := rfl
@[simp] theorem finishReset_klen (s : State) : (finishReset s).klen = 0 := rfl
@[simp] theorem finishReset_st (s : State) : (finishReset s).st = Memory.zeros := rfl
@[simp] theorem finishReset_tcnt (s : State) : (finishReset s).tcnt = 0 := rfl
@[simp] theorem finishReset_ki (s : State) : (finishReset s).ki = 0 := rfl
@[simp] theorem finishReset_si (s : State) : (finishReset s).si = 0 := rfl
@[simp] theorem finishReset_seedbuf (s : State) : (finishReset s).seedbuf = Memory.zeros := rfl
@[simp] theorem finishReset_slen (s : State) : (finishReset s).slen = 0 := rfl
@[simp] theorem finishReset_gctr (s : State) : (finishReset s).gctr = 0 := rfl
@[simp] theorem finishReset_busy (s : State) : (finishReset s).busy = false := rfl
@[simp] theorem finishReset_err (s : State) : (finishReset s).err = s.err := rfl
@[simp] theorem finishReset_ovr (s : State) : (finishReset s).ovr = s.ovr := rfl
@[simp] theorem finishReset_progress (s : State) : (finishReset s).progress = s.progress := rfl
@[simp] theorem finishReset_latch (s : State) : (finishReset s).latch = s.latch := rfl
@[simp] theorem finishReset_regs (s : State) : (finishReset s).regs = s.regs := rfl
@[simp] theorem finishReset_testSel (s : State) : (finishReset s).testSel = s.testSel := rfl
@[simp] theorem finishReset_testIdx (s : State) : (finishReset s).testIdx = s.testIdx := rfl
@[simp] theorem finishReset_inReset (s : State) : (finishReset s).inReset = s.inReset := rfl
@[simp] theorem finishReset_mem (s : State) : (finishReset s).mem = s.mem := rfl
@[simp] theorem finishReset_faults (s : State) : (finishReset s).faults = s.faults := rfl
@[simp] theorem finishReset_script (s : State) : (finishReset s).script = s.script := rfl
@[simp] theorem finishReset_waiting (s : State) : (finishReset s).waiting = s.waiting := rfl
@[simp] theorem finishReset_answers (s : State) : (finishReset s).answers = s.answers := rfl
@[simp] theorem finishReset_dma (s : State) : (finishReset s).dma = s.dma := rfl
@[simp] theorem finishReset_draws (s : State) : (finishReset s).draws = s.draws := rfl

/-! ## resetCore -/

@[simp] theorem resetCore_cfg (s : State) : (resetCore s).cfg = s.cfg := rfl
@[simp] theorem resetCore_lc (s : State) : (resetCore s).lc = s.lc := rfl
@[simp] theorem resetCore_mode (s : State) : (resetCore s).mode = s.mode := rfl
@[simp] theorem resetCore_kb (s : State) : (resetCore s).kb = Memory.copyFirst s.klen s.kb s.okb := rfl
@[simp] theorem resetCore_okb (s : State) : (resetCore s).okb = s.okb := rfl
@[simp] theorem resetCore_klen (s : State) : (resetCore s).klen = s.klen := rfl
@[simp] theorem resetCore_st (s : State) : (resetCore s).st = s.st := rfl
@[simp] theorem resetCore_tcnt (s : State) : (resetCore s).tcnt = s.tcnt := rfl
@[simp] theorem resetCore_ki (s : State) : (resetCore s).ki = (s.klen : Int) - 1 := rfl
@[simp] theorem resetCore_si (s : State) : (resetCore s).si = 0 := rfl
@[simp] theorem resetCore_seedbuf (s : State) : (resetCore s).seedbuf = s.seedbuf := rfl
@[simp] theorem resetCore_slen (s : State) : (resetCore s).slen = s.slen := rfl
@[simp] theorem resetCore_gctr (s : State) : (resetCore s).gctr = s.gctr := rfl
@[simp] theorem resetCore_busy (s : State) : (resetCore s).busy = s.busy := rfl
@[simp] theorem resetCore_err (s : State) : (resetCore s).err = s.err := rfl
@[simp] theorem resetCore_ovr (s : State) : (resetCore s).ovr = s.ovr := rfl
@[simp] theorem resetCore_progress (s : State) : (resetCore s).progress = s.progress := rfl
@[simp] theorem resetCore_latch (s : State) : (resetCore s).latch = s.latch := rfl
@[simp] theorem resetCore_regs (s : State) : (resetCore s).regs = s.regs := rfl
@[simp] theorem resetCore_testSel (s : State) : (resetCore s).testSel = s.testSel := rfl
@[simp] theorem resetCore_testIdx (s : State) : (resetCore s).testIdx = s.testIdx := rfl
@[simp] theorem resetCore_inReset (s : State) : (resetCore s).inReset = s.inReset := rfl
@[simp] theorem resetCore_mem (s : State) : (resetCore s).mem = s.mem := rfl
@[simp] theorem resetCore_faults (s : State) : (resetCore s).faults = s.faults := rfl
@[simp] theorem resetCore_script (s : State) : (resetCore s).script = s.script := rfl
@[simp] theorem resetCore_waiting (s : State) : (resetCore s).waiting = s.waiting := rfl
@[simp] theorem resetCore_answers (s : State) : (resetCore s).answers = s.answers := rfl
@[simp] theorem resetCore_dma (s : State) : (resetCore s).dma = s.dma := rfl
@[simp] theorem resetCore_draws (s : State) : (resetCore s).draws = s.draws := rfl

/-! ## initAbort -/

@[simp] theorem initAbort_cfg (s : State) : (initAbort s).cfg = s.cfg := rfl
@[simp] theorem initAbort_lc (s : State) : (initAbort s).lc = s.lc := rfl
@[simp] theorem initAbort_mode (s : State) : (initAbort s).mode = s.mode := rfl
@[simp] theorem initAbort_kb (s : State) : (initAbort s).kb = Memory.zeroFirst (opKeyLen s) s.kb := rfl
@[simp] theorem initAbort_okb (s : State) : (initAbort s).okb = Memory.zeroFirst (opKeyLen s) s.okb := rfl
@[simp] theorem initAbort_klen (s : State) : (initAbort s).klen = s.klen := rfl
@[simp] theorem initAbort_st (s : State) : (initAbort s).st = s.st := rfl
@[simp] theorem initAbort_tcnt (s : State) : (initAbort s).tcnt = s.tcnt := rfl
@[simp] theorem initAbort_ki (s : State) : (initAbort s).ki = s.ki := rfl
@[simp] theorem initAbort_si (s : State) : (initAbort s).si = s.si := rfl
@[simp] theorem initAbort_seedbuf (s : State) : (initAbort s).seedbuf = Memory.zeros := rfl
@[simp] theorem initAbort_slen (s : State) : (initAbort s).slen = 0 := rfl
@[simp] theorem initAbort_gctr (s : State) : (initAbort s).gctr = 0 := rfl
@[simp] theorem initAbort_busy (s : State) : (initAbort s).busy = s.busy := rfl
@[simp] theorem initAbort_err (s : State) : (initAbort s).err = s.err := rfl
@[simp] theorem initAbort_ovr (s : State) : (initAbort s).ovr = s.ovr := rfl
@[simp] theorem initAbort_progress (s : State) : (initAbort s).progress = s.progress := rfl
@[simp] theorem initAbort_latch (s : State) : (initAbort s).latch = s.latch := rfl
@[simp] theorem initAbort_regs (s : State) : (initAbort s).regs = s.regs := rfl
@[simp] theorem initAbort_testSel (s : State) : (initAbort s).testSel = s.testSel := rfl
@[simp] theorem initAbort_testIdx (s : State) : (initAbort s).testIdx = s.testIdx := rfl
@[simp] theorem initAbort_inReset (s : State) : (initAbort s).inReset = s.inReset := rfl
@[simp] theorem initAbort_mem (s : State) : (initAbort s).mem = s.mem := rfl
@[simp] theorem initAbort_faults (s : State) : (initAbort s).faults = s.faults := rfl
@[simp] theorem initAbort_script (s : State) : (initAbort s).script = s.script := rfl
@[simp] theorem initAbort_waiting (s : State) : (initAbort s).waiting = s.waiting := rfl
@[simp] theorem initAbort_answers (s : State) : (initAbort s).answers = s.answers := rfl
@[simp] theorem initAbort_dma (s : State) : (initAbort s).dma = s.dma := rfl
@[simp] theorem initAbort_draws (s : State) : (initAbort s).draws = s.draws := rfl

/-! ## installKey -/

@[simp] theorem installKey_cfg (m : Mode) (s : State) : (installKey m s).cfg = s.cfg := rfl
@[simp] theorem installKey_lc (m : Mode) (s : State) : (installKey m s).lc = s.lc := rfl
@[simp] theorem installKey_mode (m : Mode) (s : State) : (installKey m s).mode = m := rfl
@[simp] theorem installKey_kb (m : Mode) (s : State) : (installKey m s).kb = s.kb := rfl
@[simp] theorem installKey_okb (m : Mode) (s : State) : (installKey m s).okb = s.okb := rfl
@[simp] theorem installKey_klen (m : Mode) (s : State) : (installKey m s).klen = opKeyLen s := rfl
@[simp] theorem installKey_st (m : Mode) (s : State) : (installKey m s).st = s.st := rfl
@[simp] theorem installKey_tcnt (m : Mode) (s : State) : (installKey m s).tcnt = opTableCount s := rfl
@[simp] theorem installKey_ki (m : Mode) (s : State) : (installKey m s).ki = (opKeyLen s : Int) - 1 := rfl
@[simp] theorem installKey_si (m : Mode) (s : State) : (installKey m s).si = 0 := rfl
@[simp] theorem installKey_seedbuf (m : Mode) (s : State) : (installKey m s).seedbuf = s.seedbuf := rfl
@[simp] theorem installKey_slen (m : Mode) (s : State) : (installKey m s).slen = s.slen := rfl
@[simp] theorem installKey_gctr (m : Mode) (s : State) : (installKey m s).gctr = s.gctr := rfl
@[simp] theorem installKey_busy (m : Mode) (s : State) : (installKey m s).busy = s.busy := rfl
@[simp] theorem installKey_err (m : Mode) (s : State) : (installKey m s).err = s.err := rfl
@[simp] theorem installKey_ovr (m : Mode) (s : State) : (installKey m s).ovr = s.ovr := rfl
@[simp] theorem installKey_progress (m : Mode) (s : State) : (installKey m s).progress = s.progress := rfl
@[simp] theorem installKey_latch (m : Mode) (s : State) : (installKey m s).latch = s.latch := rfl
@[simp] theorem installKey_regs (m : Mode) (s : State) : (installKey m s).regs = s.regs := rfl
@[simp] theorem installKey_testSel (m : Mode) (s : State) : (installKey m s).testSel = s.testSel := rfl
@[simp] theorem installKey_testIdx (m : Mode) (s : State) : (installKey m s).testIdx = s.testIdx := rfl
@[simp] theorem installKey_inReset (m : Mode) (s : State) : (installKey m s).inReset = s.inReset := rfl
@[simp] theorem installKey_mem (m : Mode) (s : State) : (installKey m s).mem = s.mem := rfl
@[simp] theorem installKey_faults (m : Mode) (s : State) : (installKey m s).faults = s.faults := rfl
@[simp] theorem installKey_script (m : Mode) (s : State) : (installKey m s).script = s.script := rfl
@[simp] theorem installKey_waiting (m : Mode) (s : State) : (installKey m s).waiting = s.waiting := rfl
@[simp] theorem installKey_answers (m : Mode) (s : State) : (installKey m s).answers = s.answers := rfl
@[simp] theorem installKey_dma (m : Mode) (s : State) : (installKey m s).dma = s.dma := rfl
@[simp] theorem installKey_draws (m : Mode) (s : State) : (installKey m s).draws = s.draws := rfl

/-! ## commitStep -/

@[simp] theorem commitStep_cfg (k : Nat) (s : State) : (commitStep k s).cfg = s.cfg := rfl
@[simp] theorem commitStep_lc (k : Nat) (s : State) : (commitStep k s).lc = s.lc := rfl
@[simp] theorem commitStep_mode (k : Nat) (s : State) : (commitStep k s).mode = s.mode := rfl
@[simp] theorem commitStep_kb (k : Nat) (s : State) : (commitStep k s).kb = Memory.write s.kb (wrapKi s).toNat (keyByte s ^^^ keyMask s) := rfl
@[simp] theorem commitStep_okb (k : Nat) (s : State) : (commitStep k s).okb = s.okb := rfl
@[simp] theorem commitStep_klen (k : Nat) (s : State) : (commitStep k s).klen = s.klen := rfl
@[simp] theorem commitStep_st (k : Nat) (s : State) : (commitStep k s).st = s.st := rfl
@[simp] theorem commitStep_tcnt (k : Nat) (s : State) : (commitStep k s).tcnt = s.tcnt := rfl
@[simp] theorem commitStep_ki (k : Nat) (s : State) : (commitStep k s).ki = wrapKi s - 1 := rfl
@[simp] theorem commitStep_si (k : Nat) (s : State) : (commitStep k s).si = wrapSi s + 1 := rfl
@[simp] theorem commitStep_seedbuf (k : Nat) (s : State) : (commitStep k s).seedbuf = s.seedbuf := rfl
@[simp] theorem commitStep_slen (k : Nat) (s : State) : (commitStep k s).slen = s.slen := rfl
@[simp] theorem commitStep_gctr (k : Nat) (s : State) : (commitStep k s).gctr = s.gctr := rfl
@[simp] theorem commitStep_busy (k : Nat) (s : State) : (commitStep k s).busy = s.busy := rfl
@[simp] theorem commitStep_err (k : Nat) (s : State) : (commitStep k s).err = s.err := rfl
@[simp] theorem commitStep_ovr (k : Nat) (s : State) : (commitStep k s).ovr = s.ovr := rfl
@[simp] theorem commitStep_progress (k : Nat) (s : State) : (commitStep k s).progress = BitVec.ofNat 32 (k + 1) := rfl
@[simp] theorem commitStep_latch (k : Nat) (s : State) : (commitStep k s).latch = s.latch := rfl
@[simp] theorem commitStep_regs (k : Nat) (s : State) : (commitStep k s).regs = s.regs := rfl
@[simp] theorem commitStep_testSel (k : Nat) (s : State) : (commitStep k s).testSel = s.testSel := rfl
@[simp] theorem commitStep_testIdx (k : Nat) (s : State) : (commitStep k s).testIdx = s.testIdx := rfl
@[simp] theorem commitStep_inReset (k : Nat) (s : State) : (commitStep k s).inReset = s.inReset := rfl
@[simp] theorem commitStep_mem (k : Nat) (s : State) : (commitStep k s).mem = s.mem := rfl
@[simp] theorem commitStep_faults (k : Nat) (s : State) : (commitStep k s).faults = s.faults := rfl
@[simp] theorem commitStep_script (k : Nat) (s : State) : (commitStep k s).script = s.script := rfl
@[simp] theorem commitStep_waiting (k : Nat) (s : State) : (commitStep k s).waiting = s.waiting := rfl
@[simp] theorem commitStep_answers (k : Nat) (s : State) : (commitStep k s).answers = s.answers := rfl
@[simp] theorem commitStep_dma (k : Nat) (s : State) : (commitStep k s).dma = s.dma := rfl
@[simp] theorem commitStep_draws (k : Nat) (s : State) : (commitStep k s).draws = s.draws := rfl

/-! ## hashInto -/

@[simp] theorem hashInto_cfg (base : Nat) (s : State) : (hashInto base s).cfg = s.cfg := rfl
@[simp] theorem hashInto_lc (base : Nat) (s : State) : (hashInto base s).lc = s.lc := rfl
@[simp] theorem hashInto_mode (base : Nat) (s : State) : (hashInto base s).mode = s.mode := rfl
@[simp] theorem hashInto_kb (base : Nat) (s : State) : (hashInto base s).kb = s.kb := rfl
@[simp] theorem hashInto_okb (base : Nat) (s : State) : (hashInto base s).okb = s.okb := rfl
@[simp] theorem hashInto_klen (base : Nat) (s : State) : (hashInto base s).klen = s.klen := rfl
@[simp] theorem hashInto_st (base : Nat) (s : State) : (hashInto base s).st = Memory.writeBytes s.st base (hashBytes s.cfg (seedBytes s) (be64 s.gctr)) := rfl
@[simp] theorem hashInto_tcnt (base : Nat) (s : State) : (hashInto base s).tcnt = s.tcnt := rfl
@[simp] theorem hashInto_ki (base : Nat) (s : State) : (hashInto base s).ki = s.ki := rfl
@[simp] theorem hashInto_si (base : Nat) (s : State) : (hashInto base s).si = s.si := rfl
@[simp] theorem hashInto_seedbuf (base : Nat) (s : State) : (hashInto base s).seedbuf = s.seedbuf := rfl
@[simp] theorem hashInto_slen (base : Nat) (s : State) : (hashInto base s).slen = s.slen := rfl
@[simp] theorem hashInto_gctr (base : Nat) (s : State) : (hashInto base s).gctr = s.gctr + 1 := rfl
@[simp] theorem hashInto_busy (base : Nat) (s : State) : (hashInto base s).busy = s.busy := rfl
@[simp] theorem hashInto_err (base : Nat) (s : State) : (hashInto base s).err = s.err := rfl
@[simp] theorem hashInto_ovr (base : Nat) (s : State) : (hashInto base s).ovr = s.ovr := rfl
@[simp] theorem hashInto_progress (base : Nat) (s : State) : (hashInto base s).progress = s.progress := rfl
@[simp] theorem hashInto_latch (base : Nat) (s : State) : (hashInto base s).latch = s.latch := rfl
@[simp] theorem hashInto_regs (base : Nat) (s : State) : (hashInto base s).regs = s.regs := rfl
@[simp] theorem hashInto_testSel (base : Nat) (s : State) : (hashInto base s).testSel = s.testSel := rfl
@[simp] theorem hashInto_testIdx (base : Nat) (s : State) : (hashInto base s).testIdx = s.testIdx := rfl
@[simp] theorem hashInto_inReset (base : Nat) (s : State) : (hashInto base s).inReset = s.inReset := rfl
@[simp] theorem hashInto_mem (base : Nat) (s : State) : (hashInto base s).mem = s.mem := rfl
@[simp] theorem hashInto_faults (base : Nat) (s : State) : (hashInto base s).faults = s.faults := rfl
@[simp] theorem hashInto_script (base : Nat) (s : State) : (hashInto base s).script = s.script := rfl
@[simp] theorem hashInto_waiting (base : Nat) (s : State) : (hashInto base s).waiting = s.waiting := rfl
@[simp] theorem hashInto_answers (base : Nat) (s : State) : (hashInto base s).answers = s.answers := rfl
@[simp] theorem hashInto_dma (base : Nat) (s : State) : (hashInto base s).dma = s.dma := rfl
@[simp] theorem hashInto_draws (base : Nat) (s : State) : (hashInto base s).draws = s.draws := rfl

end Sys2Proof.Machine
end

