-- ==== Sys2Proof/Laws/Window.lean ====
section
/-! SUPPORT. What other agents' accesses can change, and what a window of a command can do. -/

namespace Sys2Proof.Machine

/-! ## Register accesses and events -/

/-- A register write leaves the engine, host memory and everything around the block alone. -/
theorem writeReg_keeps (off : Nat) (v : Word) (s : State) :
    (writeReg off v s).engine = s.engine ∧ (writeReg off v s).cfg = s.cfg ∧ (writeReg off v s).inReset = s.inReset ∧
    (writeReg off v s).dma = s.dma ∧ (writeReg off v s).mem = s.mem ∧ (writeReg off v s).script = s.script ∧
    (writeReg off v s).faults = s.faults ∧ (writeReg off v s).waiting = s.waiting ∧
    (writeReg off v s).answers = s.answers ∧ (writeReg off v s).draws = s.draws := by
  unfold writeReg
  split <;> first
    | exact ⟨rfl, rfl, rfl, rfl, rfl, rfl, rfl, rfl, rfl, rfl⟩
    | (unfold dropCommand; split <;> exact ⟨rfl, rfl, rfl, rfl, rfl, rfl, rfl, rfl, rfl, rfl⟩)
    | (unfold writeStatus; split <;> exact ⟨rfl, rfl, rfl, rfl, rfl, rfl, rfl, rfl, rfl, rfl⟩)
    | (unfold writeTestPort
       split
       · exact ⟨rfl, rfl, rfl, rfl, rfl, rfl, rfl, rfl, rfl, rfl⟩
       · split <;> exact ⟨rfl, rfl, rfl, rfl, rfl, rfl, rfl, rfl, rfl, rfl⟩)

/-- A register write does not read the script. -/
theorem writeReg_script (off : Nat) (v : Word) (s : State) (l : List Event) :
    writeReg off v { s with script := l } = { writeReg off v s with script := l } := by
  unfold writeReg
  split <;> first
    | rfl
    | (unfold dropCommand; dsimp only; split <;> rfl)
    | (unfold writeStatus; dsimp only; split <;> rfl)
    | (unfold writeTestPort; dsimp only; split
       · rfl
       · split <;> rfl)

theorem answer_engine (r : Answer) (s : State) : (answer r s).engine = s.engine := rfl

/-- A register access, other than an accepted CMD write, leaves the engine, host memory and the script alone. -/
theorem busAccess_keeps (a : RegAccess) (s : State) :
    (busAccess a s).engine = s.engine ∧ (busAccess a s).cfg = s.cfg ∧ (busAccess a s).inReset = s.inReset ∧
    (busAccess a s).dma = s.dma ∧ (busAccess a s).mem = s.mem ∧ (busAccess a s).script = s.script ∧
    (busAccess a s).faults = s.faults := by
  unfold busAccess
  split
  · exact ⟨rfl, rfl, rfl, rfl, rfl, rfl, rfl⟩
  · split
    · unfold accessInReset
      split <;> exact ⟨rfl, rfl, rfl, rfl, rfl, rfl, rfl⟩
    · split
      · exact ⟨rfl, rfl, rfl, rfl, rfl, rfl, rfl⟩
      · split
        · exact ⟨rfl, rfl, rfl, rfl, rfl, rfl, rfl⟩
        · rename_i v _
          obtain ⟨h1, h2, h3, h4, h5, h6, h7, -⟩ := writeReg_keeps (windowOffset s a.addr) v s
          exact ⟨h1, h2, h3, h4, h5, h6, h7⟩

theorem resumeAccess_keeps (s : State) :
    (resumeAccess s).engine = s.engine ∧ (resumeAccess s).cfg = s.cfg ∧ (resumeAccess s).inReset = s.inReset ∧
    (resumeAccess s).dma = s.dma ∧ (resumeAccess s).mem = s.mem ∧ (resumeAccess s).script = s.script ∧
    (resumeAccess s).faults = s.faults := by
  unfold resumeAccess
  split
  · exact ⟨rfl, rfl, rfl, rfl, rfl, rfl, rfl⟩
  · split
    · exact ⟨rfl, rfl, rfl, rfl, rfl, rfl, rfl⟩
    · exact busAccess_keeps _ _

/-- With reset released, no event but a reset touches the engine, the parameters or the record of DMA accesses. -/
theorem hostEvent_keeps (e : Event) (s : State) (he : e ≠ .assertReset) (hr : s.inReset = false) :
    (hostEvent e s).engine = s.engine ∧ (hostEvent e s).cfg = s.cfg ∧ (hostEvent e s).inReset = false ∧
    (hostEvent e s).dma = s.dma := by
  cases e with
  | reg a =>
    obtain ⟨h1, h2, h3, h4, -⟩ := busAccess_keeps a s
    exact ⟨h1, h2, h3.trans hr, h4⟩
  | load _ => exact ⟨rfl, rfl, hr, rfl⟩
  | store _ _ => exact ⟨rfl, rfl, hr, rfl⟩
  | setFaults _ => exact ⟨rfl, rfl, hr, rfl⟩
  | assertReset => exact absurd rfl he
  | releaseReset => simp [hostEvent, releaseReset, hr]
  | resume =>
    obtain ⟨h1, h2, h3, h4, -⟩ := resumeAccess_keeps s
    exact ⟨h1, h2, h3.trans hr, h4⟩
  | engine => exact ⟨rfl, rfl, hr, rfl⟩
  | wait => exact ⟨rfl, rfl, hr, rfl⟩

theorem busAccess_mem (a : RegAccess) (s : State) : (busAccess a s).mem = s.mem := (busAccess_keeps a s).2.2.2.2.1

/-- Every event keeps host memory in canonical form. -/
theorem hostEvent_wf (e : Event) (s : State) (h : s.mem.wf = true) : (hostEvent e s).mem.wf = true := by
  cases e with
  | reg a => simpa only [hostEvent, busAccess_mem] using h
  | store addr b => exact Memory.wf_write _ _ h
  | releaseReset => unfold hostEvent releaseReset; dsimp only; split <;> exact h
  | resume =>
    have := (resumeAccess_keeps s).2.2.2.2.1
    simpa only [hostEvent, this] using h
  | _ => exact h

/-! ## Windows -/

/-- A window with reset released: only the agents around the block act, up to a reset. -/
theorem serve_keeps (l : List Event) (s : State) (hr : s.inReset = false) :
    (serve l s).engine = s.engine ∧ (serve l s).cfg = s.cfg ∧ (serve l s).dma = s.dma := by
  induction l generalizing s with
  | nil => exact ⟨rfl, rfl, rfl⟩
  | cons e l ih =>
    by_cases he : e = .assertReset
    · subst he; exact ⟨rfl, rfl, rfl⟩
    · obtain ⟨h1, h2, h3, h4⟩ := hostEvent_keeps e s he hr
      obtain ⟨g1, g2, g3⟩ := ih (hostEvent e s) h3
      have key : (serve l (hostEvent e s)).engine = s.engine ∧ (serve l (hostEvent e s)).cfg = s.cfg ∧
          (serve l (hostEvent e s)).dma = s.dma := ⟨g1.trans h1, g2.trans h2, g3.trans h4⟩
      cases e <;> first
        | exact ⟨rfl, rfl, rfl⟩
        | exact key

theorem serve_wf (l : List Event) (s : State) (h : s.mem.wf = true) : (serve l s).mem.wf = true := by
  induction l generalizing s with
  | nil => exact h
  | cons e l ih =>
    have key := ih (hostEvent e s) (hostEvent_wf e s h)
    cases e <;> first
      | exact h
      | exact key

/-- No access of another agent during a command reaches the engine (R20, R33). -/
theorem window_engine (s : State) (hr : s.inReset = false) : (window s).engine = s.engine :=
  (serve_keeps _ s hr).1

theorem window_cfg (s : State) (hr : s.inReset = false) : (window s).cfg = s.cfg := (serve_keeps _ s hr).2.1

theorem window_dma (s : State) (hr : s.inReset = false) : (window s).dma = s.dma := (serve_keeps _ s hr).2.2

theorem window_mem_wf (s : State) (h : s.mem.wf = true) : (window s).mem.wf = true := serve_wf _ s h

/-- A window where no other agent acts changes nothing. -/
theorem window_of_quiet (s : State) (h : s.quiet = true) : window s = s := by
  obtain ⟨script, hs⟩ : ∃ l, s.script = l := ⟨_, rfl⟩
  unfold State.quiet at h
  unfold window
  rw [hs] at h ⊢
  cases script with
  | nil => simp only [serve, ← hs]
  | cons e l => cases e <;> first | exact absurd h Bool.false_ne_true | (simp only [serve, ← hs])

theorem quiet_congr {s t : State} (h : s.script = t.script) : s.quiet = t.quiet := by
  unfold State.quiet; rw [h]

theorem calm_congr {s t : State} (h : s.script = t.script) (h' : s.inReset = t.inReset) : s.calm ↔ t.calm := by
  unfold State.calm; rw [quiet_congr h, h']

/-- Where no other agent acts the engine simply goes on. -/
theorem atWindow_of_calm {s : State} (h : s.calm) (k : State → Run) : atWindow s k = k s := by
  unfold atWindow
  rw [window_of_quiet s h.1, if_neg (by simp [h.2])]

theorem accept_calm {s : State} (w : Word) : (accept w s).calm ↔ s.calm := calm_congr rfl rfl

theorem close_done {s : State} (h : s.calm) : (Run.done s).close = .done s := atWindow_of_calm h _

theorem close_failed {s : State} (e : ErrCode) (h : s.calm) : (Run.failed e s).close = .failed e s :=
  atWindow_of_calm h _

/-- A command that runs to its end with no other agent acting. -/
theorem command_of_done {w : Word} {body : State → Run} {s t : State} (h : s.calm)
    (hb : body (accept w s) = .done t) (ht : t.calm) : command w body s = .next (complete .none t) := by
  unfold command
  rw [atWindow_of_calm ((accept_calm w).2 h), hb, close_done ht]; rfl

/-- A command that fails with no other agent acting. -/
theorem command_of_failed {w : Word} {body : State → Run} {s t : State} {e : ErrCode} (h : s.calm)
    (hb : body (accept w s) = .failed e t) (ht : t.calm) : command w body s = .next (complete e t) := by
  unfold command
  rw [atWindow_of_calm ((accept_calm w).2 h), hb, close_failed e ht]; rfl

/-! ## How an execution ends -/

/-- The state an execution ends in: `P` where it goes on, `Q` where it failed, `A` where a reset abandoned it; it never stops. -/
def Run.Ends (P : State → Prop) (Q : ErrCode → State → Prop) (A : State → Prop) : Run → Prop
  | .done s => P s
  | .failed e s => Q e s
  | .abandoned s => A s
  | .stopped _ => False

theorem Run.Ends.mono {P P' : State → Prop} {Q Q' : ErrCode → State → Prop} {A A' : State → Prop} {r : Run}
    (h : r.Ends P Q A) (hp : ∀ s, P s → P' s) (hq : ∀ e s, Q e s → Q' e s) (ha : ∀ s, A s → A' s) : r.Ends P' Q' A' := by
  cases r with
  | done s => exact hp s h
  | failed e s => exact hq e s h
  | abandoned s => exact ha s h
  | stopped f => exact h

theorem Run.Ends.andThen {P P' : State → Prop} {Q : ErrCode → State → Prop} {A : State → Prop} {r : Run} {k : State → Run}
    (h : r.Ends P Q A) (hk : ∀ s, P s → (k s).Ends P' Q A) : (r.andThen k).Ends P' Q A := by
  cases r with
  | done s => exact hk s h
  | failed e s => exact h
  | abandoned s => exact h
  | stopped f => exact h

/-- What holds at a window whatever the other agents do there: the engine, the parameters and the record of DMA accesses are
as before, and either reset is released or the command is abandoned. -/
theorem Run.Ends.atWindow {P : State → Prop} {Q : ErrCode → State → Prop} {A : State → Prop} {s : State} {k : State → Run}
    (hr : s.inReset = false)
    (hk : ∀ t, t.engine = s.engine → t.cfg = s.cfg → t.dma = s.dma → (s.mem.wf = true → t.mem.wf = true) → t.inReset = false →
      (k t).Ends P Q A)
    (ha : ∀ t, t.engine = s.engine → t.cfg = s.cfg → t.dma = s.dma → (s.mem.wf = true → t.mem.wf = true) → t.inReset = true →
      A t) : (atWindow s k).Ends P Q A := by
  have h1 := window_engine s hr
  have h2 := window_cfg s hr
  have h3 := window_dma s hr
  unfold Sys2Proof.Machine.atWindow
  split
  · rename_i h
    exact ha _ h1 h2 h3 (window_mem_wf s) h
  · rename_i h
    exact hk _ h1 h2 h3 (window_mem_wf s) (by simpa using h)

/-! ## The engine between commands -/

theorem erased_iff (s : State) : erased s = true ↔ eraseAll s = s := decide_eq_true_iff

theorem erasePending_iff (s : State) : erasePending s = true ↔ s.busy = true ∧ s.inReset = false := by
  simp [erasePending]

/-- Everything the engine's turn between commands can be: none, the post-reset erase, or the fall of BUSY after it (R231). -/
theorem engineTurn_cases (s : State) :
    (erasePending s = false ∧ engineTurn s = s) ∨
    (erasePending s = true ∧ eraseAll s ≠ s ∧ engineTurn s = eraseAll s) ∨
    (erasePending s = true ∧ eraseAll s = s ∧ engineTurn s = finishReset s) := by
  cases hp : erasePending s with
  | false => exact .inl ⟨rfl, by simp [engineTurn, hp]⟩
  | true =>
    refine .inr ?_
    by_cases he : eraseAll s = s
    · refine .inr ⟨rfl, he, ?_⟩
      rw [engineTurn, if_pos hp, if_pos ((erased_iff s).2 he), finishReset, he]
    · refine .inl ⟨rfl, he, ?_⟩
      rw [engineTurn, if_pos hp, if_neg (mt (erased_iff s).1 he)]

/-- What a host's WAIT between commands runs: nothing, or the rest of the post-reset sequence. -/
theorem engineFinish_cases (s : State) :
    (erasePending s = false ∧ engineFinish s = s) ∨ (erasePending s = true ∧ engineFinish s = finishReset s) := by
  cases hp : erasePending s <;> simp [engineFinish, hp]

end Sys2Proof.Machine
end

