-- ==== Sys2Proof/Laws/Bus.lean ====
section
/-! SUPPORT. What a register access does in each of its cases, and what a step does with the event at the head of the script. -/

namespace Sys2Proof.Machine

/-! ## Operands -/

/-- A byte range is out of range when its end passes `2^32` (R65). -/
theorem inRange_eq_false (base n : Nat) : inRange base n = false ↔ base + n > 2 ^ 32 := by
  unfold inRange
  rw [decide_eq_false_iff_not, Nat.not_le]

theorem inRange_eq_true (base n : Nat) : inRange base n = true ↔ base + n ≤ 2 ^ 32 := decide_eq_true_iff

/-- The MODE field 0, 1 or 2 encodes a mode, and STATUS shows that mode as the same field (R22, R40, R82). -/
theorem ofField_code {m : BitVec 2} (h : m ≠ 3) : ∃ mode, Mode.ofField m = some mode ∧ mode.code = m := by
  revert m; decide

/-! ## The window -/

theorem windowOffset_base (s : State) (off : Word) : windowOffset s (s.cfg.base + off) = off.toNat := by
  unfold windowOffset; congr 1; rw [BitVec.add_comm, BitVec.add_sub_cancel]

theorem inWindow_of {s : State} {addr : Word} (h : (addr - s.cfg.base).toNat < 256) : inWindow s addr = true :=
  decide_eq_true h

theorem wellSized_false {s : State} {a : RegAccess} (h : a.bytes ≠ 4 ∨ (a.addr - s.cfg.base).toNat % 4 ≠ 0) :
    wellSized s a = false := by
  unfold wellSized windowOffset
  rcases h with h | h <;> simp only [h, decide_false, Bool.false_and, Bool.and_false]

theorem regWrite_in {s : State} {off v : Word} (h : off.toNat < 256) (h4 : off.toNat % 4 = 0) :
    inWindow s (regWrite s.cfg.base off v).addr = true ∧ wellSized s (regWrite s.cfg.base off v) = true ∧
    windowOffset s (regWrite s.cfg.base off v).addr = off.toNat := by
  have ho := windowOffset_base s off
  refine ⟨?_, ?_, ho⟩
  · unfold inWindow regWrite; dsimp only; rw [ho]; exact decide_eq_true h
  · unfold wellSized regWrite; dsimp only; rw [ho, h4]; rfl

/-! ## Accesses -/

/-- A well-formed write with reset released takes effect and is answered (R64). -/
theorem busAccess_write {s : State} {off v : Word} (hr : s.inReset = false) (h : off.toNat < 256) (h4 : off.toNat % 4 = 0) :
    busAccess (regWrite s.cfg.base off v) s = answer .written (writeReg off.toNat v s) := by
  obtain ⟨h1, h2, h3⟩ := regWrite_in (s := s) (v := v) h h4
  unfold busAccess
  rw [h1, h2, h3, hr]; rfl

/-- A well-formed read with reset released is answered (R64). -/
theorem busAccess_read {s : State} {a : RegAccess} (hr : s.inReset = false) (hw : inWindow s a.addr = true)
    (hs : wellSized s a = true) (hv : a.value = none) : busAccess a s = answerRead (windowOffset s a.addr) s := by
  unfold busAccess
  rw [hw, hs, hr, hv]; rfl

/-- A malformed access to the window with reset released only gets an error (R64). -/
theorem busAccess_malformed {s : State} {a : RegAccess} (hr : s.inReset = false) (hw : inWindow s a.addr = true)
    (hs : wellSized s a = false) : busAccess a s = answer .error s := by
  unfold busAccess
  rw [hw, hs, hr]; rfl

/-- An access to the window while reset is asserted (R230). -/
theorem busAccess_inReset {s : State} {a : RegAccess} (hr : s.inReset = true) (hw : inWindow s a.addr = true) :
    busAccess a s = accessInReset a s := by
  unfold busAccess
  rw [hw, hr]; rfl

/-! ## Acceptance -/

/-- An aligned 32-bit write of CMD with BUSY = 0 and reset released is accepted (R39). -/
theorem acceptedWord_cmd {s : State} {w : Word} (hr : s.inReset = false) (hb : s.busy = false) :
    acceptedWord (regWrite s.cfg.base 0 w) s = some w := by
  obtain ⟨h1, h2, h3⟩ := regWrite_in (s := s) (off := 0) (v := w) (by decide) (by decide)
  unfold acceptedWord
  rw [h1, h2, h3, hr, hb]; rfl

theorem acceptedWord_busy {s : State} (a : RegAccess) (hb : s.busy = true) : acceptedWord a s = none := by
  unfold acceptedWord
  simp only [hb, Bool.not_true, Bool.and_false, Bool.false_and, Bool.false_eq_true, if_false]

theorem acceptedWord_inReset {s : State} (a : RegAccess) (hr : s.inReset = true) : acceptedWord a s = none := by
  unfold acceptedWord
  simp only [hr, Bool.not_true, Bool.and_false, Bool.false_and, Bool.false_eq_true, if_false]

theorem acceptedWord_malformed {s : State} {a : RegAccess} (hs : wellSized s a = false) : acceptedWord a s = none := by
  unfold acceptedWord
  simp only [hs, Bool.and_false, Bool.false_and, Bool.false_eq_true, if_false]

theorem acceptedWord_read {s : State} {a : RegAccess} (hv : a.value = none) : acceptedWord a s = none := by
  unfold acceptedWord
  rw [hv]; split <;> rfl

/-- A write to another register than CMD is no accepted word. -/
theorem acceptedWord_offset {s : State} {off v : Word} (h : off.toNat < 256) (h4 : off.toNat % 4 = 0) (h0 : off ≠ 0) :
    acceptedWord (regWrite s.cfg.base off v) s = none := by
  obtain ⟨h1, h2, h3⟩ := regWrite_in (s := s) (v := v) h h4
  have hn : off.toNat ≠ 0 := fun hz => h0 (BitVec.eq_of_toNat_eq hz)
  unfold acceptedWord
  rw [h1, h2, h3, show (off.toNat == 0) = false from beq_false_of_ne hn, Bool.and_false, if_neg Bool.false_ne_true]

/-- Only with reset released and BUSY = 0 is a word accepted. -/
theorem acceptedWord_some {s : State} {a : RegAccess} {w : Word} (h : acceptedWord a s = some w) :
    s.inReset = false ∧ s.busy = false := by
  unfold acceptedWord at h
  split at h
  · rename_i hc
    simp only [Bool.and_eq_true, Bool.not_eq_true'] at hc
    exact ⟨hc.1.1.2, hc.1.2⟩
  · cases h

/-! ## Steps -/

theorem step_of_valid {s : State} (h : s.cfg.valid = true) : step s = runNext s := if_pos h

theorem runNext_cons {s : State} {e : Event} {rest : List Event} (h : s.script = e :: rest) :
    runNext s = runEvent e { s with script := rest } := by
  unfold runNext; rw [h]

/-- A step whose event is a register access. -/
theorem step_reg {s : State} {a : RegAccess} {rest : List Event} (hv : s.cfg.valid = true) (h : s.script = .reg a :: rest) :
    step s = present a { s with script := rest } := by
  rw [step_of_valid hv, runNext_cons h]; rfl

theorem present_accepted {s : State} {a : RegAccess} {w : Word} (h : acceptedWord a s = some w) :
    present a s = runWord w (answer .written s) := by
  unfold present; rw [h]

theorem present_other {s : State} {a : RegAccess} (h : acceptedWord a s = none) : present a s = .next (busAccess a s) := by
  unfold present; rw [h]

/-! ## The first window of a command -/

/-- A command depends on the state at its acceptance only through its first window. -/
theorem command_congr {w : Word} {body : State → Run} {s t : State}
    (h : window (accept w s) = window (accept w t)) : command w body s = command w body t := by
  unfold command atWindow
  simp only [h]

theorem exec_congr {i : Instr} {s t : State} (h : window (accept (encode i) s) = window (accept (encode i) t)) :
    exec i s = exec i t := by
  cases i <;> exact command_congr h

/-- A window with one access before a host's WAIT. -/
theorem window_event {s : State} {e : Event} {rest : List Event} (h : s.script = e :: .wait :: rest)
    (he : serve (e :: .wait :: rest) s = serve (.wait :: rest) (hostEvent e s)) :
    window s = { hostEvent e s with script := .wait :: rest } := by
  unfold window; rw [h, he]; rfl

end Sys2Proof.Machine
end

