-- ==== Sys2Proof/Laws/Generator.lean ====
section
/-! SUPPORT. Laws of the schedule generator: the lengths of the hash, the seed transform, and what the loops of R106 fill. -/

namespace Sys2Proof.Machine

/-! ## Lengths -/

theorem length_bigEndian (n v : Nat) : (bigEndian n v).length = n := by
  induction n with
  | zero => rfl
  | succ n ih => simp [bigEndian, ih]

theorem length_sha256 (m : List Byte) : (sha256 m).length = 32 := by simp [sha256, shaWordBytes]

theorem length_hmacSha256 (k m : List Byte) : (hmacSha256 k m).length = 32 := length_sha256 _

/-- `HASH` returns exactly `HASH_LEN` bytes (R100). -/
theorem length_hashBytes {p : Params} (h : p.hash = .hmacSha256 → p.hashLen = 32) (k m : List Byte) :
    (hashBytes p k m).length = p.hashLen := by
  unfold hashBytes
  split
  · rw [length_hmacSha256, h ‹_›]
  · simp

/-! ## Legal parameters -/

/-- The constraints of R8, one by one. -/
theorem params_valid_iff (p : Params) : p.valid = true ↔
    1 ≤ p.minTables ∧ p.minTables ≤ p.defaultTables ∧ p.defaultTables ≤ p.maxTables ∧ p.maxTables * 256 ≤ 2 ^ 32 ∧
    (p.hashLen = 32 ∨ p.hashLen = 64 ∨ p.hashLen = 128 ∨ p.hashLen = 256) ∧ 1 ≤ p.keyMaxLen ∧ p.keyMaxLen ≤ 2 ^ 31 - 1 ∧
    p.seedMaxLen ≤ 2 ^ 32 - 1 ∧ p.defaultSeedLen ≤ p.seedMaxLen ∧ p.base.toNat % 256 = 0 ∧ (p.hash = .hmacSha256 → p.hashLen = 32) := by
  simp only [Params.valid, Bool.and_eq_true, decide_eq_true_eq, and_assoc]

theorem hashLen_pos {p : Params} (h : p.valid = true) : 0 < p.hashLen := by
  obtain ⟨-, -, -, -, h, -⟩ := (params_valid_iff p).1 h; omega

/-- `HASH_LEN` divides 256 (R100). -/
theorem hashLen_mul {p : Params} (h : p.valid = true) : 256 / p.hashLen * p.hashLen = 256 := by
  obtain ⟨-, -, -, -, h, -⟩ := (params_valid_iff p).1 h
  rcases h with h | h | h | h <;> rw [h]

theorem length_hash {p : Params} (h : p.valid = true) (k m : List Byte) : (hashBytes p k m).length = p.hashLen :=
  length_hashBytes ((params_valid_iff p).1 h).2.2.2.2.2.2.2.2.2.2 k m

/-! ## The seed transform (R103) -/

theorem read_maskSeed (x : Byte) (n : Nat) (m : Memory) (c : Nat) :
    Memory.read (maskSeed x n m) c = if c < n then Memory.read m c ^^^ x else Memory.read m c := by
  induction n generalizing c with
  | zero => simp [maskSeed]
  | succ n ih =>
    simp only [maskSeed, Memory.read_write]
    split
    · subst_vars; simp
    · rw [ih]; split <;> split <;> first | rfl | omega

theorem wf_maskSeed (x : Byte) (n : Nat) {m : Memory} (h : m.wf = true) : (maskSeed x n m).wf = true := by
  induction n with
  | zero => exact h
  | succ n ih => exact Memory.wf_write _ _ ih

theorem bytes_maskSeed (x : Byte) (n : Nat) (m : Memory) :
    Memory.bytes (maskSeed x n m) 0 n = (Memory.bytes m 0 n).map (· ^^^ x) := by
  simp only [Memory.bytes, List.map_map]
  refine List.map_congr_left (fun j hj => ?_)
  have := List.mem_range.1 hj
  simp [read_maskSeed, this]

/-! ## The loops (R106) -/

/-- The first `n` bytes of ST hold the schedule of the transformed seed `key` (R105). -/
def Filled (key : List Byte) (n : Nat) (s : State) : Prop := ∀ j, j < n → Memory.read s.st j = scheduleByte s.cfg key j

/-- Generation stands after `c` hash evaluations (R104 to R106), started from `s0`. -/
structure GenInv (s0 : State) (key : List Byte) (c : Nat) (s : State) : Prop where
  frame : s = { s0 with st := s.st, gctr := s.gctr }
  key_eq : seedBytes s0 = key
  counter : s.gctr = BitVec.ofNat 64 c
  filled : Filled key (c * s0.cfg.hashLen) s
  rest : ∀ j, c * s0.cfg.hashLen ≤ j → Memory.read s.st j = Memory.read s0.st j
  wf : s0.st.wf = true → s.st.wf = true

theorem GenInv.hashInto {s0 s : State} {key : List Byte} {c : Nat} (hv : s0.cfg.valid = true) (h : GenInv s0 key c s) :
    GenInv s0 key (c + 1) (hashInto (c * s0.cfg.hashLen) s) := by
  have hcfg : s.cfg = s0.cfg := by rw [h.frame]
  have hseed : seedBytes s = key := by rw [← h.key_eq, h.frame]; rfl
  have hpos := hashLen_pos hv
  have hlen : (hashBytes s.cfg (seedBytes s) (be64 s.gctr)).length = s0.cfg.hashLen := by
    rw [hcfg]; exact length_hash hv _ _
  refine ⟨?_, h.key_eq, ?_, ?_, ?_, ?_⟩
  · rw [h.frame]; rfl
  · rw [hashInto_gctr, h.counter]
    apply BitVec.eq_of_toNat_eq
    simp [BitVec.toNat_add]
  · intro j hj
    rw [hashInto_st, hashInto_cfg, Memory.read_writeBytes, hlen]
    by_cases hlt : j < c * s0.cfg.hashLen
    · rw [if_neg (by omega), h.filled j hlt]
    · have hj' : j < c * s0.cfg.hashLen + s0.cfg.hashLen := by rwa [Nat.succ_mul] at hj
      rw [if_pos ⟨by omega, hj'⟩]
      obtain ⟨r, rfl⟩ : ∃ r, j = c * s0.cfg.hashLen + r := ⟨j - c * s0.cfg.hashLen, by omega⟩
      have hr : r < s0.cfg.hashLen := by omega
      unfold scheduleByte
      rw [hcfg, hseed, h.counter]
      have hdiv : (c * s0.cfg.hashLen + r) / s0.cfg.hashLen = c := by
        rw [Nat.mul_comm, Nat.mul_add_div hpos, Nat.div_eq_of_lt hr, Nat.add_zero]
      have hmod : (c * s0.cfg.hashLen + r) % s0.cfg.hashLen = r := by
        rw [Nat.mul_comm, Nat.mul_add_mod, Nat.mod_eq_of_lt hr]
      rw [hdiv, hmod, Nat.add_sub_cancel_left]
  · intro j hj
    rw [Nat.succ_mul] at hj
    rw [hashInto_st, Memory.read_writeBytes, hlen, if_neg (by omega), h.rest j (by omega)]
  · intro hw
    exact Memory.wf_writeBytes _ _ (h.wf hw)

theorem GenInv.fillTable {s0 : State} {key : List Byte} (hv : s0.cfg.valid = true) (t n : Nat) :
    ∀ (q : Nat) {s : State}, GenInv s0 key (t * (256 / s0.cfg.hashLen) + q) s →
      GenInv s0 key (t * (256 / s0.cfg.hashLen) + q + n) (fillTable t n q s) := by
  induction n with
  | zero => intro q s h; exact h
  | succ n ih =>
    intro q s h
    have hcfg : s.cfg = s0.cfg := by rw [h.frame]
    have hbase : t * 256 + q * s.cfg.hashLen = (t * (256 / s0.cfg.hashLen) + q) * s0.cfg.hashLen := by
      rw [hcfg, Nat.add_mul, Nat.mul_assoc, hashLen_mul hv]
    have := ih (q + 1) (s := Sys2Proof.Machine.hashInto (t * 256 + q * s.cfg.hashLen) s) (by
      rw [hbase, ← Nat.add_assoc]; exact h.hashInto hv)
    rw [show t * (256 / s0.cfg.hashLen) + q + (n + 1) = t * (256 / s0.cfg.hashLen) + (q + 1) + n by omega]
    exact this

theorem GenInv.fillTables {s0 : State} {key : List Byte} (hv : s0.cfg.valid = true) (n : Nat) :
    ∀ (t : Nat) {s : State}, GenInv s0 key (t * (256 / s0.cfg.hashLen)) s →
      GenInv s0 key ((t + n) * (256 / s0.cfg.hashLen)) (fillTables n t s) := by
  induction n with
  | zero => intro t s h; exact h
  | succ n ih =>
    intro t s h
    have hcfg : s.cfg = s0.cfg := by rw [h.frame]
    have h1 := GenInv.fillTable hv t (256 / s0.cfg.hashLen) 0 (s := s) h
    have h2 := ih (t + 1) (s := Sys2Proof.Machine.fillTable t (256 / s.cfg.hashLen) 0 s) (by
      rw [hcfg, Nat.succ_mul]; exact h1)
    rw [show t + (n + 1) = t + 1 + n by omega]
    exact h2

/-- The state `GenerateSchedule` runs its loops from: the seed transformed, the counter 0 (R103, R104). -/
def genStart (t : Nat) (s : State) : State := { s with seedbuf := maskSeed (seedMask t) s.slen s.seedbuf, gctr := 0 }

theorem seedBytes_genStart (t : Nat) (s : State) : seedBytes (genStart t s) = maskedSeed t (seedBytes s) :=
  bytes_maskSeed _ _ _

/-- What `GenerateSchedule(T)` does, whole (R106): it stands after `T * 256 / HASH_LEN` evaluations. -/
theorem generateSchedule_spec {s : State} (hv : s.cfg.valid = true) (t : Nat) :
    GenInv (genStart t s) (maskedSeed t (seedBytes s)) (t * (256 / s.cfg.hashLen)) (generateSchedule t s) := by
  have h0 : GenInv (genStart t s) (maskedSeed t (seedBytes s)) (0 * (256 / (genStart t s).cfg.hashLen)) (genStart t s) := by
    refine ⟨rfl, seedBytes_genStart t s, by simp [genStart], ?_, fun _ _ => rfl, id⟩
    intro j hj; simp at hj
  have h := GenInv.fillTables (s0 := genStart t s) hv t 0 h0
  rw [Nat.zero_add] at h
  exact h

/-- Generation touches SEEDBUF, ST and GCTR alone. -/
theorem generateSchedule_frame {s : State} (hv : s.cfg.valid = true) (t : Nat) :
    generateSchedule t s = { s with seedbuf := maskSeed (seedMask t) s.slen s.seedbuf, st := (generateSchedule t s).st,
                                    gctr := (generateSchedule t s).gctr } :=
  (generateSchedule_spec hv t).frame

end Sys2Proof.Machine
end

