-- ==== Sys2Proof/Laws/Init.lean ====
section
/-! SUPPORT. INIT's reads and installation when no other agent acts. -/

namespace Sys2Proof.Machine

theorem dmaRead_ok {a : Nat} {s : State} (h : readFault a s = none) :
    dmaRead a s = (some (Memory.read s.mem a), { s with dma := .read a true :: s.dma }) := by
  simp [dmaRead, h]

theorem dmaRead_fail {a : Nat} {s : State} {f : DmaFault} (h : readFault a s = some f) :
    dmaRead a s = (none, { s with dma := .read a false :: s.dma }) := by
  simp [dmaRead, h]

theorem dmaWrite_ok {a : Nat} {b : Byte} {s : State} (h : writeFault a s = none) :
    dmaWrite a b s = (true, { s with mem := Memory.write s.mem a b, dma := .write a b true :: s.dma }) := by
  simp [dmaWrite, h]

theorem dmaWrite_fail {a : Nat} {b : Byte} {s : State} {f : DmaFault} (h : writeFault a s = some f) :
    dmaWrite a b s = (false, { s with mem := failedWrite f a s.mem, dma := .write a b false :: s.dma }) := by
  simp [dmaWrite, h]

/-- A DMA access changes only host memory and the record of accesses. -/
theorem dmaRead_frame (a : Nat) (s : State) : (dmaRead a s).2 = { s with dma := (dmaRead a s).2.dma } := by
  unfold dmaRead; split <;> rfl

theorem dmaWrite_frame (a : Nat) (b : Byte) (s : State) :
    (dmaWrite a b s).2 = { s with mem := (dmaWrite a b s).2.mem, dma := (dmaWrite a b s).2.dma } := by
  unfold dmaWrite; split <;> rfl

theorem dmaWrite_mem_wf (a : Nat) (b : Byte) (s : State) (h : s.mem.wf = true) : (dmaWrite a b s).2.mem.wf = true := by
  unfold dmaWrite
  split
  · exact Memory.wf_write _ _ h
  · exact Memory.wf_failedWrite _ _ h

theorem readTrace_succ (base n : Nat) : readTrace base (n + 1) = readTrace (base + 1) n ++ [.read base true] := by
  simp only [readTrace, List.range_succ_eq_map, List.map_cons, List.map_map, List.reverse_cons, Nat.add_zero]
  refine congrArg (· ++ [DmaAccess.read base true]) (congrArg List.reverse (List.map_congr_left (fun j _ => ?_)))
  simp only [Function.comp_apply, Nat.succ_eq_add_one]
  rw [Nat.add_assoc, Nat.add_comm 1 j]

theorem readTrace_succ_last (base n : Nat) : readTrace base (n + 1) = .read (base + n) true :: readTrace base n := by
  simp [readTrace, List.range_succ]

/-- The seed reads, all successful (R66). -/
theorem loadSeed_ok (n : Nat) : ∀ (j : Nat) {s : State}, s.calm → readsSucceed (opSeedAddr s + j) n s →
    loadSeed n j s = .done { s with
      seedbuf := Memory.writeBytes s.seedbuf j (Memory.bytes s.mem (opSeedAddr s + j) n),
      dma := readTrace (opSeedAddr s + j) n ++ s.dma } := by
  induction n with
  | zero => intro j s _ _; rfl
  | succ n ih =>
    intro j s hc hs
    rw [loadSeed, atWindow_of_calm hc]
    have h0 : readFault (opSeedAddr s + j) s = none := hs 0 (Nat.succ_pos n)
    simp only [dmaRead_ok h0]
    refine (ih (j + 1) (s := _) ?_ ?_).trans ?_
    · exact hc
    · intro i hi
      have := hs (i + 1) (by omega)
      rw [show opSeedAddr s + j + (i + 1) = opSeedAddr s + (j + 1) + i by omega] at this
      exact this
    · simp only [opSeedAddr, Memory.bytes_succ, Memory.writeBytes, readTrace_succ, List.append_assoc, List.singleton_append,
        Nat.add_assoc]

/-- The key reads, all successful (R66). -/
theorem loadKey_ok (n : Nat) : ∀ (j : Nat) {s : State}, s.calm → readsSucceed (opKeyAddr s + j) n s →
    loadKey n j s = .done { s with
      kb := Memory.writeBytes s.kb j (Memory.bytes s.mem (opKeyAddr s + j) n),
      okb := Memory.writeBytes s.okb j (Memory.bytes s.mem (opKeyAddr s + j) n),
      dma := readTrace (opKeyAddr s + j) n ++ s.dma } := by
  induction n with
  | zero => intro j s _ _; rfl
  | succ n ih =>
    intro j s hc hs
    rw [loadKey, atWindow_of_calm hc]
    have h0 : readFault (opKeyAddr s + j) s = none := hs 0 (Nat.succ_pos n)
    simp only [dmaRead_ok h0]
    refine (ih (j + 1) (s := _) ?_ ?_).trans ?_
    · exact hc
    · intro i hi
      have := hs (i + 1) (by omega)
      rw [show opKeyAddr s + j + (i + 1) = opKeyAddr s + (j + 1) + i by omega] at this
      exact this
    · simp only [opKeyAddr, Memory.bytes_succ, Memory.writeBytes, readTrace_succ, List.append_assoc, List.singleton_append,
        Nat.add_assoc]

/-- The seed reads up to a failing one: INIT aborts, and no read is issued after it (R66, R124). -/
theorem loadSeed_fail (n : Nat) : ∀ (j k : Nat) {s : State} {f : DmaFault}, s.calm → k < n →
    readsSucceed (opSeedAddr s + j) k s → readFault (opSeedAddr s + j + k) s = some f →
    loadSeed n j s = .failed .busError (initAbort { s with
      seedbuf := Memory.writeBytes s.seedbuf j (Memory.bytes s.mem (opSeedAddr s + j) k),
      dma := .read (opSeedAddr s + j + k) false :: readTrace (opSeedAddr s + j) k ++ s.dma }) := by
  induction n with
  | zero => intro j k s f _ hk; omega
  | succ n ih =>
    intro j k s f hc hk hs hf
    rw [loadSeed, atWindow_of_calm hc]
    cases k with
    | zero =>
      simp only [Nat.add_zero] at hf
      simp only [dmaRead_fail hf]
      rfl
    | succ k =>
      have h0 : readFault (opSeedAddr s + j) s = none := hs 0 (Nat.succ_pos k)
      simp only [dmaRead_ok h0]
      refine (ih (j + 1) k (s := _) (f := f) ?_ (by omega) ?_ ?_).trans ?_
      · exact hc
      · intro i hi
        have := hs (i + 1) (by omega)
        rw [show opSeedAddr s + j + (i + 1) = opSeedAddr s + (j + 1) + i by omega] at this
        exact this
      · rw [show opSeedAddr s + j + (k + 1) = opSeedAddr s + (j + 1) + k by omega] at hf
        exact hf
      · simp only [opSeedAddr, Memory.bytes_succ, Memory.writeBytes, readTrace_succ, List.append_assoc, Nat.add_assoc,
          List.cons_append, List.nil_append, Nat.add_comm 1 k]

/-- The key reads up to a failing one (R66, R124). -/
theorem loadKey_fail (n : Nat) : ∀ (j k : Nat) {s : State} {f : DmaFault}, s.calm → k < n →
    readsSucceed (opKeyAddr s + j) k s → readFault (opKeyAddr s + j + k) s = some f →
    loadKey n j s = .failed .busError (initAbort { s with
      kb := Memory.writeBytes s.kb j (Memory.bytes s.mem (opKeyAddr s + j) k),
      okb := Memory.writeBytes s.okb j (Memory.bytes s.mem (opKeyAddr s + j) k),
      dma := .read (opKeyAddr s + j + k) false :: readTrace (opKeyAddr s + j) k ++ s.dma }) := by
  induction n with
  | zero => intro j k s f _ hk; omega
  | succ n ih =>
    intro j k s f hc hk hs hf
    rw [loadKey, atWindow_of_calm hc]
    cases k with
    | zero =>
      simp only [Nat.add_zero] at hf
      simp only [dmaRead_fail hf]
      rfl
    | succ k =>
      have h0 : readFault (opKeyAddr s + j) s = none := hs 0 (Nat.succ_pos k)
      simp only [dmaRead_ok h0]
      refine (ih (j + 1) k (s := _) (f := f) ?_ (by omega) ?_ ?_).trans ?_
      · exact hc
      · intro i hi
        have := hs (i + 1) (by omega)
        rw [show opKeyAddr s + j + (i + 1) = opKeyAddr s + (j + 1) + i by omega] at this
        exact this
      · rw [show opKeyAddr s + j + (k + 1) = opKeyAddr s + (j + 1) + k by omega] at hf
        exact hf
      · simp only [opKeyAddr, Memory.bytes_succ, Memory.writeBytes, readTrace_succ, List.append_assoc, Nat.add_assoc,
          List.cons_append, List.nil_append, Nat.add_comm 1 k]

/-- "load seed into scratch", where every seed read succeeds (R122, R125). -/
theorem takeSeed_ok (d : Bool) {s : State} (hc : s.calm)
    (hs : d = false → readsSucceed (opSeedAddr s) (opSeedLen s) s) {seed : List Byte}
    (hseed : seed = if d then defaultSeed s.cfg else Memory.bytes s.mem (opSeedAddr s) (opSeedLen s)) :
    takeSeed d s = .done { s with
      seedbuf := Memory.writeBytes s.seedbuf 0 seed, slen := seed.length,
      dma := (if d then [] else readTrace (opSeedAddr s) (opSeedLen s)) ++ s.dma } := by
  cases d with
  | true => subst hseed; rfl
  | false =>
    have hl : seed.length = opSeedLen s := by rw [hseed]; exact Memory.length_bytes _ _ _
    have h := loadSeed_ok (opSeedLen s) 0 (s := { s with slen := opSeedLen s }) hc (hs rfl)
    rw [hl, hseed]
    exact h

end Sys2Proof.Machine
end

