-- ==== Sys2Proof/Laws/Cipher.lean ====
section
/-! SUPPORT. CIPHER's byte steps when no other agent acts, and the key state they leave. -/

namespace Sys2Proof.Machine

/-! ## Indices (R143, R160) -/

theorem wrapKi_range {s : State} (h : s.KeyInv) : 0 ≤ wrapKi s ∧ wrapKi s ≤ (s.klen : Int) - 1 := by
  have := h.klen_pos; have := h.ki_ge; have := h.ki_le
  unfold wrapKi; split <;> omega

theorem wrapSi_range {s : State} (h : s.KeyInv) : wrapSi s ≤ s.tcnt - 1 := by
  have := h.tcnt_pos; have := h.si_le
  unfold wrapSi; split <;> omega

/-- "the table lookup never leaves the installed schedule" (R160). -/
theorem tableIndex_lt {s : State} (h : s.KeyInv) : tableIndex s < s.tcnt * 256 := by
  have h1 := wrapSi_range h; have := h.tcnt_pos
  have h2 := (keyByte s).isLt
  unfold tableIndex; omega

theorem indicesInside_of {s : State} (h : s.KeyInv) : indicesInside s = true := by
  have h1 := wrapKi_range h; have h2 := tableIndex_lt h; have h3 := h.klen_le; have h4 := h.tcnt_le
  simp only [indicesInside, Bool.and_eq_true, decide_eq_true_eq]
  omega

theorem commitStep_keyInv {s : State} (k : Nat) (h : s.KeyInv) : (commitStep k s).KeyInv := by
  have h1 := wrapKi_range h; have h2 := wrapSi_range h; have h3 := h.tcnt_pos
  refine ⟨h.klen_pos, h.klen_le, h.tcnt_pos, h.tcnt_le, ?_, ?_, ?_⟩
  · rw [commitStep_ki]; omega
  · rw [commitStep_ki, commitStep_klen]; omega
  · rw [commitStep_si, commitStep_tcnt]; omega

/-! ## One byte step -/

/-- The state after a byte step whose accesses succeed (R142). -/
def stepped (k : Nat) (s : State) : State :=
  commitStep k { s with
    mem := Memory.write s.mem (opDstAddr s + k) (Memory.read s.mem (opSrcAddr s + k) ^^^ keystreamByte s),
    dma := .write (opDstAddr s + k) (Memory.read s.mem (opSrcAddr s + k) ^^^ keystreamByte s) true ::
      .read (opSrcAddr s + k) true :: s.dma }

theorem byteStep_ok {k : Nat} {s : State} (hc : s.calm) (hi : indicesInside s = true)
    (hr : readFault (opSrcAddr s + k) s = none) (hw : writeFault (opDstAddr s + k) s = none) :
    byteStep k s = .done (stepped k s) := by
  unfold byteStep
  rw [if_pos hi, atWindow_of_calm hc]
  simp only [dmaRead_ok hr]
  refine (atWindow_of_calm ?_ _).trans ?_
  · exact hc
  · have hw' : writeFault (opDstAddr s + k) { s with dma := .read (opSrcAddr s + k) true :: s.dma } = none := hw
    have := dmaWrite_ok (b := Memory.read s.mem (opSrcAddr s + k) ^^^ keystreamByte s) hw'
    dsimp only [opDstAddr, opSrcAddr, keystreamByte, tableIndex, wrapSi, wrapKi, keyByte] at this ⊢
    rw [this]
    rfl

theorem byteStep_read_fail {k : Nat} {s : State} {f : DmaFault} (hc : s.calm) (hi : indicesInside s = true)
    (hr : readFault (opSrcAddr s + k) s = some f) :
    byteStep k s = .failed .busError { s with dma := .read (opSrcAddr s + k) false :: s.dma } := by
  unfold byteStep
  rw [if_pos hi, atWindow_of_calm hc]
  simp only [dmaRead_fail hr]

theorem byteStep_write_fail {k : Nat} {s : State} {f : DmaFault} (hc : s.calm) (hi : indicesInside s = true)
    (hr : readFault (opSrcAddr s + k) s = none) (hw : writeFault (opDstAddr s + k) s = some f) :
    byteStep k s = .failed .busError { s with
      mem := failedWrite f (opDstAddr s + k) s.mem,
      dma := .write (opDstAddr s + k) (Memory.read s.mem (opSrcAddr s + k) ^^^ keystreamByte s) false ::
        .read (opSrcAddr s + k) true :: s.dma } := by
  unfold byteStep
  rw [if_pos hi, atWindow_of_calm hc]
  simp only [dmaRead_ok hr]
  refine (atWindow_of_calm ?_ _).trans ?_
  · exact hc
  · have hw' : writeFault (opDstAddr s + k) { s with dma := .read (opSrcAddr s + k) true :: s.dma } = some f := hw
    have := dmaWrite_fail (b := Memory.read s.mem (opSrcAddr s + k) ^^^ keystreamByte s) hw'
    dsimp only [opDstAddr, opSrcAddr, keystreamByte, tableIndex, wrapSi, wrapKi, keyByte] at this ⊢
    rw [this]

/-! ## Several byte steps -/

theorem andThen_assoc (r : Run) (f g : State → Run) : (r.andThen f).andThen g = r.andThen (fun s => (f s).andThen g) := by
  cases r <;> rfl

theorem andThen_done (r : Run) : r.andThen .done = r := by cases r <;> rfl

/-- The last byte step of several, split off. -/
theorem byteSteps_succ_last (n : Nat) : ∀ (k : Nat) (s : State),
    byteSteps (n + 1) k s = (byteSteps n k s).andThen (byteStep (k + n)) := by
  induction n with
  | zero =>
    intro k s
    simp only [byteSteps, Run.andThen, Nat.add_zero]
    exact andThen_done _
  | succ n ih =>
    intro k s
    rw [byteSteps, byteSteps, andThen_assoc]
    congr 1
    funext t
    rw [ih (k + 1) t, show k + (n + 1) = k + 1 + n by omega]

/-- Byte steps split in two runs. -/
theorem byteSteps_add (m n : Nat) : ∀ (k : Nat) (s : State),
    byteSteps (m + n) k s = (byteSteps m k s).andThen (byteSteps n (k + m)) := by
  induction m with
  | zero => intro k s; simp [byteSteps, Run.andThen]
  | succ m ih =>
    intro k s
    rw [show m + 1 + n = (m + n) + 1 by omega, byteSteps, byteSteps, andThen_assoc]
    congr 1
    funext t
    rw [ih (k + 1) t, show k + (m + 1) = k + 1 + m by omega]

/-- The state after `n` byte steps, from byte 0, whose accesses all succeed. -/
def stepsFrom : Nat → State → State
  | 0, s => s
  | n + 1, s => stepped n (stepsFrom n s)

/-- Byte steps change only host memory, the key state, PROGRESS and the record of accesses. -/
theorem stepsFrom_frame (n : Nat) (s : State) :
    stepsFrom n s = { s with kb := (stepsFrom n s).kb, ki := (stepsFrom n s).ki, si := (stepsFrom n s).si,
                             progress := (stepsFrom n s).progress, mem := (stepsFrom n s).mem,
                             dma := (stepsFrom n s).dma } := by
  induction n with
  | zero => rfl
  | succ n ih => rw [stepsFrom, stepped, ih]; rfl

/-- The key state after byte steps depends on no data byte (R154). -/
theorem stepsFrom_key (n : Nat) (s : State) :
    (stepsFrom n s).kb = (keyAfter n s).kb ∧ (stepsFrom n s).ki = (keyAfter n s).ki ∧
    (stepsFrom n s).si = (keyAfter n s).si ∧ (stepsFrom n s).progress = (keyAfter n s).progress ∧
    (stepsFrom n s).st = (keyAfter n s).st ∧ (stepsFrom n s).klen = (keyAfter n s).klen ∧
    (stepsFrom n s).tcnt = (keyAfter n s).tcnt := by
  induction n with
  | zero => exact ⟨rfl, rfl, rfl, rfl, rfl, rfl, rfl⟩
  | succ n ih =>
    obtain ⟨h1, h2, h3, h4, h5, h6, h7⟩ := ih
    simp only [stepsFrom, stepped, keyAfter, commitStep, keyByte, keyMask, wrapKi, wrapSi, h1, h2, h3, h5, h6, h7, and_self]

/-- Keystream byte `n` of a CIPHER is the keystream byte of its byte step `n` (R154). -/
theorem keystreamByte_stepsFrom (n : Nat) (s : State) : keystreamByte (stepsFrom n s) = keystreamAt n s := by
  obtain ⟨h1, h2, h3, -, h5, h6, h7⟩ := stepsFrom_key n s
  simp only [keystreamAt, keystreamByte, tableIndex, keyByte, wrapKi, wrapSi, h1, h2, h3, h5, h6, h7]

theorem stepsFrom_ops (n : Nat) (s : State) :
    opSrcAddr (stepsFrom n s) = opSrcAddr s ∧ opDstAddr (stepsFrom n s) = opDstAddr s ∧
    (stepsFrom n s).faults = s.faults ∧ (stepsFrom n s).script = s.script ∧ (stepsFrom n s).inReset = s.inReset := by
  rw [stepsFrom_frame]; exact ⟨rfl, rfl, rfl, rfl, rfl⟩

theorem stepsFrom_calm {s : State} (n : Nat) : (stepsFrom n s).calm ↔ s.calm :=
  calm_congr (stepsFrom_ops n s).2.2.2.1 (stepsFrom_ops n s).2.2.2.2

theorem stepsFrom_keyInv {s : State} (h : s.KeyInv) (n : Nat) : (stepsFrom n s).KeyInv := by
  induction n with
  | zero => exact h
  | succ n ih =>
    obtain ⟨i1, i2, i3, i4, i5, i6, i7⟩ := ih
    exact commitStep_keyInv n (s := { stepsFrom n s with mem := _, dma := _ }) ⟨i1, i2, i3, i4, i5, i6, i7⟩

theorem readFault_congr {a : Nat} {s t : State} (h : s.faults = t.faults) : readFault a s = readFault a t := by
  unfold readFault; rw [h]

theorem writeFault_congr {a : Nat} {s t : State} (h : s.faults = t.faults) : writeFault a s = writeFault a t := by
  unfold writeFault; rw [h]

/-- `n` byte steps whose accesses all succeed. -/
theorem byteSteps_ok {s : State} (hc : s.calm) (hk : s.KeyInv) (n : Nat)
    (hr : readsSucceed (opSrcAddr s) n s) (hw : writesSucceed (opDstAddr s) n s) :
    byteSteps n 0 s = .done (stepsFrom n s) := by
  induction n with
  | zero => rfl
  | succ n ih =>
    rw [byteSteps_succ_last, ih (fun j hj => hr j (by omega)) (fun j hj => hw j (by omega)), Nat.zero_add]
    obtain ⟨h1, h2, h3, -⟩ := stepsFrom_ops n s
    exact byteStep_ok ((stepsFrom_calm n).2 hc) (indicesInside_of (stepsFrom_keyInv hk n))
      (by rw [h1, readFault_congr h3]; exact hr n (Nat.lt_succ_self n))
      (by rw [h2, writeFault_congr h3]; exact hw n (Nat.lt_succ_self n))

/-- Byte steps end at the first one that fails. -/
theorem byteSteps_fail {s t : State} {e : ErrCode} (n k : Nat) (hk : k < n) (hok : byteSteps k 0 s = .done (stepsFrom k s))
    (hf : byteStep k (stepsFrom k s) = .failed e t) : byteSteps n 0 s = .failed e t := by
  obtain ⟨d, rfl⟩ : ∃ d, n = k + (d + 1) := ⟨n - k - 1, by omega⟩
  rw [byteSteps_add, hok, Nat.zero_add]
  simp only [Run.andThen, byteSteps]
  rw [hf]

/-- Host memory outside the target range is as before. -/
theorem stepsFrom_mem_outside (n : Nat) (s : State) (a : Nat) (h : a < opDstAddr s ∨ opDstAddr s + n ≤ a) :
    Memory.read (stepsFrom n s).mem a = Memory.read s.mem a := by
  induction n with
  | zero => rfl
  | succ n ih =>
    obtain ⟨-, h2, -⟩ := stepsFrom_ops n s
    simp only [stepsFrom, stepped, commitStep_mem]
    rw [Memory.read_write_other _ _ (by omega), ih (by omega)]

/-- A byte once written stays. -/
theorem stepsFrom_mem_mono {n k : Nat} (s : State) (hk : k < n) :
    Memory.read (stepsFrom n s).mem (opDstAddr s + k) =
      Memory.read (stepsFrom k s).mem (opSrcAddr s + k) ^^^ keystreamAt k s := by
  induction n with
  | zero => omega
  | succ n ih =>
    obtain ⟨h1, h2, -⟩ := stepsFrom_ops n s
    simp only [stepsFrom, stepped, commitStep_mem, h1, h2, keystreamByte_stepsFrom]
    by_cases h : k = n
    · subst h; rw [Memory.read_write_same]
    · rw [Memory.read_write_other _ _ (by omega)]
      exact ih (by omega)

/-- The plain result (R68): where no write of the command comes before a later read of the same byte. -/
theorem stepsFrom_mem_plain {n k : Nat} (s : State) (hk : k < n)
    (hs : opDstAddr s ≤ opSrcAddr s ∨ opSrcAddr s + n ≤ opDstAddr s) :
    Memory.read (stepsFrom n s).mem (opDstAddr s + k) = Memory.read s.mem (opSrcAddr s + k) ^^^ keystreamAt k s := by
  rw [stepsFrom_mem_mono s hk, stepsFrom_mem_outside k s _ (by omega)]

theorem stepsFrom_mem_wf (n : Nat) {s : State} (h : s.mem.wf = true) : (stepsFrom n s).mem.wf = true := by
  induction n with
  | zero => exact h
  | succ n ih => exact Memory.wf_write _ _ ih

theorem stepsFrom_progress (n : Nat) {s : State} (h : s.progress = 0) : (stepsFrom n s).progress = BitVec.ofNat 32 n := by
  cases n with
  | zero => exact h
  | succ n => rfl

/-! ## The start of a CIPHER (R149) -/

/-- The mode dispatch changes only the key state. -/
theorem modeDispatch_frame (s : State) :
    modeDispatch s = { s with kb := (modeDispatch s).kb, ki := (modeDispatch s).ki, si := (modeDispatch s).si } := by
  by_cases h : s.mode = .autoReset
  · have : modeDispatch s = resetCore s := if_pos h
    rw [this]; rfl
  · have : modeDispatch s = s := if_neg h
    rw [this]

theorem modeDispatch_calm {s : State} (h : s.calm) : (modeDispatch s).calm := by
  rw [modeDispatch_frame]; exact h

theorem modeDispatch_keyInv {s : State} (h : s.KeyInv) : (modeDispatch s).KeyInv := by
  unfold modeDispatch
  split
  · refine ⟨h.klen_pos, h.klen_le, h.tcnt_pos, h.tcnt_le, ?_, ?_, Nat.zero_le _⟩ <;>
      simp only [resetCore_ki, resetCore_klen] <;> have := h.klen_pos <;> omega
  · exact h

end Sys2Proof.Machine
end

