-- ==== Sys2Proof/Laws/Hosts.lean ====
section
/-! SUPPORT. A command's own actions read nothing of what hosts write while it runs: the script, the parameter registers, OVR and
the record of answers. So an access that falls into a command changes what it changes, and the command not at all. -/

namespace Sys2Proof.Machine

/-- A state with other values where hosts write: the script, the parameter registers, OVR and the answers. -/
def State.withHost (l : List Event) (r : ParamRegs) (o : Bool) (an : List Answer) (s : State) : State :=
  { s with script := l, regs := r, ovr := o, answers := an }

/-- What an access `e` before `.wait :: rest` changes of what hosts write: a CMD write while BUSY = 1 or a parameter write. -/
structure Overlay where
  /-- The access. -/
  e : Event
  /-- The script after it. -/
  rest : List Event
  /-- The parameter registers after it. -/
  regs : ParamRegs → ParamRegs
  /-- OVR after it. -/
  ovr : Bool → Bool
  /-- The window's address. -/
  base : Word
  /-- Whether the command may be over before the access. -/
  late : Prop

/-- The state after the access. -/
def Overlay.apply (w : Overlay) (s : State) : State :=
  s.withHost s.script (w.regs s.regs) (w.ovr s.ovr) (.written :: s.answers)

/-- The access is served, in a running command with reset released, as `apply` says. -/
def Overlay.Legal (w : Overlay) : Prop :=
  ∀ s : State, s.busy = true → s.inReset = false → s.cfg.base = w.base →
    serve (w.e :: .wait :: w.rest) s = { w.apply s with script := .wait :: w.rest }

/-- The access still stands in `a`'s script, and `b` is the same without it. -/
def Overlay.Ahead (w : Overlay) (a b : State) : Prop :=
  w.late ∧ ∃ left, b.script = left ++ .wait :: w.rest ∧ a = { b with script := left ++ w.e :: .wait :: w.rest }

/-- The access has fallen into the command in `a`, and `b` is the same without it. -/
def Overlay.Behind (w : Overlay) (a b : State) : Prop := b.script = .wait :: w.rest ∧ a = w.apply b

/-- A running command with reset released. -/
def Overlay.Going (w : Overlay) (b : State) : Prop := b.busy = true ∧ b.inReset = false ∧ b.cfg.base = w.base

/-- A command with the access in its script, and the same command without it, at the same point. -/
def Overlay.Rel (w : Overlay) (a b : State) : Prop := w.Going b ∧ (w.Ahead a b ∨ w.Behind a b)

/-- Two executions that agree but for the access. -/
def Overlay.RelRun (w : Overlay) : Run → Run → Prop
  | .done a, .done b => w.Rel a b
  | .failed e a, .failed e' b => e = e' ∧ w.Rel a b
  | .abandoned a, .abandoned b => w.Ahead a b
  | .stopped f, .stopped f' => f = f'
  | _, _ => False

/-- What hosts write, and what a running command keeps. -/
def State.hostPart (s : State) : List Event × ParamRegs × Bool × List Answer × Bool × Bool × Word :=
  (s.script, s.regs, s.ovr, s.answers, s.busy, s.inReset, s.cfg.base)

variable {w : Overlay}

/-- Related states differ only where hosts write. -/
theorem Overlay.Rel.eq_withHost {a b : State} (h : w.Rel a b) : ∃ l r o an, a = b.withHost l r o an := by
  rcases h.2 with ⟨-, left, -, rfl⟩ | ⟨-, rfl⟩
  · exact ⟨_, b.regs, b.ovr, b.answers, rfl⟩
  · exact ⟨_, _, _, _, rfl⟩

/-- An action that neither reads nor writes what hosts write keeps states related. -/
theorem Overlay.Rel.map {a b : State} (h : w.Rel a b) {f : State → State}
    (hf : ∀ l r o an, f (b.withHost l r o an) = (f b).withHost l r o an) (hp : (f b).hostPart = b.hostPart) :
    w.Rel (f a) (f b) := by
  simp only [State.hostPart, Prod.mk.injEq] at hp
  obtain ⟨p1, p2, p3, p4, p5, p6, p7⟩ := hp
  obtain ⟨⟨h1, h2, h3⟩, h4⟩ := h
  refine ⟨⟨p5.trans h1, p6.trans h2, p7.trans h3⟩, ?_⟩
  rcases h4 with ⟨hl, left, hs, rfl⟩ | ⟨hs, rfl⟩
  · refine .inl ⟨hl, left, p1.trans hs, ?_⟩
    refine (hf (left ++ w.e :: .wait :: w.rest) b.regs b.ovr b.answers).trans ?_
    unfold State.withHost
    rw [← p2, ← p3, ← p4]
  · refine .inr ⟨p1.trans hs, ?_⟩
    refine (hf b.script (w.regs b.regs) (w.ovr b.ovr) (.written :: b.answers)).trans ?_
    unfold Overlay.apply
    rw [p1, p2, p3, p4]

/-! ## Windows -/

/-- Events do not read the script. -/
theorem hostEvent_script (e : Event) (s : State) (l : List Event) :
    hostEvent e { s with script := l } = { hostEvent e s with script := l } := by
  have hb : ∀ a (s : State), busAccess a { s with script := l } = { busAccess a s with script := l } := by
    intro a s
    unfold busAccess
    rw [show inWindow { s with script := l } a.addr = inWindow s a.addr from rfl,
      show wellSized { s with script := l } a = wellSized s a from rfl,
      show windowOffset { s with script := l } a.addr = windowOffset s a.addr from rfl]
    split
    · rfl
    · dsimp only
      split
      · unfold accessInReset; split <;> rfl
      · split
        · rfl
        · split
          · rfl
          · rw [writeReg_script]; rfl
  cases e with
  | reg a => exact hb a s
  | releaseReset => unfold hostEvent releaseReset; dsimp only; split <;> rfl
  | resume =>
    show resumeAccess { s with script := l } = { resumeAccess s with script := l }
    unfold resumeAccess
    cases hq : s.waiting with
    | nil => simp only [hq]
    | cons a q =>
      dsimp only
      split
      · simp only [hq]
      · exact hb a { s with waiting := q }
  | _ => rfl

/-- An event in a running command leaves BUSY and the window where they are. -/
theorem hostEvent_going (e : Event) {s : State} (he : e ≠ .assertReset) (h : w.Going s) : w.Going (hostEvent e s) := by
  obtain ⟨h1, h2, h3⟩ := h
  obtain ⟨k1, k2, k3, -⟩ := hostEvent_keeps e s he h2
  refine ⟨?_, k3, by rw [k2]; exact h3⟩
  have := congrArg Engine.busy k1
  exact Eq.trans this h1

/-- The events before the access are served alike in both executions, and the access, once reached, as `apply` says. -/
theorem serve_rel (hw : w.Legal) (hl : w.late) (left : List Event) : ∀ {b : State}, w.Going b →
    (w.Rel (serve (left ++ w.e :: .wait :: w.rest) b) (serve (left ++ .wait :: w.rest) b)) ∨
    ((serve (left ++ .wait :: w.rest) b).inReset = true ∧
      w.Ahead (serve (left ++ w.e :: .wait :: w.rest) b) (serve (left ++ .wait :: w.rest) b)) := by
  induction left with
  | nil =>
    intro b hb
    refine .inl ⟨hb, .inr ⟨rfl, ?_⟩⟩
    rw [List.nil_append, hw b hb.1 hb.2.1 hb.2.2]
    rfl
  | cons e left ih =>
    intro b hb
    have ahead : w.Ahead { b with script := left ++ w.e :: .wait :: w.rest } { b with script := left ++ .wait :: w.rest } :=
      ⟨hl, left, rfl, rfl⟩
    cases e with
    | wait => exact .inl ⟨hb, .inl ⟨hl, .wait :: left, rfl, rfl⟩⟩
    | engine => exact .inl ⟨hb, .inl ahead⟩
    | assertReset => exact .inr ⟨rfl, hl, left, rfl, rfl⟩
    | reg a => exact ih (hostEvent_going (.reg a) (by simp) hb)
    | load a => exact ih (hostEvent_going (.load a) (by simp) hb)
    | store a v => exact ih (hostEvent_going (.store a v) (by simp) hb)
    | setFaults fs => exact ih (hostEvent_going (.setFaults fs) (by simp) hb)
    | releaseReset => exact ih (hostEvent_going .releaseReset (by simp) hb)
    | resume => exact ih (hostEvent_going .resume (by simp) hb)

/-- Where only other agents' accesses come before it, the access falls into the first window. -/
theorem serve_behind (hw : w.Legal) (left : List Event) : ∀ {b : State}, w.Going b →
    (∀ e ∈ left, e ≠ .engine ∧ e ≠ .wait ∧ e ≠ .assertReset) →
    w.Going (serve (left ++ .wait :: w.rest) b) ∧
      w.Behind (serve (left ++ w.e :: .wait :: w.rest) b) (serve (left ++ .wait :: w.rest) b) := by
  induction left with
  | nil =>
    intro b hb _
    refine ⟨hb, rfl, ?_⟩
    rw [List.nil_append, hw b hb.1 hb.2.1 hb.2.2]
    rfl
  | cons e left ih =>
    intro b hb hm
    obtain ⟨⟨h1, h2, h3⟩, hm⟩ := List.forall_mem_cons.1 hm
    have key := ih (hostEvent_going e h3 hb) hm
    cases e <;> first
      | exact key
      | exact absurd rfl h1
      | exact absurd rfl h2
      | exact absurd rfl h3

/-- Serving does not read the script field. -/
theorem serve_script (l : List Event) : ∀ (s : State) (m : List Event), serve l { s with script := m } = serve l s := by
  induction l with
  | nil => intro s m; rfl
  | cons e l ih =>
    intro s m
    cases e <;> first
      | rfl
      | (simp only [serve, hostEvent_script]; exact ih _ m)

/-- A window keeps the executions related: they go on related, or a reset abandons both. -/
theorem atWindow_rel (hw : w.Legal) {a b : State} {k k' : State → Run} (h : w.Rel a b)
    (hk : ∀ a b, w.Rel a b → w.RelRun (k a) (k' b)) : w.RelRun (atWindow a k) (atWindow b k') := by
  obtain ⟨hb, ⟨hl, left, hs, rfl⟩ | ⟨hs, rfl⟩⟩ := h
  · have h1 : window { b with script := left ++ w.e :: .wait :: w.rest } = serve (left ++ w.e :: .wait :: w.rest) b :=
      serve_script _ b _
    have h2 : window b = serve (left ++ .wait :: w.rest) b := by unfold window; rw [hs]
    unfold atWindow
    rw [h1, h2]
    rcases serve_rel hw hl left hb with hr | ⟨hi, hr⟩
    · have hr2 := hr
      obtain ⟨⟨-, g, -⟩, -⟩ := hr
      obtain ⟨l, r, o, an, he⟩ := hr2.eq_withHost
      rw [if_neg (by rw [he]; simp [State.withHost, g]), if_neg (by simp [g])]
      exact hk _ _ hr2
    · have hr2 := hr
      obtain ⟨-, l, -, he⟩ := hr
      rw [if_pos (by rw [he]; exact hi), if_pos hi]
      exact hr2
  · have hq : b.calm := ⟨by unfold State.quiet; rw [hs], hb.2.1⟩
    have hq' : (w.apply b).calm := hq
    rw [atWindow_of_calm hq, atWindow_of_calm hq']
    exact hk _ _ ⟨hb, .inr ⟨hs, rfl⟩⟩

/-- A window and what follows it. -/
theorem atWindow_andThen (s : State) (k : State → Run) : atWindow s k = (atWindow s .done).andThen k := by
  unfold atWindow; split <;> rfl

theorem andThen_rel {x y : Run} {k k' : State → Run} (h : w.RelRun x y)
    (hk : ∀ a b, w.Rel a b → w.RelRun (k a) (k' b)) : w.RelRun (x.andThen k) (y.andThen k') := by
  cases x <;> cases y <;> first
    | exact hk _ _ h
    | exact h
    | exact h.elim

/-! ## The commands -/

theorem dmaRead_rel {a b : State} (n : Nat) (h : w.Rel a b) :
    (dmaRead n a).1 = (dmaRead n b).1 ∧ w.Rel (dmaRead n a).2 (dmaRead n b).2 := by
  have hv : ∀ l r o an, dmaRead n (b.withHost l r o an) = ((dmaRead n b).1, (dmaRead n b).2.withHost l r o an) := by
    intro l r o an
    unfold dmaRead
    rw [show readFault n (b.withHost l r o an) = readFault n b from rfl]
    cases readFault n b <;> rfl
  constructor
  · obtain ⟨l, r, o, an, rfl⟩ := h.eq_withHost
    rw [hv]
  · exact h.map (f := fun s => (dmaRead n s).2) (fun l r o an => by rw [hv]) (by rw [dmaRead_frame]; rfl)

theorem dmaWrite_rel {a b : State} (n : Nat) (v : Byte) (h : w.Rel a b) :
    (dmaWrite n v a).1 = (dmaWrite n v b).1 ∧ w.Rel (dmaWrite n v a).2 (dmaWrite n v b).2 := by
  have hv : ∀ l r o an, dmaWrite n v (b.withHost l r o an) = ((dmaWrite n v b).1, (dmaWrite n v b).2.withHost l r o an) := by
    intro l r o an
    unfold dmaWrite
    rw [show writeFault n (b.withHost l r o an) = writeFault n b from rfl]
    cases writeFault n b <;> rfl
  constructor
  · obtain ⟨l, r, o, an, rfl⟩ := h.eq_withHost
    rw [hv]
  · exact h.map (f := fun s => (dmaWrite n v s).2) (fun l r o an => by rw [hv]) (by rw [dmaWrite_frame]; rfl)

/-- A value of the engine's part is the same in related states. -/
theorem Overlay.Rel.same {α : Type} {a b : State} (h : w.Rel a b) (g : State → α)
    (hg : ∀ l r o an, g (b.withHost l r o an) = g b) : g a = g b := by
  obtain ⟨l, r, o, an, rfl⟩ := h.eq_withHost
  exact hg l r o an

theorem loadSeed_rel (hw : w.Legal) (n : Nat) : ∀ (j : Nat) {a b : State}, w.Rel a b →
    w.RelRun (loadSeed n j a) (loadSeed n j b) := by
  induction n with
  | zero => intro j a b h; exact h
  | succ n ih =>
    intro j a b h
    rw [loadSeed, loadSeed]
    refine atWindow_rel hw h (fun a b h => ?_)
    rw [h.same opSeedAddr (fun _ _ _ _ => rfl)]
    obtain ⟨h1, h2⟩ := dmaRead_rel (opSeedAddr b + j) h
    generalize dmaRead (opSeedAddr b + j) a = x at *
    generalize dmaRead (opSeedAddr b + j) b = y at *
    obtain ⟨v, a'⟩ := x
    obtain ⟨v', b'⟩ := y
    cases h1
    cases v with
    | none => exact ⟨rfl, h2.map (f := initAbort) (fun _ _ _ _ => rfl) rfl⟩
    | some v =>
      exact ih (j + 1) (h2.map (f := fun s => { s with seedbuf := Memory.write s.seedbuf j v }) (fun _ _ _ _ => rfl) rfl)

theorem loadKey_rel (hw : w.Legal) (n : Nat) : ∀ (j : Nat) {a b : State}, w.Rel a b →
    w.RelRun (loadKey n j a) (loadKey n j b) := by
  induction n with
  | zero => intro j a b h; exact h
  | succ n ih =>
    intro j a b h
    rw [loadKey, loadKey]
    refine atWindow_rel hw h (fun a b h => ?_)
    rw [h.same opKeyAddr (fun _ _ _ _ => rfl)]
    obtain ⟨h1, h2⟩ := dmaRead_rel (opKeyAddr b + j) h
    generalize dmaRead (opKeyAddr b + j) a = x at *
    generalize dmaRead (opKeyAddr b + j) b = y at *
    obtain ⟨v, a'⟩ := x
    obtain ⟨v', b'⟩ := y
    cases h1
    cases v with
    | none => exact ⟨rfl, h2.map (f := initAbort) (fun _ _ _ _ => rfl) rfl⟩
    | some v =>
      exact ih (j + 1) (h2.map (f := fun s => { s with kb := Memory.write s.kb j v, okb := Memory.write s.okb j v })
        (fun _ _ _ _ => rfl) rfl)

theorem fillTables_withHost (n : Nat) : ∀ (t : Nat) (s : State) (l : List Event) (r : ParamRegs) (o : Bool) (an : List Answer),
    fillTables n t (s.withHost l r o an) = (fillTables n t s).withHost l r o an ∧
    (fillTables n t s).hostPart = s.hostPart := by
  have inner : ∀ (t n q : Nat) (s : State) (l : List Event) (r : ParamRegs) (o : Bool) (an : List Answer),
      fillTable t n q (s.withHost l r o an) = (fillTable t n q s).withHost l r o an ∧
      (fillTable t n q s).hostPart = s.hostPart := by
    intro t n
    induction n with
    | zero => intro q s l r o an; exact ⟨rfl, rfl⟩
    | succ n ih => intro q s l r o an; exact ih (q + 1) (hashInto (t * 256 + q * s.cfg.hashLen) s) l r o an
  induction n with
  | zero => intro t s l r o an; exact ⟨rfl, rfl⟩
  | succ n ih =>
    intro t s l r o an
    obtain ⟨h1, h2⟩ := inner t (256 / s.cfg.hashLen) 0 s l r o an
    obtain ⟨h3, h4⟩ := ih (t + 1) (fillTable t (256 / s.cfg.hashLen) 0 s) l r o an
    refine ⟨?_, h4.trans h2⟩
    show fillTables n (t + 1) (fillTable t (256 / s.cfg.hashLen) 0 (s.withHost l r o an)) = _
    rw [h1]
    exact h3

theorem generateAndDrop_rel {a b : State} (h : w.Rel a b) : w.Rel (generateAndDrop a) (generateAndDrop b) := by
  have key := fillTables_withHost (opTableCount b) 0
    { b with seedbuf := maskSeed (seedMask (opTableCount b)) b.slen b.seedbuf, gctr := 0 }
  refine h.map (f := generateAndDrop) (fun l r o an => ?_) (key [] b.regs b.ovr []).2
  exact congrArg dropSeed (key l r o an).1

theorem byteStep_rel (hw : w.Legal) (k : Nat) {a b : State} (h : w.Rel a b) : w.RelRun (byteStep k a) (byteStep k b) := by
  unfold byteStep
  rw [h.same indicesInside (fun _ _ _ _ => rfl)]
  split
  · refine atWindow_rel hw h (fun a b h => ?_)
    rw [h.same opSrcAddr (fun _ _ _ _ => rfl)]
    obtain ⟨h1, h2⟩ := dmaRead_rel (opSrcAddr b + k) h
    generalize dmaRead (opSrcAddr b + k) a = x at *
    generalize dmaRead (opSrcAddr b + k) b = y at *
    obtain ⟨v, a'⟩ := x
    obtain ⟨v', b'⟩ := y
    cases h1
    cases v with
    | none => exact ⟨rfl, h2⟩
    | some v =>
      refine atWindow_rel hw h2 (fun a b h => ?_)
      rw [h.same opDstAddr (fun _ _ _ _ => rfl), h.same keystreamByte (fun _ _ _ _ => rfl)]
      obtain ⟨h1, h2⟩ := dmaWrite_rel (opDstAddr b + k) (v ^^^ keystreamByte b) h
      generalize dmaWrite (opDstAddr b + k) (v ^^^ keystreamByte b) a = x at *
      generalize dmaWrite (opDstAddr b + k) (v ^^^ keystreamByte b) b = y at *
      obtain ⟨v, a'⟩ := x
      obtain ⟨v', b'⟩ := y
      cases h1
      cases v with
      | false => exact ⟨rfl, h2⟩
      | true => exact h2.map (f := commitStep k) (fun _ _ _ _ => rfl) rfl
  · rfl

theorem byteSteps_rel (hw : w.Legal) (n : Nat) : ∀ (k : Nat) {a b : State}, w.Rel a b →
    w.RelRun (byteSteps n k a) (byteSteps n k b) := by
  induction n with
  | zero => intro k a b h; exact h
  | succ n ih =>
    intro k a b h
    exact andThen_rel (byteStep_rel hw k h) (fun _ _ h => ih (k + 1) h)

theorem initBody_rel (hw : w.Legal) (m : BitVec 2) (d : Bool) {a b : State} (h : w.Rel a b) :
    w.RelRun (initBody m d a) (initBody m d b) := by
  unfold initBody
  cases Mode.ofField m with
  | none => exact ⟨rfl, h⟩
  | some M =>
    dsimp only
    rw [h.same (initCheck d) (fun _ _ _ _ => rfl)]
    cases initCheck d b with
    | some e => exact ⟨rfl, h⟩
    | none =>
      refine andThen_rel ?_ (fun a b h => ?_)
      · cases d with
        | true =>
          exact h.map (f := fun s =>
            { s with slen := (defaultSeed s.cfg).length, seedbuf := Memory.writeBytes s.seedbuf 0 (defaultSeed s.cfg) })
            (fun _ _ _ _ => rfl) rfl
        | false =>
          show w.RelRun (loadSeed (opSeedLen a) 0 { a with slen := opSeedLen a })
            (loadSeed (opSeedLen b) 0 { b with slen := opSeedLen b })
          rw [h.same opSeedLen (fun _ _ _ _ => rfl)]
          exact loadSeed_rel hw _ 0 (h.map (f := fun s => { s with slen := opSeedLen b }) (fun _ _ _ _ => rfl) rfl)
      · rw [h.same opKeyLen (fun _ _ _ _ => rfl)]
        refine andThen_rel (loadKey_rel hw _ 0 h) (fun a b h => ?_)
        refine atWindow_rel hw h (fun a b h => ?_)
        refine atWindow_rel hw (generateAndDrop_rel h) (fun a b h => ?_)
        refine atWindow_rel hw (h.map (f := installKey M) (fun _ _ _ _ => rfl) rfl) (fun a b h => ?_)
        exact h.map (f := fun s => resetCore { s with lc := .ready }) (fun _ _ _ _ => rfl) rfl

theorem resetStreamBody_rel {a b : State} (h : w.Rel a b) : w.RelRun (resetStreamBody a) (resetStreamBody b) := by
  unfold resetStreamBody
  rw [h.same readyCheck (fun _ _ _ _ => rfl)]
  cases readyCheck b with
  | some e => exact ⟨rfl, h⟩
  | none => exact h.map (f := resetCore) (fun _ _ _ _ => rfl) rfl

theorem modeDispatch_rel {a b : State} (h : w.Rel a b) : w.Rel (modeDispatch a) (modeDispatch b) := by
  unfold modeDispatch
  rw [h.same State.mode (fun _ _ _ _ => rfl)]
  split
  · exact h.map (f := resetCore) (fun _ _ _ _ => rfl) rfl
  · exact h

theorem cipherBody_rel (hw : w.Legal) {a b : State} (h : w.Rel a b) : w.RelRun (cipherBody a) (cipherBody b) := by
  unfold cipherBody
  rw [h.same cipherCheck (fun _ _ _ _ => rfl), h.same opLen (fun _ _ _ _ => rfl)]
  cases cipherCheck b with
  | some e => exact ⟨rfl, h⟩
  | none => exact byteSteps_rel hw _ 0 (modeDispatch_rel h)

theorem destroyBody_rel (hw : w.Legal) {a b : State} (h : w.Rel a b) : w.RelRun (destroyBody a) (destroyBody b) := by
  unfold destroyBody
  rw [h.same State.lc (fun _ _ _ _ => rfl)]
  split
  · exact h
  · refine atWindow_rel hw (h.map (f := eraseAll) (fun _ _ _ _ => rfl) rfl) (fun a b h => ?_)
    exact h.map (f := fun s => { s with lc := .destroyed }) (fun _ _ _ _ => rfl) rfl

theorem setModeBody_rel (m : BitVec 2) {a b : State} (h : w.Rel a b) : w.RelRun (setModeBody m a) (setModeBody m b) := by
  unfold setModeBody
  cases Mode.ofField m with
  | none => exact ⟨rfl, h⟩
  | some M =>
    dsimp only
    rw [h.same readyCheck (fun _ _ _ _ => rfl)]
    cases readyCheck b with
    | some e => exact ⟨rfl, h⟩
    | none => exact h.map (f := fun s => { s with mode := M }) (fun _ _ _ _ => rfl) rfl

/-- What the two executions of a command end in: the state without the access, and the same state with the access served or, where
the command is over before it, still in the script. -/
theorem command_rel (hw : w.Legal) {word : Word} {body : State → Run} (hbody : ∀ a b, w.Rel a b → w.RelRun (body a) (body b))
    {a b t : State} (h : w.RelRun (atWindow (accept word a) .done) (atWindow (accept word b) .done)) (ht : command word body b = .next t) :
    ∃ t' : State, command word body a = .next t' ∧ (w.Ahead t' t ∨ w.Behind t' t) := by
  have hr : w.RelRun (atWindow (accept word a) body).close (atWindow (accept word b) body).close := by
    have hx := andThen_rel h hbody
    rw [← atWindow_andThen, ← atWindow_andThen] at hx
    generalize atWindow (accept word a) body = x at *
    generalize atWindow (accept word b) body = y at *
    cases x with
    | done a => cases y with
      | done b => exact atWindow_rel hw hx (fun _ _ h => h)
      | _ => exact hx.elim
    | failed e a => cases y with
      | failed e' b => exact atWindow_rel hw hx.2 (fun _ _ h => ⟨hx.1, h⟩)
      | _ => exact hx.elim
    | abandoned a => cases y with
      | abandoned b => exact hx
      | _ => exact hx.elim
    | stopped f => cases y with
      | stopped f' => exact hx
      | _ => exact hx.elim
  have done : ∀ (e : ErrCode) {a b : State}, w.Rel a b → w.Ahead (complete e a) (complete e b) ∨ w.Behind (complete e a) (complete e b) := by
    intro e a b h
    rcases h.2 with ⟨hl, left, hs, rfl⟩ | ⟨hs, rfl⟩
    · exact .inl ⟨hl, left, hs, rfl⟩
    · exact .inr ⟨hs, rfl⟩
  unfold command at ht ⊢
  generalize (atWindow (accept word a) body).close = x at *
  generalize (atWindow (accept word b) body).close = y at *
  cases y with
  | done b =>
    cases ht
    cases x with
    | done a => exact ⟨_, rfl, done .none hr⟩
    | _ => exact hr.elim
  | failed e' b =>
    cases ht
    cases x with
    | failed e a => obtain ⟨rfl, hr⟩ := hr; exact ⟨_, rfl, done e hr⟩
    | _ => exact hr.elim
  | abandoned b =>
    cases ht
    cases x with
    | abandoned a => exact ⟨_, rfl, .inl hr⟩
    | _ => exact hr.elim
  | stopped f => cases ht

/-- The same of `exec`. -/
theorem exec_rel (hw : w.Legal) (i : Instr) {a b t : State}
    (h : w.RelRun (atWindow (accept (encode i) a) .done) (atWindow (accept (encode i) b) .done)) (ht : exec i b = .next t) :
    ∃ t' : State, exec i a = .next t' ∧ (w.Ahead t' t ∨ w.Behind t' t) := by
  cases i with
  | init m d => exact command_rel hw (fun _ _ h => initBody_rel hw m d h) h ht
  | resetStream => exact command_rel hw (fun _ _ h => resetStreamBody_rel h) h ht
  | cipher => exact command_rel hw (fun _ _ h => cipherBody_rel hw h) h ht
  | destroy => exact command_rel hw (fun _ _ h => destroyBody_rel hw h) h ht
  | setMode m => exact command_rel hw (fun _ _ h => setModeBody_rel m h) h ht

/-- A command with the access in its script after `before`, and the same command without it (R33, R235, R236): the access falls
into the command, at once where `before` holds no mark, or still stands in the script when the command is over. -/
theorem exec_with_access (hw : w.Legal) (hl : w.late) (i : Instr) {a b t : State} {before : List Event} (hr : b.inReset = false)
    (hc : b.cfg.base = w.base) (hb : b.script = before ++ .wait :: w.rest)
    (ha : a = { b with script := before ++ w.e :: .wait :: w.rest }) (ht : exec i b = .next t) :
    (exec i a = .next (w.apply t) ∨
      ∃ left, t.script = left ++ .wait :: w.rest ∧ exec i a = .next { t with script := left ++ w.e :: .wait :: w.rest }) ∧
    ((∀ e ∈ before, e ≠ .engine ∧ e ≠ .wait ∧ e ≠ .assertReset) → exec i a = .next (w.apply t)) := by
  subst ha
  have hg : w.Going (accept (encode i) b) := ⟨rfl, hr, hc⟩
  constructor
  · have start : w.Rel (accept (encode i) { b with script := before ++ w.e :: .wait :: w.rest }) (accept (encode i) b) :=
      ⟨hg, .inl ⟨hl, before, hb, rfl⟩⟩
    obtain ⟨t', h1, ⟨-, left, h2, rfl⟩ | ⟨-, rfl⟩⟩ := exec_rel hw i
      (atWindow_rel hw (k := .done) (k' := .done) start (fun _ _ h => h)) ht
    · exact .inr ⟨left, h2, h1⟩
    · exact .inl h1
  · intro hm
    let w' : Overlay := { w with late := False }
    have key : w'.RelRun (atWindow (accept (encode i) { b with script := before ++ w.e :: .wait :: w.rest }) .done)
        (atWindow (accept (encode i) b) .done) := by
      obtain ⟨g, h⟩ := serve_behind (w := w') hw before (b := accept (encode i) b) hg hm
      have e1 : window (accept (encode i) b) = serve (before ++ .wait :: w.rest) (accept (encode i) b) := by
        unfold window; rw [accept_script, hb]
      have e2 : window (accept (encode i) { b with script := before ++ w.e :: .wait :: w.rest }) =
          serve (before ++ w.e :: .wait :: w.rest) (accept (encode i) b) := serve_script _ (accept (encode i) b) _
      have hrel : w'.Rel (serve (before ++ w.e :: .wait :: w.rest) (accept (encode i) b))
        (serve (before ++ .wait :: w.rest) (accept (encode i) b)) := ⟨g, .inr h⟩
      obtain ⟨l, r, o, an, he⟩ := hrel.eq_withHost
      unfold atWindow
      have hr' : (serve (before ++ .wait :: w.rest) (accept (encode i) b)).inReset = false := g.2.1
      rw [e1, e2, if_neg (by rw [he]; simp [State.withHost, hr']), if_neg (by simp [hr'])]
      exact hrel
    obtain ⟨t', h1, ⟨hf, -⟩ | ⟨-, rfl⟩⟩ := exec_rel (w := w') hw i key ht
    · exact hf.elim
    · exact h1

end Sys2Proof.Machine
end

