-- ==== Sys2Proof/Laws/Invariant.lean ====
section
/-! SUPPORT. What each command's rule can end in, whatever the other agents do while it runs. -/

namespace Sys2Proof.Machine

/-- A command in execution: BUSY = 1, no code yet, the parameters `c`, canonical storages. -/
structure Running (c : Params) (s : State) : Prop where
  cfg : s.cfg = c
  canonical : s.Canonical
  busy : s.busy = true
  err : s.err = .none

/-- A command in execution with reset released. -/
def Live (c : Params) (P : State → Prop) (s : State) : Prop := Running c s ∧ s.inReset = false ∧ P s

/-- A command that reset has stopped: it has reported nothing (R230). -/
def Stopped (c : Params) (s : State) : Prop := Running c s ∧ s.inReset = true

/-- The end of a command's rule: `P` where it succeeds, `Q` where it fails, and nothing reported where reset stops it. -/
def Run.Sound (c : Params) (P : State → Prop) (Q : ErrCode → State → Prop) (r : Run) : Prop :=
  r.Ends (Live c P) (fun e => Live c (Q e)) (Stopped c)

/-- A predicate of the engine's part of the state and the parameters: no other agent's access can change it. -/
def EngineOnly (P : State → Prop) : Prop := ∀ s t, t.engine = s.engine → t.cfg = s.cfg → P s → P t

theorem Running.of_engine {c : Params} {s t : State} (he : t.engine = s.engine) (hc : t.cfg = s.cfg)
    (hm : s.mem.wf = true → t.mem.wf = true) (h : Running c s) : Running c t := by
  simp only [State.engine, Engine.mk.injEq] at he
  obtain ⟨-, -, h1, h2, -, h3, -, -, -, h4, -, -, h5, h6, -, -⟩ := he
  obtain ⟨k1, k2, k3, k4, k5⟩ := h.canonical
  exact ⟨hc.trans h.cfg, ⟨h1 ▸ k1, h2 ▸ k2, h3 ▸ k3, h4 ▸ k4, hm k5⟩, h5.trans h.busy, h6.trans h.err⟩

/-- A window keeps what the engine alone decides. -/
theorem Run.Sound.atWindow {c : Params} {I P : State → Prop} {Q : ErrCode → State → Prop} {s : State} {k : State → Run}
    (hI : EngineOnly I) (h : Live c I s) (hk : ∀ t, Live c I t → (k t).Sound c P Q) : (atWindow s k).Sound c P Q := by
  refine Run.Ends.atWindow h.2.1 ?_ ?_
  · intro t he hc _ hm hr
    exact hk t ⟨h.1.of_engine he hc hm, hr, hI s t he hc h.2.2⟩
  · intro t he hc _ hm hr
    exact ⟨h.1.of_engine he hc hm, hr⟩

theorem Run.Sound.andThen {c : Params} {P P' : State → Prop} {Q : ErrCode → State → Prop} {r : Run} {k : State → Run}
    (h : r.Sound c P Q) (hk : ∀ s, Live c P s → (k s).Sound c P' Q) : (r.andThen k).Sound c P' Q :=
  Run.Ends.andThen h hk

theorem Run.Sound.mono {c : Params} {P P' : State → Prop} {Q Q' : ErrCode → State → Prop} {r : Run}
    (h : r.Sound c P Q) (hp : ∀ s, P s → P' s) (hq : ∀ e s, Q e s → Q' e s) : r.Sound c P' Q' :=
  Run.Ends.mono h (fun s h => ⟨h.1, h.2.1, hp s h.2.2⟩) (fun e s h => ⟨h.1, h.2.1, hq e s h.2.2⟩) (fun _ h => h)

/-- What a whole command can answer: a completed command with its code, or one that reset stopped (R39, R230). -/
theorem command_sound {c : Params} {I P : State → Prop} {Q : ErrCode → State → Prop} {w : Word} {body : State → Run}
    {s : State} (hI : EngineOnly I) (hP : EngineOnly P) (hQ : ∀ e, EngineOnly (Q e)) (h : Live c I (accept w s))
    (hb : ∀ t, Live c I t → (body t).Sound c P Q) :
    (∃ t, Live c P t ∧ command w body s = .next (complete .none t)) ∨
    (∃ e t, Live c (Q e) t ∧ command w body s = .next (complete e t)) ∨
    (∃ t, Stopped c t ∧ command w body s = .next t) := by
  have h1 : (Sys2Proof.Machine.atWindow (accept w s) body).Sound c P Q := Run.Sound.atWindow hI h hb
  unfold command
  have h2 : (Sys2Proof.Machine.atWindow (accept w s) body).close.Sound c P Q := by
    revert h1
    cases Sys2Proof.Machine.atWindow (accept w s) body with
    | done u => intro hu; exact Run.Sound.atWindow hP hu (fun t ht => ht)
    | failed e u => intro hu; exact Run.Sound.atWindow (hQ e) hu (fun t ht => ht)
    | abandoned u => exact id
    | stopped f => exact id
  revert h2
  cases (Sys2Proof.Machine.atWindow (accept w s) body).close with
  | done u => intro hu; exact .inl ⟨u, hu, rfl⟩
  | failed e u => intro hu; exact .inr (.inl ⟨e, u, hu, rfl⟩)
  | abandoned u => intro hu; exact .inr (.inr ⟨u, hu, rfl⟩)
  | stopped f => intro hu; exact hu.elim

/-! ## What holds between commands -/

/-- R30 or R31, as LC says. -/
def Settled (s : State) : Prop := (s.lc = .ready → s.ReadyInv) ∧ (s.lc ≠ .ready → s.ErasedInv)

theorem readyInv_engineOnly : EngineOnly State.ReadyInv := by
  rintro s t he hc ⟨h1, h2, h3, h4, h5, h6, h7, h8, h9, h10, h11, h12, h13⟩
  simp only [State.engine, Engine.mk.injEq] at he
  obtain ⟨-, -, e1, e2, e3, e4, e5, e6, e7, e8, e9, e10, -, -, -, -⟩ := he
  constructor <;> simp only [hc, e1, e2, e3, e4, e5, e6, e7, e8, e9, e10] <;> assumption

theorem erasedInv_engineOnly : EngineOnly State.ErasedInv := by
  rintro s t he hc ⟨h1, h2, h3, h4, h5, h6, h7, h8, h9, h10, h11⟩
  simp only [State.engine, Engine.mk.injEq] at he
  obtain ⟨-, e0, e1, e2, e3, e4, e5, e6, e7, e8, e9, e10, -, -, -, -⟩ := he
  constructor <;> simp only [e0, e1, e2, e3, e4, e5, e6, e7, e8, e9, e10] <;> assumption

theorem engine_lc {s t : State} (he : t.engine = s.engine) : t.lc = s.lc := by
  simp only [State.engine, Engine.mk.injEq] at he; exact he.1

theorem settled_engineOnly : EngineOnly Settled := by
  intro s t he hc h
  unfold Settled at h ⊢
  rw [engine_lc he]
  exact ⟨fun hr => readyInv_engineOnly s t he hc (h.1 hr), fun hr => erasedInv_engineOnly s t he hc (h.2 hr)⟩

/-- R30 gives the byte step what it needs (R160). -/
theorem State.ReadyInv.keyInv {s : State} (hv : s.cfg.valid = true) (h : s.ReadyInv) : s.KeyInv := by
  have := ((params_valid_iff s.cfg).1 hv).1
  exact ⟨h.klen_pos, h.klen_le, Nat.le_trans this h.tcnt_ge, h.tcnt_le, h.ki_ge, h.ki_le, h.si_le⟩

theorem accept_settled {w : Word} {s : State} (h : Settled s) : Settled (accept w s) := by
  refine ⟨fun hl => ?_, fun hl => ?_⟩
  · obtain ⟨h1, h2, h3, h4, h5, h6, h7, h8, h9, h10, h11, h12, h13⟩ := h.1 hl
    exact ⟨h1, h2, h3, h4, h5, h6, h7, h8, h9, h10, h11, h12, h13⟩
  · obtain ⟨h1, h2, h3, h4, h5, h6, h7, h8, h9, h10, h11⟩ := h.2 hl
    exact ⟨h1, h2, h3, h4, h5, h6, h7, h8, h9, h10, h11⟩

/-! ## The rules of the commands -/

theorem Memory.zeroFrom.copyFirst {dst src : Memory} {n : Nat} (h : dst.zeroFrom n) :
    (Memory.copyFirst n dst src).zeroFrom n := by
  intro j hj
  rw [Memory.read_copyFirst, if_neg (by omega)]
  exact h j hj

theorem resetCore_live {c : Params} {s : State} (h : Live c State.ReadyInv s) : Live c State.ReadyInv (resetCore s) := by
  obtain ⟨⟨h1, ⟨c1, c2, c3, c4, c5⟩, h3, h4⟩, h5, r⟩ := h
  refine ⟨⟨h1, ⟨Memory.wf_copyFirst _ _ c1, c2, c3, c4, c5⟩, h3, h4⟩, h5, ?_⟩
  obtain ⟨r1, r2, r3, r4, r5, r6, r7, r8, r9, r10, r11, r12, r13⟩ := r
  refine ⟨r1, r2, r3, r4, ?_, ?_, Nat.zero_le _, r8.copyFirst, r9, r10, r11, r12, r13⟩ <;>
    simp only [resetCore_ki, resetCore_klen] <;> omega

/-- RESET_STREAM's rule (R141). -/
theorem resetStreamBody_sound {c : Params} {s : State} (h : Live c Settled s) :
    (resetStreamBody s).Sound c Settled (fun _ => Settled) := by
  unfold resetStreamBody readyCheck
  cases hl : s.lc with
  | uninit => exact h
  | destroyed => exact h
  | ready =>
    obtain ⟨g1, g2, g3⟩ := resetCore_live (s := s) ⟨h.1, h.2.1, h.2.2.1 hl⟩
    exact ⟨g1, g2, fun _ => g3, fun hn => absurd hl hn⟩

/-- SET_MODE's rule (R158). -/
theorem setModeBody_sound {c : Params} {s : State} (m : BitVec 2) (h : Live c Settled s) :
    (setModeBody m s).Sound c Settled (fun _ => Settled) := by
  unfold setModeBody readyCheck
  split
  · exact h
  · cases hl : s.lc with
    | uninit => exact h
    | destroyed => exact h
    | ready =>
      obtain ⟨⟨h1, ⟨c1, c2, c3, c4, c5⟩, h3, h4⟩, h5, r, -⟩ := h
      obtain ⟨r1, r2, r3, r4, r5, r6, r7, r8, r9, r10, r11, r12, r13⟩ := r hl
      exact ⟨⟨h1, ⟨c1, c2, c3, c4, c5⟩, h3, h4⟩, h5,
        fun _ => ⟨r1, r2, r3, r4, r5, r6, r7, r8, r9, r10, r11, r12, r13⟩, fun hn => absurd rfl hn⟩

theorem Memory.zeroFrom_zeros (n : Nat) : Memory.zeros.zeroFrom n := fun _ _ => rfl

theorem eraseAll_erased (s : State) : (eraseAll s).ErasedInv :=
  ⟨rfl, rfl, rfl, rfl, rfl, Memory.zeroFrom_zeros 0, Memory.zeroFrom_zeros 0, Memory.zeroFrom_zeros 0,
    Memory.zeroFrom_zeros 0, rfl, rfl⟩

/-- DESTROY's rule (R171). -/
theorem destroyBody_sound {c : Params} {s : State} (h : Live c Settled s) :
    (destroyBody s).Sound c Settled (fun _ => Settled) := by
  unfold destroyBody
  split
  · exact h
  · obtain ⟨⟨h1, ⟨c1, c2, c3, c4, c5⟩, h3, h4⟩, h5, r⟩ := h
    refine Run.Sound.atWindow (I := State.ErasedInv) erasedInv_engineOnly ?_ ?_
    · exact ⟨⟨h1, ⟨rfl, rfl, rfl, rfl, c5⟩, h3, h4⟩, h5, eraseAll_erased s⟩
    · rintro t ⟨⟨g1, ⟨d1, d2, d3, d4, d5⟩, g3, g4⟩, g5, ⟨e1, e2, e3, e4, e5, e6, e7, e8, e9, e10, e11⟩⟩
      exact ⟨⟨g1, ⟨d1, d2, d3, d4, d5⟩, g3, g4⟩, g5, fun (hn : Lifecycle.destroyed = .ready) => Lifecycle.noConfusion hn,
        fun _ => ⟨e1, e2, e3, e4, e5, e6, e7, e8, e9, e10, e11⟩⟩

/-! ## CIPHER's byte steps under any interleaving -/

theorem dmaRead_live {c : Params} {P : State → Prop} (hP : EngineOnly P) (a : Nat) {s : State} (h : Live c P s) :
    Live c P (dmaRead a s).2 := by
  obtain ⟨⟨h1, ⟨c1, c2, c3, c4, c5⟩, h3, h4⟩, h5, h6⟩ := h
  rw [dmaRead_frame]
  exact ⟨⟨h1, ⟨c1, c2, c3, c4, c5⟩, h3, h4⟩, h5, hP s _ rfl rfl h6⟩

theorem dmaWrite_live {c : Params} {P : State → Prop} (hP : EngineOnly P) (a : Nat) (b : Byte) {s : State}
    (h : Live c P s) : Live c P (dmaWrite a b s).2 := by
  have hw := dmaWrite_mem_wf a b s h.1.canonical.mem
  obtain ⟨⟨h1, ⟨c1, c2, c3, c4, c5⟩, h3, h4⟩, h5, h6⟩ := h
  rw [dmaWrite_frame]
  exact ⟨⟨h1, ⟨c1, c2, c3, c4, hw⟩, h3, h4⟩, h5, hP s _ rfl rfl h6⟩

theorem commitStep_live {c : Params} (hv : c.valid = true) (k : Nat) {s : State} (h : Live c State.ReadyInv s) :
    Live c State.ReadyInv (commitStep k s) := by
  obtain ⟨⟨h1, ⟨c1, c2, c3, c4, c5⟩, h3, h4⟩, h5, r⟩ := h
  have hk := r.keyInv (h1 ▸ hv)
  have hk' := commitStep_keyInv k hk
  have hr := wrapKi_range hk
  obtain ⟨r1, r2, r3, r4, r5, r6, r7, r8, r9, r10, r11, r12, r13⟩ := r
  refine ⟨⟨h1, ⟨Memory.wf_write _ _ c1, c2, c3, c4, c5⟩, h3, h4⟩, h5,
    ⟨r1, r2, r3, r4, hk'.ki_ge, hk'.ki_le, hk'.si_le, ?_, r9, r10, r11, r12, r13⟩⟩
  intro j hj
  rw [commitStep_klen] at hj
  rw [commitStep_kb, Memory.read_write_other _ _ (by omega)]
  exact r8 j hj

theorem ready_and_lc_engineOnly : EngineOnly (fun s => s.ReadyInv ∧ s.lc = .ready) :=
  fun s t he hc h => ⟨readyInv_engineOnly s t he hc h.1, (engine_lc he).trans h.2⟩

/-- A byte step (R142, R160): it never stops, and R30 stands after it. -/
theorem byteStep_sound {c : Params} (hv : c.valid = true) (k : Nat) {s : State}
    (h : Live c (fun s => s.ReadyInv ∧ s.lc = .ready) s) :
    (byteStep k s).Sound c (fun s => s.ReadyInv ∧ s.lc = .ready) (fun _ s => s.ReadyInv ∧ s.lc = .ready) := by
  unfold byteStep
  rw [if_pos (indicesInside_of (h.2.2.1.keyInv (h.1.cfg ▸ hv)))]
  refine Run.Sound.atWindow ready_and_lc_engineOnly h (fun t ht => ?_)
  have h1 := dmaRead_live ready_and_lc_engineOnly (opSrcAddr t + k) ht
  split
  · rename_i heq; rw [heq] at h1; exact h1
  · rename_i heq; rw [heq] at h1
    refine Run.Sound.atWindow ready_and_lc_engineOnly h1 (fun u hu => ?_)
    have h2 := dmaWrite_live ready_and_lc_engineOnly (opDstAddr u + k) (‹Byte› ^^^ keystreamByte u) hu
    split
    · rename_i heq'; rw [heq'] at h2; exact h2
    · rename_i heq'; rw [heq'] at h2
      obtain ⟨g1, g2, g3⟩ := commitStep_live hv k ⟨h2.1, h2.2.1, h2.2.2.1⟩
      exact ⟨g1, g2, g3, h2.2.2.2⟩

theorem byteSteps_sound {c : Params} (hv : c.valid = true) (n : Nat) : ∀ (k : Nat) {s : State},
    Live c (fun s => s.ReadyInv ∧ s.lc = .ready) s →
    (byteSteps n k s).Sound c (fun s => s.ReadyInv ∧ s.lc = .ready) (fun _ s => s.ReadyInv ∧ s.lc = .ready) := by
  induction n with
  | zero => intro k s h; exact h
  | succ n ih => intro k s h; exact Run.Sound.andThen (byteStep_sound hv k h) (fun t ht => ih (k + 1) ht)

/-- CIPHER's rule (R150). -/
theorem cipherBody_sound {c : Params} (hv : c.valid = true) {s : State} (h : Live c Settled s) :
    (cipherBody s).Sound c Settled (fun _ => Settled) := by
  unfold cipherBody
  split
  · exact h
  · rename_i heq
    have hl : s.lc = .ready := by
      unfold cipherCheck readyCheck at heq
      revert heq
      cases s.lc <;> simp
    have hd : Live c (fun s => s.ReadyInv ∧ s.lc = .ready) (modeDispatch s) := by
      unfold modeDispatch
      split
      · obtain ⟨g1, g2, g3⟩ := resetCore_live (s := s) ⟨h.1, h.2.1, h.2.2.1 hl⟩
        exact ⟨g1, g2, g3, hl⟩
      · exact ⟨h.1, h.2.1, h.2.2.1 hl, hl⟩
    exact (byteSteps_sound hv _ 0 hd).mono (fun t ht => ⟨fun _ => ht.1, fun hn => absurd ht.2 hn⟩)
      (fun _ t ht => ⟨fun _ => ht.1, fun hn => absurd ht.2 hn⟩)

/-! ## INIT under any interleaving -/

/-- What R121 lets pass, of the latched operands. -/
structure InitOperands (c : Params) (l : Latch) : Prop where
  tables_ge : c.minTables ≤ l.regs.tableCount.toNat
  tables_le : l.regs.tableCount.toNat ≤ c.maxTables
  key_ge : 1 ≤ l.regs.keyLen.toNat
  key_le : l.regs.keyLen.toNat ≤ c.keyMaxLen

/-- While INIT reads the seed and the key: nothing is installed, and no byte beyond the key's length is set. -/
structure Loading (l : Latch) (s : State) : Prop where
  lc : s.lc = .uninit
  latch : s.latch = l
  klen : s.klen = 0
  tcnt : s.tcnt = 0
  ki : s.ki = 0
  si : s.si = 0
  mode : s.mode = .undefined
  kb : s.kb.zeroFrom l.regs.keyLen.toNat
  okb : s.okb.zeroFrom l.regs.keyLen.toNat
  st : s.st.zeroFrom 0
  gctr : s.gctr = 0

/-- After the generator has run and the seed is dropped (R122). -/
structure Generated (l : Latch) (s : State) : Prop where
  lc : s.lc = .uninit
  latch : s.latch = l
  kb : s.kb.zeroFrom l.regs.keyLen.toNat
  okb : s.okb.zeroFrom l.regs.keyLen.toNat
  st : s.st.zeroFrom (l.regs.tableCount.toNat * 256)
  seedbuf : s.seedbuf.zeroFrom 0
  slen : s.slen = 0
  gctr : s.gctr = 0

/-- After INIT's installation and before LC changes (R122). -/
structure Installed (l : Latch) (s : State) : Prop where
  generated : Generated l s
  klen : s.klen = l.regs.keyLen.toNat
  tcnt : s.tcnt = l.regs.tableCount.toNat

theorem loading_engineOnly (l : Latch) : EngineOnly (Loading l) := by
  rintro s t he hc ⟨h1, h2, h3, h4, h5, h6, h7, h8, h9, h10, h11⟩
  simp only [State.engine, Engine.mk.injEq] at he
  obtain ⟨e0, e1, e2, e3, e4, e5, e6, e7, e8, e9, e10, e11, -, -, -, e12⟩ := he
  constructor <;> simp only [e0, e1, e2, e3, e4, e5, e6, e7, e8, e11, e12] <;> assumption

theorem generated_engineOnly (l : Latch) : EngineOnly (Generated l) := by
  rintro s t he hc ⟨h1, h2, h3, h4, h5, h6, h7, h8⟩
  simp only [State.engine, Engine.mk.injEq] at he
  obtain ⟨e0, e1, e2, e3, e4, e5, e6, e7, e8, e9, e10, e11, -, -, -, e12⟩ := he
  constructor <;> simp only [e0, e2, e3, e5, e9, e10, e11, e12] <;> assumption

theorem installed_engineOnly (l : Latch) : EngineOnly (Installed l) := by
  rintro s t he hc ⟨h1, h2, h3⟩
  have h := generated_engineOnly l s t he hc h1
  simp only [State.engine, Engine.mk.injEq] at he
  obtain ⟨e0, e1, e2, e3, e4, e5, e6, e7, e8, e9, e10, e11, -, -, -, e12⟩ := he
  exact ⟨h, e4.trans h2, e6.trans h3⟩

/-- `InitAbort()` leaves the engine erased (R124). -/
theorem initAbort_live {c : Params} {l : Latch} {s : State} (h : Live c (Loading l) s) :
    Live c (fun t => t.ErasedInv ∧ t.lc = .uninit) (initAbort s) := by
  obtain ⟨⟨h1, ⟨c1, c2, c3, c4, c5⟩, h3, h4⟩, h5, ⟨r1, r2, r3, r4, r5, r6, r7, r8, r9, r10, r11⟩⟩ := h
  refine ⟨⟨h1, ⟨Memory.wf_zeroFirst _ c1, Memory.wf_zeroFirst _ c2, c3, rfl, c5⟩, h3, h4⟩, h5,
    ⟨r3, r4, r5, r6, r7, ?_, ?_, r10, Memory.zeroFrom_zeros 0, rfl, rfl⟩, r1⟩
  · intro j _
    rw [initAbort_kb, Memory.read_zeroFirst]
    split
    · rfl
    · rename_i hj; exact r8 j (by unfold opKeyLen at hj; rw [r2] at hj; omega)
  · intro j _
    rw [initAbort_okb, Memory.read_zeroFirst]
    split
    · rfl
    · rename_i hj; exact r9 j (by unfold opKeyLen at hj; rw [r2] at hj; omega)

/-- The seed reads (R66, R124). -/
theorem loadSeed_sound {c : Params} {l : Latch} (n : Nat) : ∀ (j : Nat) {s : State}, Live c (Loading l) s →
    (loadSeed n j s).Sound c (Loading l) (fun _ t => t.ErasedInv ∧ t.lc = .uninit) := by
  induction n with
  | zero => intro j s h; exact h
  | succ n ih =>
    intro j s h
    rw [loadSeed]
    refine Run.Sound.atWindow (loading_engineOnly l) h (fun t ht => ?_)
    have h1 := dmaRead_live (loading_engineOnly l) (opSeedAddr t + j) ht
    split
    · rename_i heq; rw [heq] at h1; exact initAbort_live h1
    · rename_i heq; rw [heq] at h1
      obtain ⟨⟨h1, ⟨c1, c2, c3, c4, c5⟩, h3, h4⟩, h5, ⟨r1, r2, r3, r4, r5, r6, r7, r8, r9, r10, r11⟩⟩ := h1
      exact ih (j + 1) ⟨⟨h1, ⟨c1, c2, c3, Memory.wf_write _ _ c4, c5⟩, h3, h4⟩, h5,
        ⟨r1, r2, r3, r4, r5, r6, r7, r8, r9, r10, r11⟩⟩

theorem Memory.zeroFrom.write {m : Memory} {n j : Nat} (b : Byte) (h : m.zeroFrom n) (hj : j < n) :
    (Memory.write m j b).zeroFrom n := by
  intro i hi
  rw [Memory.read_write_other _ _ (by omega)]
  exact h i hi

/-- The key reads (R66, R124). -/
theorem loadKey_sound {c : Params} {l : Latch} (n : Nat) : ∀ (j : Nat) {s : State}, j + n ≤ l.regs.keyLen.toNat →
    Live c (Loading l) s → (loadKey n j s).Sound c (Loading l) (fun _ t => t.ErasedInv ∧ t.lc = .uninit) := by
  induction n with
  | zero => intro j s _ h; exact h
  | succ n ih =>
    intro j s hj h
    rw [loadKey]
    refine Run.Sound.atWindow (loading_engineOnly l) h (fun t ht => ?_)
    have h1 := dmaRead_live (loading_engineOnly l) (opKeyAddr t + j) ht
    split
    · rename_i heq; rw [heq] at h1; exact initAbort_live h1
    · rename_i heq; rw [heq] at h1
      obtain ⟨⟨h1, ⟨c1, c2, c3, c4, c5⟩, h3, h4⟩, h5, ⟨r1, r2, r3, r4, r5, r6, r7, r8, r9, r10, r11⟩⟩ := h1
      exact ih (j + 1) (by omega) ⟨⟨h1, ⟨Memory.wf_write _ _ c1, Memory.wf_write _ _ c2, c3, c4, c5⟩, h3, h4⟩, h5,
        ⟨r1, r2, r3, r4, r5, r6, r7, r8.write _ (by omega), r9.write _ (by omega), r10, r11⟩⟩

/-- "load seed into scratch" (R122, R125). -/
theorem takeSeed_sound {c : Params} {l : Latch} (d : Bool) {s : State} (h : Live c (Loading l) s) :
    (takeSeed d s).Sound c (Loading l) (fun _ t => t.ErasedInv ∧ t.lc = .uninit) := by
  obtain ⟨⟨h1, ⟨c1, c2, c3, c4, c5⟩, h3, h4⟩, h5, ⟨r1, r2, r3, r4, r5, r6, r7, r8, r9, r10, r11⟩⟩ := h
  cases d with
  | true =>
    exact ⟨⟨h1, ⟨c1, c2, c3, Memory.wf_writeBytes _ _ c4, c5⟩, h3, h4⟩, h5,
      ⟨r1, r2, r3, r4, r5, r6, r7, r8, r9, r10, r11⟩⟩
  | false =>
    exact loadSeed_sound _ 0 ⟨⟨h1, ⟨c1, c2, c3, c4, c5⟩, h3, h4⟩, h5, ⟨r1, r2, r3, r4, r5, r6, r7, r8, r9, r10, r11⟩⟩

/-- Generation and the dropping of the seed (R106, R127). -/
theorem generateAndDrop_live {c : Params} (hv : c.valid = true) {l : Latch} {s : State} (h : Live c (Loading l) s) :
    Live c (Generated l) (generateAndDrop s) := by
  obtain ⟨⟨h1, ⟨c1, c2, c3, c4, c5⟩, h3, h4⟩, h5, ⟨r1, r2, r3, r4, r5, r6, r7, r8, r9, r10, r11⟩⟩ := h
  have hv' : s.cfg.valid = true := h1 ▸ hv
  have g := generateSchedule_spec hv' (opTableCount s)
  have hst := g.wf c3
  have hrest := g.rest
  unfold generateAndDrop
  generalize generateSchedule (opTableCount s) s = u at *
  rw [g.frame]
  refine ⟨⟨h1, ⟨c1, c2, hst, rfl, c5⟩, h3, h4⟩, h5, ⟨r1, r2, r8, r9, ?_, Memory.zeroFrom_zeros 0, rfl, rfl⟩⟩
  intro j hj
  have := hrest j (by
    show opTableCount s * (256 / s.cfg.hashLen) * s.cfg.hashLen ≤ j
    rw [Nat.mul_assoc, hashLen_mul hv']
    unfold opTableCount; rw [r2]; exact hj)
  exact this.trans (r10 j (Nat.zero_le j))

/-- INIT after its validation (R122, R123, R124). -/
theorem initRun_sound {c : Params} (hv : c.valid = true) {l : Latch} (ho : InitOperands c l) (m : Mode) (d : Bool)
    {s : State} (h : Live c (Loading l) s) :
    (initRun m d s).Sound c (fun t => t.ReadyInv ∧ t.lc = .ready) (fun _ t => t.ErasedInv ∧ t.lc = .uninit) := by
  refine Run.Sound.andThen (takeSeed_sound d h) (fun s1 h1 => ?_)
  refine Run.Sound.andThen (loadKey_sound _ 0 ?_ h1) (fun s2 h2 => ?_)
  · rw [Nat.zero_add]; unfold opKeyLen; rw [h1.2.2.latch]
  refine Run.Sound.atWindow (loading_engineOnly l) h2 (fun s3 h3 => ?_)
  refine Run.Sound.atWindow (generated_engineOnly l) (generateAndDrop_live hv h3) (fun s4 h4 => ?_)
  refine Run.Sound.atWindow (installed_engineOnly l) (s := installKey m s4) ?_ (fun s5 h5 => ?_)
  · obtain ⟨⟨g1, ⟨c1, c2, c3, c4, c5⟩, g3, g4⟩, g5, ⟨r1, r2, r3, r4, r5, r6, r7, r8⟩⟩ := h4
    exact ⟨⟨g1, ⟨c1, c2, c3, c4, c5⟩, g3, g4⟩, g5, ⟨r1, r2, r3, r4, r5, r6, r7, r8⟩,
      congrArg (fun l : Latch => l.regs.keyLen.toNat) r2, congrArg (fun l : Latch => l.regs.tableCount.toNat) r2⟩
  · obtain ⟨⟨g1, ⟨c1, c2, c3, c4, c5⟩, g3, g4⟩, g5, ⟨r1, r2, r3, r4, r5, r6, r7, r8⟩, k1, k2⟩ := h5
    refine ⟨⟨g1, ⟨Memory.wf_copyFirst _ _ c1, c2, c3, c4, c5⟩, g3, g4⟩, g5, ⟨?_, ?_, ?_, ?_, ?_, ?_, ?_, ?_, ?_, ?_, r6, r7,
      r8⟩, rfl⟩
    · show 1 ≤ s5.klen; rw [k1]; exact ho.key_ge
    · show s5.klen ≤ s5.cfg.keyMaxLen; rw [k1, g1]; exact ho.key_le
    · show s5.cfg.minTables ≤ s5.tcnt; rw [k2, g1]; exact ho.tables_ge
    · show s5.tcnt ≤ s5.cfg.maxTables; rw [k2, g1]; exact ho.tables_le
    · show -1 ≤ (s5.klen : Int) - 1; omega
    · exact Int.le_refl _
    · exact Nat.zero_le _
    · show (Memory.copyFirst s5.klen s5.kb s5.okb).zeroFrom s5.klen
      rw [k1]; exact r3.copyFirst
    · show s5.okb.zeroFrom s5.klen
      rw [k1]; exact r4
    · show s5.st.zeroFrom (s5.tcnt * 256)
      rw [k2]; exact r5

/-- INIT's rule (R122). -/
theorem initBody_sound {c : Params} (hv : c.valid = true) (m : BitVec 2) (d : Bool) {s : State} (h : Live c Settled s) :
    (initBody m d s).Sound c Settled (fun _ => Settled) := by
  unfold initBody
  split
  · exact h
  · split
    · exact h
    · rename_i heq
      unfold initCheck at heq
      split at heq; · cases heq
      split at heq; · cases heq
      split at heq; · cases heq
      split at heq; · cases heq
      split at heq; · cases heq
      rename_i hd hr ht hk hk'
      have hc := h.1.cfg
      have hl : s.lc = .uninit := by
        revert hd hr; cases s.lc <;> simp
      have ho : InitOperands c s.latch := by
        unfold opTableCount at ht; unfold opKeyLen at hk hk'
        rw [hc] at ht hk'
        exact ⟨by omega, by omega, by omega, by omega⟩
      obtain ⟨g1, g2, g3⟩ := h
      obtain ⟨e1, e2, e3, e4, e5, e6, e7, e8, e9, e10, e11⟩ := g3.2 (by rw [hl]; exact Lifecycle.noConfusion)
      have hload : Live c (Loading s.latch) s := ⟨g1, g2, ⟨hl, rfl, e1, e2, e3, e4, e5, fun j _ => e6 j (Nat.zero_le j),
        fun j _ => e7 j (Nat.zero_le j), e8, e11⟩⟩
      exact (initRun_sound hv ho _ d hload).mono (fun t ht => ⟨fun _ => ht.1, fun hn => absurd ht.2 hn⟩)
        (fun _ t ht => ⟨fun hn => by rw [ht.2] at hn; exact Lifecycle.noConfusion hn, fun _ => ht.1⟩)

end Sys2Proof.Machine
end

