-- ==== Sys2Proof/Laws/PerInstr.lean ====
section
/-! SUPPORT. Statements about every command as syntax, one lemma per constructor of Instr. -/

namespace Sys2Proof.Laws.OpField

/-- The command's OP code (R81). -/
def code : Instr → BitVec 4
  | .init _ _ => 1
  | .resetStream => 2
  | .cipher => 3
  | .destroy => 4
  | .setMode _ => 5

/-- A command's CMD word carries its OP code in bits [3:0] and nothing in the reserved bits [31:7] (R80, R81, R84). -/
def Statement (i : Instr) : Prop := opField (encode i) = code i ∧ reservedField (encode i) = 0

theorem init (mode : BitVec 2) (defseed : Bool) : Statement (.init mode defseed) := by
  unfold Statement
  revert mode defseed
  decide

theorem resetStream : Statement .resetStream := by unfold Statement; decide

theorem cipher : Statement .cipher := by unfold Statement; decide

theorem destroy : Statement .destroy := by unfold Statement; decide

theorem setMode (mode : BitVec 2) : Statement (.setMode mode) := by
  unfold Statement
  revert mode
  decide

end Sys2Proof.Laws.OpField
end

