-- ==== Sys2Proof/Tests/Slice0.lean ====
section
/-! SUPPORT. The model's own tests, and for every obligation with hypotheses a concrete state that meets them together. Expected
values are those of spec/95_test_vectors.md and of the worked examples named; none is the model's own answer. -/

namespace Sys2Proof.Tests

open Sys2Proof.Machine

/-! ## Well-formedness: each check refuses an ill-formed term -/

theorem test_init_mode_three_is_ill_formed : (Instr.init 3 false).wellFormed = false ∧ (Instr.init 3 true).wellFormed = false := by
  decide

theorem test_setMode_three_is_ill_formed : (Instr.setMode 3).wellFormed = false := by decide

theorem test_other_commands_are_well_formed :
    [Instr.init 2 true, .resetStream, .cipher, .destroy, .setMode 2].map Instr.wellFormed = [true, true, true, true, true] := by
  decide

/-! ## Decoding: words written out from the formats of R80 and R85 -/

theorem test_decode_init : decodeTableWord 32 0b00000000000000000000000001010001 = some (.init 1 true) ∧
    decodeTableWord 32 0b00000000000000000000000000100001 = some (.init 2 false) ∧
    decodeTableWord 32 0b00000000000000000000000000000001 = some (.init 0 false) := by decide

theorem test_decode_resetStream : decodeTableWord 32 0b00000000000000000000000000000010 = some .resetStream := by decide

theorem test_decode_cipher : decodeTableWord 32 0b00000000000000000000000000000011 = some .cipher := by decide

theorem test_decode_destroy : decodeTableWord 32 0b00000000000000000000000000000100 = some .destroy := by decide

theorem test_decode_setMode : decodeTableWord 32 0b00000000000000000000000000100101 = some (.setMode 2) ∧
    decodeTableWord 32 0b00000000000000000000000000000101 = some (.setMode 0) := by decide

/-- The illegal words of 95 section 4.1. -/
theorem test_decode_refuses : ∀ w ∈ [0x00, 0x06, 0x0F, 0x31, 0x71, 0x12, 0x42, 0x13, 0x43, 0x14, 0x35, 0x45, 0x80, 0x100,
    0x80000003], decodeTableWord 32 w = none := by decide

theorem test_encode_is_written_out :
    [Instr.init 1 true, .resetStream, .cipher, .destroy, .setMode 1].map encode = [0x51, 0x02, 0x03, 0x04, 0x15] := by decide

/-! ## The hash and the schedule (95 section 1) -/

/-- V1.1, RFC 4231 test case 2. -/
theorem test_hmac_sha256 :
    hmacSha256 [0x4a, 0x65, 0x66, 0x65]
      [0x77, 0x68, 0x61, 0x74, 0x20, 0x64, 0x6f, 0x20, 0x79, 0x61, 0x20, 0x77, 0x61, 0x6e, 0x74, 0x20, 0x66, 0x6f, 0x72, 0x20,
       0x6e, 0x6f, 0x74, 0x68, 0x69, 0x6e, 0x67, 0x3f] =
    bigEndian 32 0x5bdcc146bf60754e6a042426089575c75a003f089d2739839dec58b964ec3843 := by decide +kernel

/-- V1.2, counter 7 of the empty seed. -/
theorem test_hash_of_empty_seed :
    hashBytes Config.defaults [] (be64 7) =
    bigEndian 32 0xfd6c2087de4441030fcf8895ffba9c1ea82f70a58e09c7803dfc228ccded1660 := by decide +kernel

/-- V1.3: the transformed seed of "NASCCL" for two tables, and the first hash of table 1, at counter 8. -/
theorem test_second_table_of_nasccl :
    maskedSeed 2 [0x4e, 0x41, 0x53, 0x43, 0x43, 0x4c] = [0x4c, 0x43, 0x51, 0x41, 0x41, 0x4e] ∧
    hashBytes Config.defaults [0x4c, 0x43, 0x51, 0x41, 0x41, 0x4e] (be64 8) =
      bigEndian 32 0x8f75b2856405398fb983e09b8f95ae70aa0ddf05678dc4ca21371340218bcaae := by decide +kernel

/-! ## Small states -/

/-- What a test looks at in the next state; none where the machine stops. -/
def after {α : Type} (f : State → α) : Host.Outcome State Fault Refusal → Option α
  | .next s => some (f s)
  | .fault _ => none
  | .refused _ => none

/-- After reset, with a one-byte key 00 at 0x2000, one table and the empty seed (41_init.md R130); the host WAITs. -/
def freshState : State :=
  { State.reset with
    regs := { State.reset.regs with keyAddr := 0x2000, keyLen := 1, tableCount := 1 }, script := [.wait] }

/-- The READY engine of 95 section 3 V3.1 at its reset point: key 01 02 03, two tables, of whose bytes only those its trace reads
are listed; "ABCDE" at 0x3000, target 0x4000. -/
def readyState (mode : Mode) : State :=
  { State.reset with
    lc := .ready, mode := mode, kb := [(0, 1), (1, 2), (2, 3)], okb := [(0, 1), (1, 2), (2, 3)], klen := 3,
    st := [(0, 0xce), (1, 0x29), (3, 0x9c), (15, 0x1a), (258, 0xb2), (266, 0xe0), (270, 0xae)], tcnt := 2, ki := 2, si := 0,
    mem := [(0x3000, 0x41), (0x3001, 0x42), (0x3002, 0x43), (0x3003, 0x44), (0x3004, 0x45)],
    regs := { State.reset.regs with srcAddr := 0x3000, dstAddr := 0x4000, len := 5 } }

/-- The same engine after V3.1's five byte steps. -/
def usedState (mode : Mode) : State := { readyState mode with kb := [(0, 10), (1, 3)], ki := 0, si := 1 }

/-- A destroyed block. -/
def destroyedState : State := { State.reset with lc := .destroyed }

/-- The platform makes DMA writes to an address fail and leaves its byte as it was. -/
def writeFails (a : Nat) : DmaFault := { addr := a, onRead := false, onWrite := true, leaves := none }

/-- The platform makes DMA reads of an address fail. -/
def readFails (a : Nat) : DmaFault := { addr := a, onRead := true, onWrite := false, leaves := none }

/-- Key bytes, and KI and SI, as the test port would show them. -/
def keyState (s : State) : List Byte × Int × Nat := (Memory.bytes s.kb 0 3, s.ki, s.si)

/-! ## One test of each command's effect, one of an error -/

/-- The worked example of 41_init.md R130. -/
theorem test_init_worked_example :
    after (fun s => (Memory.bytes s.st 0 16, s.klen, s.tcnt, s.ki, s.si, statusWord s)) (exec (.init 1 false) freshState) =
    some ([0xf3, 0x75, 0x18, 0x0a, 0xba, 0x92, 0x88, 0x84, 0x01, 0xf1, 0x91, 0x9b, 0xe4, 0xa8, 0x71, 0x5a], 1, 1, 0, 0, 0x14) := by
  decide +kernel

/-- V4.3.16: both a seed byte and a key byte fault; the seed read fails first and the key is never read. -/
theorem test_init_seed_fault :
    after (fun s => (statusWord s, s.dma, s.kb))
      (exec (.init 1 false) { freshState with
        regs := { freshState.regs with seedAddr := 0x1000, seedLen := 3, keyLen := 2 },
        faults := [readFails 0x1001, readFails 0x2001] }) =
    some (0xA00, [.read 0x1001 false, .read 0x1000 true], []) := by decide +kernel

/-- V4.4.3. -/
theorem test_resetStream_after_cipher :
    after keyState (exec .resetStream (usedState .continuous)) = some ([1, 2, 3], 2, 0) := by decide

/-- V3.1, with PROGRESS. -/
theorem test_cipher_trace :
    after (fun s => (Memory.bytes s.mem 0x4000 5, keyState s, s.progress, statusWord s)) (exec .cipher (readyState .continuous)) =
    some ([0xdd, 0xf0, 0x6a, 0xea, 0x5f], ([0x0a, 0x03, 0x00], 0, 1), 5, 0x24) := by decide +kernel

/-- V4.5.11: a bus error on the write of byte 2. -/
theorem test_cipher_bus_error :
    after (fun s => (Memory.bytes s.mem 0x4000 5, keyState s, s.progress, statusWord s))
      (exec .cipher { readyState .continuous with faults := [writeFails 0x4002] }) =
    some ([0xdd, 0xf0, 0x00, 0x00, 0x00], ([0x01, 0x0f, 0x0e], 0, 2), 2, 0xA24) := by decide +kernel

/-- V4.6.2's SET_MODE, and V4.6.1's from UNINIT. -/
theorem test_setMode :
    after statusWord (exec (.setMode 1) (readyState .undefined)) = some 0x14 ∧
    after statusWord (exec (.setMode 2) State.reset) = some 0x300 := by decide

/-- V4.7.2, and V4.7.5's registers. -/
theorem test_destroy_after_cipher :
    after (fun s => (statusWord s, s.kb, s.st)) (exec .destroy (usedState .continuous)) = some (0x08, [], []) ∧
    after (fun s => ([s.klen, s.tcnt, s.si], s.ki, s.regs.len)) (exec .destroy (usedState .continuous)) = some ([0, 0, 0], 0, 5) := by
  decide

/-- V4.7.4's CIPHER, and 95 section 4.1's word 0x31 from DESTROYED. -/
theorem test_destroyed_rejects :
    after statusWord (exec .cipher destroyedState) = some 0x408 ∧
    after statusWord (step { destroyedState with script := [.reg (regWrite 0 0 0x31)] }) = some 0x708 := by decide

/-! ## Parts of the byte step, the overlap of ranges, the register window -/

/-- V3.2 step 1: both indices wrap at once. -/
theorem test_byteStep_wraps :
    (let s := { readyState .continuous with kb := [(0, 6), (1, 3)], ki := -1, si := 2 }
     (wrapKi s, wrapSi s, keystreamByte s, keyMask s)) = (2, 0, 0xce, 0x0d) := by decide

/-- V4.9.1: the mask is 0 for a key of 246 bytes at its first step. -/
theorem test_mask_can_be_zero : keyMask { readyState .continuous with klen := 246, ki := 245 } = 0 := by decide

/-- V4.5.9: the target runs one byte ahead of the source. -/
theorem test_cipher_target_ahead :
    after (fun s => Memory.bytes s.mem 0x3000 6)
      (exec .cipher ((readyState .autoReset).setCipher 0x3000 0x3001 5)) = some [0x41, 0xdd, 0x6f, 0x46, 0xe8, 0xf2] := by
  decide +kernel

/-- V4.8.3: what OVR does in STATUS. -/
theorem test_status_ovr :
    statusWord { readyState .autoReset with ovr := true } = 0x16 ∧
    (writeReg 0x04 0 { readyState .autoReset with ovr := true }).ovr = true ∧
    (writeReg 0x04 2 { readyState .autoReset with ovr := true }).ovr = false := by decide

/-- V4.8.4. -/
theorem test_ki_reads_as_all_ones :
    readReg 0x4C { readyState .autoReset with ki := -1, cfg := { Config.defaults with testPort := true } } = 0xFFFFFFFF := by
  decide

/-- P5 outcome (a): the DESTROY falls into the running CIPHER and is dropped. -/
theorem test_overrun_dropped :
    after statusWord (step { readyState .autoReset with script := [.reg (regWrite 0 0 3), .reg (regWrite 0 0 4), .wait] }) =
    some 0x16 := by decide +kernel

/-- P5 outcome (b): the CIPHER completes first and the DESTROY is left to the next step. -/
theorem test_overrun_after_completion :
    after (fun s => (statusWord s, s.script)) (step { readyState .autoReset with
      script := [.reg (regWrite 0 0 3), .wait, .reg (regWrite 0 0 4)] }) =
    some (0x14, [.wait, .reg (regWrite 0 0 4)]) := by decide +kernel

/-- R231 and R40: between the post-reset erase and the fall of BUSY STATUS reads BUSY = 1 and MODE = 0, and then 0. -/
theorem test_status_in_post_reset_erase :
    after statusWord (step { usedState .continuous with lc := .uninit, busy := true, script := [.engine] }) = some 0x01 ∧
    after statusWord (step { State.reset with busy := true, script := [.engine] }) = some 0x00 := by decide

/-- The host's placing of a word: the first step after reset runs it. -/
theorem test_withFetchWord_runs_it :
    after statusWord (step (State.reset.withFetchWord 32 0x03)) = some 0x300 ∧
    after statusWord (step (State.reset.withFetchWord 32 0x04)) = some 0x08 := by decide

/-! ## Witnesses: states that meet the hypotheses of the obligations -/

theorem witness_default_valid : Config.defaults.valid = true := by decide

theorem resetState_calm : State.reset.calm := ⟨rfl, rfl⟩

theorem freshState_calm : freshState.calm := ⟨rfl, rfl⟩

theorem readyState_calm (m : Mode) : (readyState m).calm := ⟨rfl, rfl⟩

/-- The key state of `readyState` meets `KeyInv`. -/
theorem readyState_keyInv (m : Mode) : (readyState m).KeyInv := by
  constructor <;> cases m <;> decide

/-- `readyState` with its indices at rest after a wrap: KI = -1 and SI = TCNT, the ends of their ranges. -/
theorem restingState_keyInv (m : Mode) : ({ readyState m with ki := -1, si := 2 } : State).KeyInv := by
  constructor <;> cases m <;> decide

theorem freshState_erased : freshState.ErasedInv := by
  constructor <;> first | rfl | exact fun _ _ => rfl

/-- A READY state meets the invariant. -/
theorem witness_StepKeepsInvariant : (readyState .autoReset).Inv ∧ ∃ t, step (readyState .autoReset) = .next t := by
  refine ⟨⟨by decide, ⟨by decide, by decide, by decide, by decide, by decide⟩, by decide, fun _ _ _ => ?_, ?_⟩, ⟨_, rfl⟩⟩
  · constructor
    case kb_zero => exact Memory.read_of_below (by decide)
    case okb_zero => exact Memory.read_of_below (by decide)
    case st_zero => exact Memory.read_of_below (by decide)
    case seedbuf_zero => exact fun _ _ => rfl
    all_goals decide
  · intro _ _ h; exact absurd rfl h

/-- A destroyed state and one under a running post-reset erase meet the invariant. -/
theorem witness_EveryStepFromInvariantGoesOn :
    destroyedState.Inv ∧ ({ readyState .continuous with lc := .uninit, busy := true } : State).Inv := by
  refine ⟨⟨by decide, ⟨by decide, by decide, by decide, by decide, by decide⟩, by decide, ?_, fun _ _ _ => ?_⟩,
    ⟨by decide, ⟨by decide, by decide, by decide, by decide, by decide⟩, fun _ _ => rfl, ?_, ?_⟩⟩
  · intro _ _ h; cases h
  · constructor <;> first | rfl | exact fun _ _ => rfl
  · intro _ h; cases h
  · intro _ h; cases h

/-- Hypotheses of IllegalWordsFailInEveryState on the state. -/
theorem witness_IllegalWordsFailInEveryState (w : Word) :
    ∃ s : State, s.cfg.valid = true ∧ s.busy = false ∧ s.script = .reg (regWrite s.cfg.base 0 w) :: [] ∧
      ({ s with script := [] } : State).calm :=
  ⟨{ destroyedState with script := [.reg (regWrite 0 0 w)] }, witness_default_valid, rfl, rfl, ⟨rfl, rfl⟩⟩

/-- Its hypothesis on the word: words of each clause of R208, at the ends of each clause's range. -/
theorem witness_IllegalWordsFailInEveryState_words :
    ∀ w ∈ [0x00#32, 0x06, 0x0F, 0x80, 0x80000003, 0x31, 0x35, 0x12, 0x34, 0x42, 0x45, 0x46],
      (w.extractLsb' 0 4 = 0 ∨ 6 ≤ (w.extractLsb' 0 4).toNat ∨ w.extractLsb' 7 25 ≠ 0 ∨
        ((w.extractLsb' 0 4 = 1 ∨ w.extractLsb' 0 4 = 5) ∧ w.extractLsb' 4 2 = 3) ∨
        ((w.extractLsb' 0 4 = 2 ∨ w.extractLsb' 0 4 = 3 ∨ w.extractLsb' 0 4 = 4) ∧ w.extractLsb' 4 2 ≠ 0) ∨
        (w.extractLsb' 0 4 ≠ 1 ∧ w.getLsbD 6 = true)) := by simp

theorem witness_ModeThreeIsIllegal : State.reset.calm ∧ destroyedState.calm := ⟨⟨rfl, rfl⟩, ⟨rfl, rfl⟩⟩

/-- Hypotheses of StepRunsDecodedCommand. -/
theorem witness_StepRunsDecodedCommand :
    ∃ s : State, s.cfg.valid = true ∧ s.busy = false ∧ s.inReset = false ∧
      s.script = .reg (regWrite s.cfg.base 0 0x25) :: [] ∧ decode 0x25 = .ok (.setMode 2) :=
  ⟨{ readyState .autoReset with script := [.reg (regWrite 0 0 0x25)] }, by decide, rfl, rfl, rfl, rfl⟩

/-- Hypotheses of CommandDuringEraseOnlySetsOvr. -/
theorem witness_CommandDuringEraseOnlySetsOvr :
    ∃ s : State, s.cfg.valid = true ∧ s.busy = true ∧ s.inReset = false ∧ s.script = .reg (regWrite s.cfg.base 0 4) :: [] :=
  ⟨{ State.reset with busy := true, script := [.reg (regWrite 0 0 4)] }, by decide, rfl, rfl, rfl⟩

/-- Hypotheses of CommandDuringCommandIsLost: the write at once, after other agents' accesses, and after actions of the engine. -/
theorem witness_CommandDuringCommandIsLost :
    ∀ before ∈ [[], [Event.load 0x4000, .reg (regWrite 0 0x2C 1), .store 0x3001 7], [.engine, .engine, .load 0x4000]],
      ∃ s t : State, s.inReset = false ∧ s.script = before ++ .reg (regWrite s.cfg.base 0 4) :: .wait :: [] ∧
        exec .cipher { s with script := before ++ .wait :: [] } = .next t := by
  simp only [List.forall_mem_cons, List.not_mem_nil, false_implies, implies_true, and_true]
  exact ⟨⟨{ readyState .autoReset with script := [.reg (regWrite 0 0 4), .wait] }, _, rfl, rfl, rfl⟩,
    ⟨{ readyState .autoReset with
        script := [.load 0x4000, .reg (regWrite 0 0x2C 1), .store 0x3001 7, .reg (regWrite 0 0 4), .wait] }, _, rfl, rfl, rfl⟩,
    ⟨{ readyState .autoReset with script := [.engine, .engine, .load 0x4000, .reg (regWrite 0 0 4), .wait] }, _, rfl, rfl, rfl⟩⟩

/-- Other agents' accesses are no marks. -/
theorem witness_CommandDuringCommandIsLost_before :
    ∀ e ∈ [Event.load 0x4000, .reg (regWrite 0 0x2C 1), .store 0x3001 7], e ≠ .engine ∧ e ≠ .wait ∧ e ≠ .assertReset := by decide

/-- Hypotheses of RunningCommandUsesLatchedOperands: LEN, the last parameter register, written after the first byte step of a
CIPHER; SEED_ADDR, the first, written at once during a DESTROY. -/
theorem witness_RunningCommandUsesLatchedOperands :
    (∃ s t : State, s.inReset = false ∧ (0x2C#32).toNat ∈ paramOffsets ∧
      s.script = [.engine, .engine, .engine] ++ .reg (regWrite s.cfg.base 0x2C 1) :: .wait :: [] ∧
      exec .cipher { s with script := [.engine, .engine, .engine] ++ .wait :: [] } = .next t) ∧
    (∃ s t : State, s.inReset = false ∧ (0x10#32).toNat ∈ paramOffsets ∧
      s.script = [] ++ .reg (regWrite s.cfg.base 0x10 1) :: .wait :: [] ∧ exec .destroy { s with script := .wait :: [] } = .next t) :=
  ⟨⟨{ readyState .autoReset with script := [.engine, .engine, .engine, .reg (regWrite 0 0x2C 1), .wait] }, _, rfl, by decide, rfl, rfl⟩,
   ⟨{ readyState .autoReset with script := [.reg (regWrite 0 0x10 1), .wait] }, _, rfl, by decide, rfl, rfl⟩⟩

/-- The ends of the parameter registers' offsets. -/
theorem witness_ParameterRegistersReadBack : 0x10 ∈ paramOffsets ∧ 0x2C ∈ paramOffsets ∧ 0x2C ≠ 0x10 := by decide

/-- The ends of every range of reserved offsets, without the test port; and a configuration with it. -/
theorem witness_ReservedOffsetsReadZeroAndIgnoreWrites :
    (∀ off ∈ [0x0C, 0x30, 0x3C, 0x5C, 0xFC, 0x40, 0x58], off < 256 ∧ off % 4 = 0 ∧
      (off = 0x0C ∨ (0x30 ≤ off ∧ off ≤ 0x3C) ∨ 0x5C ≤ off ∨ (0x40 ≤ off ∧ off ≤ 0x58 ∧ State.reset.cfg.testPort = false))) ∧
    ({ State.reset with cfg := { Config.defaults with testPort := true } } : State).cfg.testPort = true := by decide

/-- A byte access, a misaligned one and one at the window's last byte. -/
theorem witness_MalformedAccessOnlyGetsAnError :
    State.reset.cfg.valid = true ∧ State.reset.inReset = false ∧
    ∀ a ∈ [RegAccess.mk 0x04 1 none, RegAccess.mk 0x02 4 (some 0), RegAccess.mk 0xFF 4 none],
      ({ State.reset with script := [.reg a] } : State).script = .reg a :: [] ∧ (a.addr - State.reset.cfg.base).toNat < 256 ∧
      (a.bytes ≠ 4 ∨ (a.addr - State.reset.cfg.base).toNat % 4 ≠ 0) := by decide

/-- The first and the last register of the window. -/
theorem witness_RegisterReadHasNoSideEffect :
    State.reset.cfg.valid = true ∧ State.reset.inReset = false ∧
    ∀ off ∈ [0, 252], off < 256 ∧ off % 4 = 0 ∧
      ({ State.reset with script := [.reg (RegAccess.mk (State.reset.cfg.base + BitVec.ofNat 32 off) 4 none)] } : State).script =
        .reg (RegAccess.mk (State.reset.cfg.base + BitVec.ofNat 32 off) 4 none) :: [] := by decide

/-- PROGRESS idle, and busy with LEN as it was latched. -/
theorem witness_ProgressReadsExactlyOrWithinLen :
    State.reset.busy = false ∧ ({ State.reset with busy := true } : State).busy = true ∧
    State.reset.regs.len = State.reset.latch.regs.len := by decide

/-- The test port's clauses at the ends of their ranges of TEST_IDX. -/
theorem witness_TestPortShowsTheStorages :
    ∃ s : State, s.cfg.testPort = true ∧ s.busy = false ∧ s.ki = -1 ∧
      (0#32).toNat < s.cfg.keyMaxLen ∧ (1023#32).toNat < s.cfg.keyMaxLen ∧ s.cfg.keyMaxLen ≤ (1024#32).toNat ∧
      (2621439#32).toNat < s.cfg.maxTables * 256 ∧ s.cfg.maxTables * 256 ≤ (2621440#32).toNat ∧
      s.cfg.keyMaxLen ≤ (0xFFFFFFFF#32).toNat :=
  ⟨{ readyState .autoReset with ki := -1, cfg := { Config.defaults with testPort := true } }, by decide⟩

theorem witness_BusyTestDataIsAByte : ({ State.reset with busy := true } : State).busy = true := rfl

/-- Hypotheses of AccessDuringResetReachesNoRegister. -/
theorem witness_AccessDuringResetReachesNoRegister :
    ∃ (s : State) (a : RegAccess), s.cfg.valid = true ∧ s.inReset = true ∧ s.script = .reg a :: [] ∧
      (a.addr - s.cfg.base).toNat < 256 :=
  ⟨{ State.reset with inReset := true, script := [.reg (RegAccess.mk 0xFC 4 none)] }, RegAccess.mk 0xFC 4 none, by decide⟩

/-- Hypotheses of StoreBeforeFirstAccessIsSeen. -/
theorem witness_StoreBeforeFirstAccessIsSeen :
    ∃ s : State, s.inReset = false ∧ s.script = .store 0x3000 0x5A :: .wait :: [] :=
  ⟨{ readyState .autoReset with script := [.store 0x3000 0x5A, .wait] }, rfl, rfl⟩

/-- Hypotheses of ResetStopsCommandAtOnce. -/
theorem witness_ResetStopsCommandAtOnce : ∃ s : State, s.inReset = false ∧ s.script = .assertReset :: [] :=
  ⟨{ readyState .autoReset with script := [.assertReset] }, rfl, rfl⟩

/-- A CIPHER that a reset stops after its first byte's read. -/
theorem witness_StoppedCommandReportsNothing :
    ∃ s t : State, s.inReset = false ∧ exec .cipher s = .next t ∧ t.inReset = true :=
  ⟨{ readyState .autoReset with script := [.engine, .engine, .assertReset] }, _, rfl, rfl, rfl⟩

/-- Hypotheses of ResetSequenceGivesResetValues. -/
theorem witness_ResetSequenceGivesResetValues :
    ∃ s : State, s.cfg.valid = true ∧ s.inReset = true ∧ s.script = .releaseReset :: .wait :: [] :=
  ⟨{ readyState .autoReset with inReset := true, script := [.releaseReset, .wait] }, by decide⟩

/-- Each row of R121 as the first that holds, numbers at the row's boundary. -/
theorem witness_InitFailsWithFirstRowThatHolds :
    (1#2 ≠ 3#2) ∧ freshState.calm ∧
    (initRows false { freshState with lc := .destroyed }).find? (fun r => r.1) = some (true, .disposed) ∧
    (initRows false { freshState with lc := .ready }).find? (fun r => r.1) = some (true, .alreadyInitialized) ∧
    (initRows false { freshState with regs := { freshState.regs with tableCount := 0 } }).find? (fun r => r.1) =
      some (true, .tableCountRange) ∧
    (initRows false { freshState with regs := { freshState.regs with tableCount := 10241 } }).find? (fun r => r.1) =
      some (true, .tableCountRange) ∧
    (initRows false { freshState with regs := { freshState.regs with keyLen := 0 } }).find? (fun r => r.1) =
      some (true, .invalidKey) ∧
    (initRows true { freshState with regs := { freshState.regs with keyLen := 1025, seedLen := 1025 } }).find? (fun r => r.1) =
      some (true, .lengthLimit) ∧
    (initRows false { freshState with regs := { freshState.regs with seedLen := 1025 } }).find? (fun r => r.1) =
      some (true, .lengthLimit) ∧
    (initRows false { freshState with regs := { freshState.regs with seedAddr := 0xFFFFFFFF, seedLen := 2 } }).find?
      (fun r => r.1) = some (true, .addressRange) ∧
    (initRows true { freshState with
      regs := { freshState.regs with seedAddr := 0xFFFFFFFF, seedLen := 5000, keyAddr := 0xFFFFFFFF, keyLen := 2 } }).find?
      (fun r => r.1) = some (true, .addressRange) :=
  ⟨by decide, freshState_calm, by decide⟩

/-- INIT with a one-byte key at the top of the address space and a one-byte seed; all counts at their smallest. -/
theorem witness_InitInstallsKeyAndSchedule :
    ∃ s : State, s.calm ∧ s.cfg.valid = true ∧ s.lc = .uninit ∧ s.ErasedInv ∧ (0#2 ≠ 3#2) ∧
      s.cfg.minTables ≤ s.regs.tableCount.toNat ∧ s.regs.tableCount.toNat ≤ s.cfg.maxTables ∧
      1 ≤ s.regs.keyLen.toNat ∧ s.regs.keyLen.toNat ≤ s.cfg.keyMaxLen ∧
      s.regs.keyAddr.toNat + s.regs.keyLen.toNat ≤ 2 ^ 32 ∧ readsSucceed s.regs.keyAddr.toNat s.regs.keyLen.toNat s ∧
      s.regs.seedLen.toNat ≤ s.cfg.seedMaxLen ∧ s.regs.seedAddr.toNat + s.regs.seedLen.toNat ≤ 2 ^ 32 ∧
      readsSucceed s.regs.seedAddr.toNat s.regs.seedLen.toNat s :=
  ⟨{ freshState with regs := { freshState.regs with keyAddr := 0xFFFFFFFF, seedAddr := 0x1000, seedLen := 1 } },
   ⟨rfl, rfl⟩, by decide, rfl, by constructor <;> first | rfl | exact fun _ _ => rfl, by decide, by decide, by decide, by decide,
   by decide, by decide, fun _ _ => rfl, by decide, by decide, fun _ _ => rfl⟩

/-- INIT at the other ends: the largest table count, key and seed. -/
theorem witness_InitInstallsLargest :
    ∃ s : State, s.calm ∧ s.cfg.valid = true ∧ s.lc = .uninit ∧ s.ErasedInv ∧
      s.cfg.minTables ≤ s.regs.tableCount.toNat ∧ s.regs.tableCount.toNat = s.cfg.maxTables ∧
      1 ≤ s.regs.keyLen.toNat ∧ s.regs.keyLen.toNat = s.cfg.keyMaxLen ∧
      s.regs.keyAddr.toNat + s.regs.keyLen.toNat = 2 ^ 32 ∧ readsSucceed s.regs.keyAddr.toNat s.regs.keyLen.toNat s ∧
      s.regs.seedLen.toNat = s.cfg.seedMaxLen ∧ s.regs.seedAddr.toNat + s.regs.seedLen.toNat = 2 ^ 32 ∧
      readsSucceed s.regs.seedAddr.toNat s.regs.seedLen.toNat s :=
  ⟨{ freshState with regs := { freshState.regs with
      tableCount := 10240, keyAddr := 0xFFFFFC00, keyLen := 1024, seedAddr := 0xFFFFFC00, seedLen := 1024 } },
   ⟨rfl, rfl⟩, by decide, rfl, by constructor <;> first | rfl | exact fun _ _ => rfl, by decide, by decide, by decide, by decide,
   by decide, fun _ _ => rfl, by decide, by decide, fun _ _ => rfl⟩

/-- The state of the two INIT bus errors below: three seed bytes and two key bytes. -/
def faultyState (fs : List DmaFault) : State :=
  { freshState with regs := { freshState.regs with seedAddr := 0x1000, seedLen := 3, keyLen := 2 }, faults := fs }

theorem faultyState_meets (fs : List DmaFault) :
    (faultyState fs).calm ∧ (faultyState fs).lc = .uninit ∧ (faultyState fs).ErasedInv ∧ (faultyState fs).Canonical :=
  ⟨⟨rfl, rfl⟩, rfl, by constructor <;> first | rfl | exact fun _ _ => rfl, by constructor <;> rfl⟩

theorem faultyState_passes_checks :
    ∀ fs ∈ [[readFails 0x1000], [readFails 0x1002], [readFails 0x2001]], (faultyState fs).cfg.valid = true ∧
      (initRows false (faultyState fs)).find? (fun r => r.1) = none := by decide +kernel

/-- A seed read fails: the first one, and the last one. -/
theorem witness_InitBusErrorRestoresState_seed :
    (0 < (faultyState [readFails 0x1000]).regs.seedLen.toNat ∧ readsSucceed 0x1000 0 (faultyState [readFails 0x1000]) ∧
      readFault ((faultyState [readFails 0x1000]).regs.seedAddr.toNat + 0) (faultyState [readFails 0x1000]) =
        some (readFails 0x1000)) ∧
    (2 < (faultyState [readFails 0x1002]).regs.seedLen.toNat ∧ readsSucceed 0x1000 2 (faultyState [readFails 0x1002]) ∧
      readFault ((faultyState [readFails 0x1002]).regs.seedAddr.toNat + 2) (faultyState [readFails 0x1002]) =
        some (readFails 0x1002)) := by
  unfold readsSucceed; decide

/-- A key read fails, the last one, after every seed read has succeeded (V4.3.14). -/
theorem witness_InitBusErrorRestoresState_key :
    readsSucceed (faultyState [readFails 0x2001]).regs.seedAddr.toNat (faultyState [readFails 0x2001]).regs.seedLen.toNat
      (faultyState [readFails 0x2001]) ∧
    1 < (faultyState [readFails 0x2001]).regs.keyLen.toNat ∧ readsSucceed 0x2000 1 (faultyState [readFails 0x2001]) ∧
    readFault ((faultyState [readFails 0x2001]).regs.keyAddr.toNat + 1) (faultyState [readFails 0x2001]) =
      some (readFails 0x2001) := by
  unfold readsSucceed; decide

theorem witness_GeneratorFillsScheduleFromCounter : State.reset.cfg.valid = true ∧ 255 < 1 * 256 ∧ 1 * 256 ≤ 256 := by decide

/-- Two INITs of the same seed and count, with other modes and other keys, that both succeed. -/
theorem witness_SameSeedAndCountGiveSameTables :
    ∃ s₁ s₂ t₁ t₂ : State, s₁.calm ∧ s₂.calm ∧ s₁.cfg.valid = true ∧ s₂.cfg = s₁.cfg ∧ s₁.ErasedInv ∧ s₂.ErasedInv ∧
      exec (.init 1 false) s₁ = .next t₁ ∧ exec (.init 2 false) s₂ = .next t₂ ∧ t₁.err = .none ∧ t₂.err = .none ∧
      s₂.regs.tableCount = s₁.regs.tableCount ∧ seedOf false s₂ = seedOf false s₁ ∧ s₂.mem ≠ s₁.mem :=
  ⟨freshState, { freshState with mem := [(0x2000, 7)] }, _, _, ⟨rfl, rfl⟩, ⟨rfl, rfl⟩, by decide, rfl, freshState_erased,
   by constructor <;> first | rfl | exact fun _ _ => rfl, rfl, rfl, rfl, rfl, rfl, rfl, by decide⟩

theorem witness_CountsEqualModulo255Collide : State.reset.cfg.valid = true ∧ 1 < 256 ∧ 1 % 255 = 256 % 255 := by decide

theorem witness_ResetStreamRollsKeyStateBack : (usedState .undefined).calm ∧ (usedState .undefined).lc = .ready := ⟨⟨rfl, rfl⟩, rfl⟩

/-- Each lifecycle state of LifecycleErrors. -/
theorem witness_LifecycleErrors :
    (1#2 ≠ 3#2) ∧ State.reset.calm ∧ State.reset.lc = .uninit ∧ (readyState .autoReset).calm ∧ (readyState .autoReset).lc = .ready ∧
    destroyedState.calm ∧ destroyedState.lc = .destroyed :=
  ⟨by decide, ⟨rfl, rfl⟩, rfl, ⟨rfl, rfl⟩, rfl, ⟨rfl, rfl⟩, rfl⟩

/-- A byte step from the ends of both index ranges, so that both wrap; its write succeeds, its read fails, its write fails. -/
theorem witness_ByteStepFollowsItsSteps :
    let s : State := { readyState .continuous with ki := -1, si := 2, latch := { cmd := 3, regs := (readyState .continuous).regs } }
    s.calm ∧ s.KeyInv ∧ wrapKi s = 2 ∧ wrapSi s = 0 ∧
    (readFault (s.latch.regs.srcAddr.toNat + 0) s = none ∧ writeFault (s.latch.regs.dstAddr.toNat + 0) s = none) ∧
    readFault (s.latch.regs.srcAddr.toNat + 0) { s with faults := [readFails 0x3000] } = some (readFails 0x3000) ∧
    (readFault (s.latch.regs.srcAddr.toNat + 0) { s with faults := [writeFails 0x4000] } = none ∧
      writeFault (s.latch.regs.dstAddr.toNat + 0) { s with faults := [writeFails 0x4000] } = some (writeFails 0x4000)) :=
  ⟨⟨rfl, rfl⟩, by constructor <;> decide, by decide⟩

/-- A reset point, with the step numbers 0, 3 (KLEN divides it) and 2 (TCNT divides it). -/
theorem witness_IndicesWalkFromResetPoint :
    1 ≤ (readyState .autoReset).klen ∧ 1 ≤ (readyState .autoReset).tcnt ∧
    (readyState .autoReset).ki = ((readyState .autoReset).klen : Int) - 1 ∧ (readyState .autoReset).si = 0 ∧
    (3 % (readyState .autoReset).klen = 0 ∧ 3 ≠ 0) ∧ (2 % (readyState .autoReset).tcnt = 0 ∧ 2 ≠ 0) := by decide

/-- Both index ranges at their ends. -/
theorem witness_ByteStepIndicesStayInRange :
    (readyState .continuous).KeyInv ∧ ({ readyState .continuous with ki := -1, si := 2 } : State).KeyInv :=
  ⟨readyState_keyInv _, restingState_keyInv _⟩

/-- V3.3's engine. -/
theorem witness_OneByteKeyAndOneTableGivePeriodTwo :
    ∃ s : State, s.klen = 1 ∧ s.tcnt = 1 ∧ s.ki = 0 ∧ s.si = 0 ∧
      (List.range 6).map (fun n => keystreamAt n s) = [0xf3, 0x9b, 0xf3, 0x9b, 0xf3, 0x9b] :=
  ⟨{ readyState .continuous with kb := [], klen := 1, tcnt := 1, ki := 0, si := 0, st := [(0, 0xf3), (11, 0x9b)] }, by decide⟩

/-- Each row of R150 as the first that holds, ranges at their boundary (V4.5.1 to V4.5.3). -/
theorem witness_CipherFailsWithFirstRowThatHolds :
    (readyState .autoReset).calm ∧
    (cipherRows destroyedState).find? (fun r => r.1) = some (true, .disposed) ∧
    (cipherRows State.reset).find? (fun r => r.1) = some (true, .notInitialized) ∧
    (cipherRows (readyState .undefined)).find? (fun r => r.1) = some (true, .invalidMode) ∧
    (cipherRows ((readyState .autoReset).setCipher 0xFFFFFFFF 0x4000 2)).find? (fun r => r.1) = some (true, .addressRange) ∧
    (cipherRows ((readyState .autoReset).setCipher 0x3000 0xFFFFFFFF 2)).find? (fun r => r.1) = some (true, .addressRange) ∧
    (cipherRows ((readyState .autoReset).setCipher 0xFFFFFFFF 0xFFFFFFFF 1)).find? (fun r => r.1) = none :=
  ⟨⟨rfl, rfl⟩, by decide⟩

/-- A CIPHER whose ranges end at the top of the address space, from indices at the ends of their ranges; and one whose target runs
one byte ahead of its source. -/
theorem witness_CipherEnciphersRange :
    ∃ s : State, s.calm ∧ s.lc = .ready ∧ s.mode ≠ .undefined ∧ s.KeyInv ∧
      s.regs.srcAddr.toNat + s.regs.len.toNat = 2 ^ 32 ∧ s.regs.dstAddr.toNat + s.regs.len.toNat ≤ 2 ^ 32 ∧
      readsSucceed s.regs.srcAddr.toNat s.regs.len.toNat s ∧ writesSucceed s.regs.dstAddr.toNat s.regs.len.toNat s :=
  ⟨({ readyState .continuous with ki := -1, si := 2 } : State).setCipher 0xFFFFFFFF 0xFFFFFFFF 1, ⟨rfl, rfl⟩, rfl, by decide,
   by constructor <;> decide, by decide, by decide, fun _ _ => rfl, fun _ _ => rfl⟩

/-- The overlap that makes a target byte the source of a later step. -/
theorem witness_CipherEnciphersRange_overlap :
    ∃ s : State, s.calm ∧ s.lc = .ready ∧ s.mode ≠ .undefined ∧ s.KeyInv ∧
      s.regs.srcAddr.toNat + s.regs.len.toNat ≤ 2 ^ 32 ∧ s.regs.dstAddr.toNat + s.regs.len.toNat ≤ 2 ^ 32 ∧
      readsSucceed s.regs.srcAddr.toNat s.regs.len.toNat s ∧ writesSucceed s.regs.dstAddr.toNat s.regs.len.toNat s ∧
      s.regs.dstAddr.toNat ≤ s.regs.srcAddr.toNat + 1 ∧ s.regs.srcAddr.toNat < s.regs.dstAddr.toNat :=
  ⟨(readyState .autoReset).setCipher 0x3000 0x3001 5, ⟨rfl, rfl⟩, rfl, by decide, by constructor <;> decide, by decide, by decide,
   fun _ _ => rfl, fun _ _ => rfl, by decide, by decide⟩

/-- V4.5.11 and V4.5.12: the write of byte 2 fails, and the read of byte 0. -/
theorem witness_CipherBusErrorKeepsPrefix :
    ∃ s₁ s₂ : State, (s₁.calm ∧ s₁.lc = .ready ∧ s₁.mode ≠ .undefined ∧ s₁.KeyInv ∧
        s₁.regs.srcAddr.toNat + s₁.regs.len.toNat ≤ 2 ^ 32 ∧ s₁.regs.dstAddr.toNat + s₁.regs.len.toNat ≤ 2 ^ 32 ∧
        2 < s₁.regs.len.toNat ∧ readsSucceed s₁.regs.srcAddr.toNat 2 s₁ ∧ writesSucceed s₁.regs.dstAddr.toNat 2 s₁ ∧
        readFault (s₁.regs.srcAddr.toNat + 2) s₁ = none ∧
        writeFault (s₁.regs.dstAddr.toNat + 2) s₁ = some (writeFails 0x4002)) ∧
      (s₂.calm ∧ s₂.lc = .ready ∧ s₂.mode ≠ .undefined ∧ s₂.KeyInv ∧
        s₂.regs.srcAddr.toNat + s₂.regs.len.toNat ≤ 2 ^ 32 ∧ s₂.regs.dstAddr.toNat + s₂.regs.len.toNat ≤ 2 ^ 32 ∧
        0 < s₂.regs.len.toNat ∧ readsSucceed s₂.regs.srcAddr.toNat 0 s₂ ∧ writesSucceed s₂.regs.dstAddr.toNat 0 s₂ ∧
        readFault (s₂.regs.srcAddr.toNat + 0) s₂ = some (readFails 0x3000)) := by
  refine ⟨{ readyState .continuous with faults := [writeFails 0x4002] }, { usedState .autoReset with faults := [readFails 0x3000] },
    ⟨⟨rfl, rfl⟩, rfl, by decide, by constructor <;> decide, ?_⟩, ⟨⟨rfl, rfl⟩, rfl, by decide, by constructor <;> decide, ?_⟩⟩
  · unfold readsSucceed writesSucceed; decide
  · unfold readsSucceed writesSucceed; decide

theorem witness_CipherOfZeroBytes :
    ∀ m ∈ [Mode.autoReset, .continuous], ((usedState m).setCipher 0xFFFFFFFF 0xFFFFFFFF 0).quiet = true ∧
      ((usedState m).setCipher 0xFFFFFFFF 0xFFFFFFFF 0).inReset = false ∧
      ((usedState m).setCipher 0xFFFFFFFF 0xFFFFFFFF 0).lc = .ready ∧
      ((usedState m).setCipher 0xFFFFFFFF 0xFFFFFFFF 0).regs.len = 0 ∧
      ((usedState m).setCipher 0xFFFFFFFF 0xFFFFFFFF 0).mode = m := by decide

/-- Faults on both kinds of access, just outside the ranges the next witnesses use. -/
def farFaults : List DmaFault :=
  [{ addr := 0x2FFF, onRead := true, onWrite := true, leaves := none }, { addr := 0x400A, onRead := true, onWrite := true, leaves := none }]

/-- No access in a range that avoids both addresses fails. -/
theorem farFaults_spare {s : State} (hs : s.faults = farFaults) {b n : Nat}
    (h : b + n ≤ 0x2FFF ∨ (0x2FFF < b ∧ b + n ≤ 0x400A) ∨ 0x400A < b) : readsSucceed b n s ∧ writesSucceed b n s := by
  constructor <;> intro j hj
  · simp [readFault, hs, farFaults]; omega
  · simp [writeFault, hs, farFaults]; omega

/-- Two states with one engine and different data; the three kinds of overlap R154 admits, each at its boundary. -/
theorem witness_KeystreamDependsOnNoData :
    ∃ s₁ s₂ : State, s₁.calm ∧ s₂.calm ∧ s₁.lc = .ready ∧ s₁.mode ≠ .undefined ∧ s₁.KeyInv ∧ s₂.cfg = s₁.cfg ∧
      s₂.engine = s₁.engine ∧ s₂.regs.len = s₁.regs.len ∧
      readsSucceed s₁.regs.srcAddr.toNat s₁.regs.len.toNat s₁ ∧ writesSucceed s₁.regs.dstAddr.toNat s₁.regs.len.toNat s₁ ∧
      readsSucceed s₂.regs.srcAddr.toNat s₂.regs.len.toNat s₂ ∧ writesSucceed s₂.regs.dstAddr.toNat s₂.regs.len.toNat s₂ ∧
      s₁.regs.srcAddr.toNat + s₁.regs.len.toNat ≤ 2 ^ 32 ∧ s₁.regs.dstAddr.toNat + s₁.regs.len.toNat ≤ 2 ^ 32 ∧
      s₂.regs.srcAddr.toNat + s₂.regs.len.toNat ≤ 2 ^ 32 ∧ s₂.regs.dstAddr.toNat + s₂.regs.len.toNat ≤ 2 ^ 32 ∧
      s₁.regs.srcAddr.toNat + s₁.regs.len.toNat = s₁.regs.dstAddr.toNat ∧ s₂.regs.dstAddr = s₂.regs.srcAddr ∧ s₂.mem ≠ s₁.mem :=
  ⟨({ readyState .autoReset with faults := farFaults } : State).setCipher 0x3000 0x3005 5,
   ({ readyState .autoReset with mem := [] } : State).setCipher 0x5000 0x5000 5,
   ⟨rfl, rfl⟩, ⟨rfl, rfl⟩, rfl, by decide, by constructor <;> decide, rfl, rfl, rfl,
   (farFaults_spare rfl (by decide)).1, (farFaults_spare rfl (by decide)).2, fun _ _ => rfl, fun _ _ => rfl, by decide⟩

/-- An AutoReset CIPHER of three bytes, and the state after it as one in which the output still stands. -/
theorem witness_AutoResetRoundTrip :
    ∃ s t : State, s.calm ∧ s.lc = .ready ∧ s.mode = .autoReset ∧ s.KeyInv ∧ readsSucceed 0x3000 3 s ∧ writesSucceed 0x4000 3 s ∧
      exec .cipher (s.setCipher 0x3000 0x4000 3) = .next t ∧ t.err = .none ∧ t.calm ∧ t.lc = .ready ∧ t.mode = .autoReset ∧
      readsSucceed 0x4000 3 t ∧ writesSucceed 0x3000 3 t ∧ t.cfg = s.cfg ∧ t.okb = s.okb ∧ t.klen = s.klen ∧ t.st = s.st ∧
      t.tcnt = s.tcnt ∧ t.KeyInv :=
  ⟨{ readyState .autoReset with faults := farFaults }, _, ⟨rfl, rfl⟩, rfl, rfl, by constructor <;> decide,
   (farFaults_spare rfl (by decide)).1, (farFaults_spare rfl (by decide)).2, rfl, rfl, ⟨rfl, rfl⟩, rfl, rfl,
   (farFaults_spare rfl (by decide)).1, (farFaults_spare rfl (by decide)).2, rfl, rfl, rfl, rfl, rfl,
   by constructor <;> decide⟩

/-- A reset point and three ranges, one of them within another, with faults just outside them. -/
theorem witness_ContinuousRoundTrip :
    ∃ s : State, s.calm ∧ s.lc = .ready ∧ s.mode = .continuous ∧ s.KeyInv ∧ s.resetPoint ∧ s.faults ≠ [] ∧
      ∀ r ∈ [(0x3000#32, 3#32), (0x3002#32, 1#32), (0xFFFFFFFF#32, 1#32)], r.1.toNat + r.2.toNat ≤ 2 ^ 32 ∧
        readsSucceed r.1.toNat r.2.toNat s ∧ writesSucceed r.1.toNat r.2.toNat s :=
  ⟨{ readyState .continuous with faults := farFaults }, ⟨rfl, rfl⟩, rfl, rfl, by constructor <;> decide,
   ⟨fun _ _ => rfl, rfl, rfl⟩, by decide, by
    simp only [List.forall_mem_cons, List.not_mem_nil, false_implies, implies_true, and_true]
    exact ⟨⟨by decide, farFaults_spare rfl (by decide)⟩, ⟨by decide, farFaults_spare rfl (by decide)⟩,
      ⟨by decide, farFaults_spare rfl (by decide)⟩⟩⟩

/-- Chunks of 0 and 5 bytes, of 2 and 3, and of 5 and 0. -/
theorem witness_ContinuousChunking :
    ∃ s : State, s.calm ∧ s.lc = .ready ∧ s.mode = .continuous ∧ s.KeyInv ∧ s.faults ≠ [] ∧
      ∀ r ∈ [(0#32, 5#32), (2#32, 3#32), (5#32, 0#32)], readsSucceed 0x3000 (r.1.toNat + r.2.toNat) s ∧
        writesSucceed 0x4000 (r.1.toNat + r.2.toNat) s ∧ (0x3000#32).toNat + (r.1.toNat + r.2.toNat) ≤ 2 ^ 32 ∧
        (0x4000#32).toNat + (r.1.toNat + r.2.toNat) ≤ 2 ^ 32 ∧ r.1.toNat + r.2.toNat < 2 ^ 32 :=
  ⟨{ readyState .continuous with faults := farFaults }, ⟨rfl, rfl⟩, rfl, rfl, by constructor <;> decide, by decide, by
    simp only [List.forall_mem_cons, List.not_mem_nil, false_implies, implies_true, and_true]
    exact ⟨⟨(farFaults_spare rfl (by decide)).1, (farFaults_spare rfl (by decide)).2, by decide⟩,
      ⟨(farFaults_spare rfl (by decide)).1, (farFaults_spare rfl (by decide)).2, by decide⟩,
      ⟨(farFaults_spare rfl (by decide)).1, (farFaults_spare rfl (by decide)).2, by decide⟩⟩⟩

/-- V3.1's "ABCDE" as two messages with targets of their own, and their outputs, moved, as the messages of the way back. -/
theorem witness_ContinuousMessagesRoundTrip :
    ∃ (s : State) (l back : List CipherJob), s.calm ∧ s.lc = .ready ∧ s.mode = .continuous ∧ s.KeyInv ∧ s.resetPoint ∧
      (∀ j ∈ l, j.Fits s) ∧ (∀ j ∈ back, j.Fits s) ∧ (cipherJobs l s).map (fun r => r.1) = some (back.map CipherJob.input) ∧
      l.map CipherJob.input = [[0x41, 0x42], [0x43, 0x44, 0x45]] :=
  ⟨{ readyState .continuous with faults := farFaults },
   [{ src := 0x3000, dst := 0x4000, len := 2, mem := (readyState .continuous).mem },
    { src := 0x3002, dst := 0x4002, len := 3, mem := (readyState .continuous).mem }],
   [{ src := 0x5000, dst := 0x3000, len := 2, mem := [(0x5000, 0xdd), (0x5001, 0xf0)] },
    { src := 0x6000, dst := 0x6000, len := 3, mem := [(0x6000, 0x6a), (0x6001, 0xea), (0x6002, 0x5f)] }],
   ⟨rfl, rfl⟩, rfl, rfl, by constructor <;> decide, ⟨fun _ _ => rfl, rfl, rfl⟩,
   by unfold CipherJob.Fits readsSucceed writesSucceed; decide, by unfold CipherJob.Fits readsSucceed writesSucceed; decide,
   by decide +kernel, by decide⟩

theorem witness_SetModeStoresItsOperand :
    (readyState .continuous).calm ∧ (readyState .continuous).lc = .ready ∧ (0#2 ≠ 3#2) := ⟨⟨rfl, rfl⟩, rfl, by decide⟩

theorem witness_DestroyErasesAllKeyMaterial :
    State.reset.calm ∧ State.reset.lc ≠ .destroyed ∧ (usedState .continuous).calm ∧ (usedState .continuous).lc ≠ .destroyed :=
  ⟨⟨rfl, rfl⟩, by decide, ⟨rfl, rfl⟩, by decide⟩

theorem witness_RepeatedDestroyIsANoOp : destroyedState.calm ∧ destroyedState.lc = .destroyed := ⟨⟨rfl, rfl⟩, rfl⟩

/-- The release of an asserted reset does leave DESTROYED. -/
theorem witness_OnlyResetLeavesDestroyed :
    ∃ s t : State, s.lc = .destroyed ∧ step s = .next t ∧ t.lc ≠ .destroyed :=
  ⟨{ destroyedState with inReset := true, script := [.releaseReset] }, _, rfl, rfl, by decide⟩

/-- A CIPHER with a host's stores and register writes falling into it. -/
theorem witness_ScheduleAndOriginalKeyStay :
    ∃ s t : State, s.inReset = false ∧ exec .cipher s = .next t ∧ s.script ≠ [] :=
  ⟨{ readyState .continuous with script := [.engine, .store 0x3001 7, .engine, .reg (regWrite 0 0x2C 1)] }, _, rfl, rfl, by decide⟩

theorem witness_CommandsLeaveHostRegistersAlone :
    (readyState .continuous).calm ∧ ∃ t, exec .cipher (readyState .continuous) = .next t := ⟨⟨rfl, rfl⟩, _, rfl⟩

/-- INIT, which reads host memory, and RESET_STREAM, which does not. -/
theorem witness_OnlyCipherWritesHostMemory :
    freshState.calm ∧ (∃ t, exec (.init 1 false) freshState = .next t) ∧ Instr.init 1 false ≠ .cipher ∧
    (readyState .autoReset).calm ∧ (∃ t, exec .resetStream (readyState .autoReset) = .next t) ∧ Instr.resetStream ≠ .cipher :=
  ⟨⟨rfl, rfl⟩, ⟨_, rfl⟩, by decide, ⟨rfl, rfl⟩, ⟨_, rfl⟩, by decide⟩

/-- One configuration that breaks each constraint of R8, at its boundary. -/
theorem witness_BadConfigurationIsRefused :
    (¬(1 ≤ ({ Config.defaults with minTables := 0 } : Params).minTables)) ∧
    (¬(({ Config.defaults with defaultTables := 10241 } : Params).defaultTables ≤ Config.defaults.maxTables)) ∧
    (¬(({ Config.defaults with maxTables := 16777217 } : Params).maxTables * 256 ≤ 2 ^ 32)) ∧
    (({ Config.defaults with hashLen := 48 } : Params).hashLen ∉ [32, 64, 128, 256]) ∧
    (¬(({ Config.defaults with keyMaxLen := 2147483648 } : Params).keyMaxLen ≤ 2 ^ 31 - 1)) ∧
    (¬(({ Config.defaults with seedMaxLen := 4294967296 } : Params).seedMaxLen ≤ 2 ^ 32 - 1)) ∧
    (¬((defaultSeed { Config.defaults with defaultSeedLen := 1025 }).length ≤ Config.defaults.seedMaxLen)) := by
  refine ⟨by decide, by decide, by decide, by decide, by decide, by decide, ?_⟩
  simp [defaultSeed, Config.defaults]

theorem witness_StepKeepsConfiguration : ∃ t, step (readyState .autoReset) = .next t := ⟨_, rfl⟩

/-- A configuration with the test port, idle and busy. -/
theorem witness_TestSelectorsReadBack :
    ∀ b : Bool, ({ readyState .autoReset with busy := b, cfg := { Config.defaults with testPort := true } } : State).cfg.testPort =
      true := fun _ => rfl

/-- The post-reset erase of a used engine, before it and after it, with the values STATUS is read with. -/
theorem witness_EraseComesBeforeBusyFalls :
    (let s : State := { usedState .continuous with lc := .uninit, busy := true, script := [.engine] }
     s.cfg.valid = true ∧ s.inReset = false ∧ s.busy = true ∧ s.script = .engine :: [] ∧ eraseAll s ≠ s ∧ s.err = .none) ∧
    (let s : State := { State.reset with busy := true, script := [.engine] }
     s.cfg.valid = true ∧ s.inReset = false ∧ s.busy = true ∧ s.script = .engine :: [] ∧ eraseAll s = s) := by decide

/-- STATUS, the first offset a write reaches while BUSY = 0, the last offset of the window, and CMD with BUSY = 1. -/
theorem witness_RegisterWriteReachesItsRegister :
    (∃ s : State, s.cfg.valid = true ∧ s.inReset = false ∧ s.script = .reg (regWrite s.cfg.base 0x04 2) :: []) ∧
    (∃ s : State, s.cfg.valid = true ∧ s.inReset = false ∧ s.script = .reg (regWrite s.cfg.base 0xFC 2) :: []) ∧
    (∃ s : State, s.cfg.valid = true ∧ s.inReset = false ∧ s.busy = true ∧ s.script = .reg (regWrite s.cfg.base 0 2) :: []) ∧
    ∀ off ∈ [0x04#32, 0xFC#32], off.toNat < 256 ∧ off.toNat % 4 = 0 ∧ off ≠ 0 :=
  ⟨⟨{ State.reset with script := [.reg (regWrite 0 0x04 2)] }, witness_default_valid, rfl, rfl⟩,
   ⟨{ State.reset with script := [.reg (regWrite 0 0xFC 2)] }, witness_default_valid, rfl, rfl⟩,
   ⟨{ State.reset with busy := true, script := [.reg (regWrite 0 0 2)] }, witness_default_valid, rfl, rfl, rfl⟩, by simp⟩

end Sys2Proof.Tests
end

section
/-! PROOFS. The family of 00_scope.md: what every step keeps, and what reset and a bad configuration let through. -/

namespace Sys2Proof.Machine

/-! ## The invariant is kept by everything that happens between commands -/

/-- The invariant speaks of the engine, the parameters, the reset input and the form of host memory alone. -/
theorem State.Inv.of_engine {s t : State} (h : s.Inv) (he : t.engine = s.engine) (hc : t.cfg = s.cfg)
    (hr : t.inReset = s.inReset) (hm : t.mem.wf = true) : t.Inv := by
  obtain ⟨h1, ⟨k1, k2, k3, k4, -⟩, h3, h4, h5⟩ := h
  have hlc : t.lc = s.lc := engine_lc he
  have hbusy : t.busy = s.busy := congrArg Engine.busy he
  have hkb : t.kb = s.kb := congrArg Engine.kb he
  have hokb : t.okb = s.okb := congrArg Engine.okb he
  have hst : t.st = s.st := congrArg Engine.st he
  have hseed : t.seedbuf = s.seedbuf := congrArg Engine.seedbuf he
  refine ⟨hc ▸ h1, ⟨hkb ▸ k1, hokb ▸ k2, hst ▸ k3, hseed ▸ k4, hm⟩, ?_, ?_, ?_⟩
  · rw [hr, hbusy, hlc]; exact h3
  · rw [hr, hbusy, hlc]; exact fun a b l => readyInv_engineOnly s t he hc (h4 a b l)
  · rw [hr, hbusy, hlc]; exact fun a b l => erasedInv_engineOnly s t he hc (h5 a b l)

/-- While reset is asserted the invariant asks for legal parameters and canonical storages only. -/
theorem State.Inv.of_inReset {s : State} (hv : s.cfg.valid = true) (hc : s.Canonical) (hr : s.inReset = true) : s.Inv :=
  have absurdReset (h : s.inReset = false) : False := Bool.noConfusion (hr.symm.trans h)
  ⟨hv, hc, fun h => (absurdReset h).elim, fun h => (absurdReset h).elim, fun h => (absurdReset h).elim⟩

/-- With BUSY = 1 and LC = UNINIT nothing more is asked: the post-reset erase is pending (R231). -/
theorem State.Inv.of_erasing {s : State} (hv : s.cfg.valid = true) (hc : s.Canonical) (hb : s.busy = true)
    (hl : s.lc = .uninit) : s.Inv :=
  have absurdBusy (h : s.busy = false) : False := Bool.noConfusion (hb.symm.trans h)
  ⟨hv, hc, fun _ _ => hl, fun _ h => (absurdBusy h).elim, fun _ h => (absurdBusy h).elim⟩

/-- R30 or R31 is all that is asked where no erase is pending. -/
theorem State.Inv.of_settled {s : State} (hv : s.cfg.valid = true) (hc : s.Canonical) (hb : s.busy = false)
    (h : Settled s) : s.Inv :=
  ⟨hv, hc, fun _ h => Bool.noConfusion (hb.symm.trans h), fun _ _ => h.1, fun _ _ => h.2⟩

theorem State.Inv.settled {s : State} (h : s.Inv) (hr : s.inReset = false) (hb : s.busy = false) : Settled s :=
  ⟨h.ready hr hb, h.erased hr hb⟩

/-- Neither the script nor the queue of waiting accesses is part of the invariant. -/
theorem State.Inv.withQueues {s : State} (h : s.Inv) (l : List Event) (q : List RegAccess) :
    ({ s with script := l, waiting := q } : State).Inv :=
  h.of_engine rfl rfl rfl h.canonical.mem

theorem busAccess_inv (a : RegAccess) {s : State} (h : s.Inv) : (busAccess a s).Inv := by
  obtain ⟨he, hc, hr, -, hm, -⟩ := busAccess_keeps a s
  exact h.of_engine he hc hr (hm ▸ h.canonical.mem)

theorem answer_inv (r : Answer) {s : State} (h : s.Inv) : (answer r s).Inv :=
  h.of_engine rfl rfl rfl h.canonical.mem

theorem releaseReset_inv {s : State} (h : s.Inv) : (releaseReset s).Inv := by
  unfold releaseReset
  split
  · exact .of_erasing h.cfg_valid { h.canonical with } rfl rfl
  · exact h

/-- No event of another agent breaks the invariant. -/
theorem hostEvent_inv (e : Event) {s : State} (h : s.Inv) : (hostEvent e s).Inv := by
  have hm := hostEvent_wf e s h.canonical.mem
  cases e with
  | reg a => exact busAccess_inv a h
  | resume =>
    obtain ⟨he, hc, hr, -⟩ := resumeAccess_keeps s
    exact h.of_engine he hc hr hm
  | assertReset => exact .of_inReset h.cfg_valid { h.canonical with } rfl
  | releaseReset => exact releaseReset_inv h
  | load _ => exact answer_inv _ h
  | store _ _ => exact h.of_engine rfl rfl rfl hm
  | setFaults _ => exact h.of_engine rfl rfl rfl hm
  | engine => exact h
  | wait => exact h

theorem eraseAll_canonical {s : State} (h : s.Canonical) : (eraseAll s).Canonical := ⟨rfl, rfl, rfl, rfl, h.mem⟩

/-- The rest of the post-reset sequence ends as R31 says (R231). -/
theorem finishReset_inv {s : State} (h : s.Inv) (hp : erasePending s = true) : (finishReset s).Inv := by
  obtain ⟨hb, hr⟩ := (erasePending_iff s).1 hp
  have hl : (finishReset s).lc = .uninit := h.erasing hr hb
  refine .of_settled h.cfg_valid { eraseAll_canonical h.canonical with } rfl ⟨fun hn => ?_, fun _ => ?_⟩
  · rw [hl] at hn; exact Lifecycle.noConfusion hn
  · exact { eraseAll_erased s with }

theorem engineTurn_inv {s : State} (h : s.Inv) : (engineTurn s).Inv := by
  obtain ⟨-, he⟩ | ⟨hp, -, he⟩ | ⟨hp, -, he⟩ := engineTurn_cases s <;> rw [he]
  · exact h
  · obtain ⟨hb, hr⟩ := (erasePending_iff s).1 hp
    exact .of_erasing h.cfg_valid (eraseAll_canonical h.canonical) hb (h.erasing hr hb)
  · exact finishReset_inv h hp

theorem engineFinish_inv {s : State} (h : s.Inv) : (engineFinish s).Inv := by
  obtain ⟨-, he⟩ | ⟨hp, he⟩ := engineFinish_cases s <;> rw [he]
  · exact h
  · exact finishReset_inv h hp

/-! ## The invariant is kept by every command -/

/-- The outcome is a next state, and that state meets the invariant. -/
def GoesOnInv (o : Host.Outcome State Fault Refusal) : Prop := ∃ t, o = .next t ∧ t.Inv

theorem complete_settled (e : ErrCode) {s : State} (h : Settled s) : Settled (complete e s) :=
  ⟨fun hl => { h.1 hl with }, fun hl => { h.2 hl with }⟩

/-- A command whose rule leaves the engine as R30 or R31 say, whether it succeeds or fails, keeps the invariant (R39). -/
theorem command_goesOnInv {w : Word} {body : State → Run} {s : State} (h : s.Inv) (hr : s.inReset = false)
    (hb : s.busy = false)
    (hbody : ∀ u, Live s.cfg Settled u → (body u).Sound s.cfg Settled (fun _ => Settled)) :
    GoesOnInv (command w body s) := by
  have start : Live s.cfg Settled (accept w s) :=
    ⟨⟨rfl, { h.canonical with }, rfl, rfl⟩, hr, accept_settled (h.settled hr hb)⟩
  have finish (e : ErrCode) {t : State} (ht : Live s.cfg Settled t) : (complete e t).Inv := by
    obtain ⟨hrun, -, hs⟩ := ht
    exact .of_settled (hrun.cfg.symm ▸ h.cfg_valid) { hrun.canonical with } rfl (complete_settled e hs)
  obtain ⟨t, ht, he⟩ | ⟨e, t, ht, he⟩ | ⟨t, ⟨hrun, hreset⟩, he⟩ :=
    command_sound settled_engineOnly settled_engineOnly (fun _ => settled_engineOnly) start hbody
  · exact ⟨_, he, finish .none ht⟩
  · exact ⟨_, he, finish e ht⟩
  · exact ⟨t, he, .of_inReset (hrun.cfg.symm ▸ h.cfg_valid) hrun.canonical hreset⟩

theorem exec_goesOnInv (i : Instr) {s : State} (h : s.Inv) (hr : s.inReset = false) (hb : s.busy = false) :
    GoesOnInv (exec i s) := by
  have hv := h.cfg_valid
  cases i with
  | init m d => exact command_goesOnInv h hr hb (fun _ hu => initBody_sound hv m d hu)
  | resetStream => exact command_goesOnInv h hr hb (fun _ hu => resetStreamBody_sound hu)
  | cipher => exact command_goesOnInv h hr hb (fun _ hu => cipherBody_sound hv hu)
  | destroy => exact command_goesOnInv h hr hb (fun _ hu => destroyBody_sound hu)
  | setMode m => exact command_goesOnInv h hr hb (fun _ hu => setModeBody_sound m hu)

theorem runWord_goesOnInv (w : Word) {s : State} (h : s.Inv) (hr : s.inReset = false) (hb : s.busy = false) :
    GoesOnInv (runWord w s) := by
  unfold runWord
  split
  · exact exec_goesOnInv _ h hr hb
  · exact command_goesOnInv h hr hb (fun _ hu => hu)

/-! ## The invariant is kept by every step -/

theorem present_goesOnInv (a : RegAccess) {s : State} (h : s.Inv) : GoesOnInv (present a s) := by
  cases ha : acceptedWord a s with
  | none => exact ⟨_, present_other ha, busAccess_inv a h⟩
  | some w =>
    obtain ⟨hr, hb⟩ := acceptedWord_some ha
    rw [present_accepted ha]
    exact runWord_goesOnInv w (answer_inv _ h) hr hb

theorem presentWaiting_goesOnInv {s : State} (h : s.Inv) : GoesOnInv (presentWaiting s) := by
  unfold presentWaiting
  split
  · exact ⟨_, rfl, h⟩
  · split
    · exact ⟨_, rfl, h⟩
    · exact present_goesOnInv _ (h.withQueues s.script _)

theorem runEvent_goesOnInv (e : Event) {s : State} (h : s.Inv) : GoesOnInv (runEvent e s) := by
  cases e with
  | reg a => exact present_goesOnInv a h
  | resume => exact presentWaiting_goesOnInv h
  | engine => exact ⟨_, rfl, engineTurn_inv h⟩
  | wait => exact ⟨_, rfl, engineFinish_inv h⟩
  | load a => exact ⟨_, rfl, hostEvent_inv (.load a) h⟩
  | store a b => exact ⟨_, rfl, hostEvent_inv (.store a b) h⟩
  | setFaults fs => exact ⟨_, rfl, hostEvent_inv (.setFaults fs) h⟩
  | assertReset => exact ⟨_, rfl, hostEvent_inv .assertReset h⟩
  | releaseReset => exact ⟨_, rfl, hostEvent_inv .releaseReset h⟩

/-- From a state that meets the invariant a step goes on, to one that meets it. -/
theorem step_goesOnInv {s : State} (h : s.Inv) : GoesOnInv (step s) := by
  rw [step_of_valid h.cfg_valid]
  cases hs : s.script with
  | nil => exact ⟨engineTurn s, by unfold runNext; rw [hs], engineTurn_inv h⟩
  | cons e rest =>
    rw [runNext_cons hs]
    exact runEvent_goesOnInv e (h.withQueues rest s.waiting)

/-- Settles O54: every command's rule is sound under any interleaving, and everything else a step can be keeps the invariant. -/
theorem stepKeepsInvariant : Obligations.StepKeepsInvariant := by
  unfold Obligations.StepKeepsInvariant
  intro s t h ht
  obtain ⟨u, hu, hinv⟩ := step_goesOnInv h
  cases hu.symm.trans ht
  exact hinv

end Sys2Proof.Machine
end

section
/-! PROOFS. The parameters of R7 that stand in `cfg` are fixed (log entry 4), from every state: outside the invariant too. -/

namespace Sys2Proof.Machine

/-! ## Events and windows -/

theorem releaseReset_cfg (s : State) : (releaseReset s).cfg = s.cfg := by
  unfold releaseReset; split <;> rfl

/-- Unlike `hostEvent_keeps` this asks nothing of the reset input. -/
theorem hostEvent_cfg (e : Event) (s : State) : (hostEvent e s).cfg = s.cfg := by
  cases e with
  | reg a =>
    obtain ⟨-, hc, -⟩ := busAccess_keeps a s
    exact hc
  | resume =>
    obtain ⟨-, hc, -⟩ := resumeAccess_keeps s
    exact hc
  | releaseReset => exact releaseReset_cfg s
  | load _ => rfl
  | store _ _ => rfl
  | setFaults _ => rfl
  | assertReset => rfl
  | engine => rfl
  | wait => rfl

theorem serve_cfg (l : List Event) : ∀ s : State, (serve l s).cfg = s.cfg := by
  induction l with
  | nil => exact fun _ => rfl
  | cons e l ih =>
    intro s
    have served : (serve l (hostEvent e s)).cfg = s.cfg := (ih _).trans (hostEvent_cfg e s)
    cases e with
    | wait => rfl
    | engine => rfl
    | assertReset => rfl
    | reg _ => exact served
    | load _ => exact served
    | store _ _ => exact served
    | setFaults _ => exact served
    | releaseReset => exact served
    | resume => exact served

theorem engineTurn_cfg (s : State) : (engineTurn s).cfg = s.cfg := by
  obtain ⟨-, he⟩ | ⟨-, -, he⟩ | ⟨-, -, he⟩ := engineTurn_cases s
  · rw [he]
  · rw [he, eraseAll_cfg]
  · rw [he, finishReset_cfg]

theorem engineFinish_cfg (s : State) : (engineFinish s).cfg = s.cfg := by
  obtain ⟨-, he⟩ | ⟨-, he⟩ := engineFinish_cases s
  · rw [he]
  · rw [he, finishReset_cfg]

/-! ## Executions -/

/-- In whatever way the execution ended, the parameters are `c`. -/
def Run.HasCfg (c : Params) : Run → Prop
  | .done s => s.cfg = c
  | .failed _ s => s.cfg = c
  | .abandoned s => s.cfg = c
  | .stopped _ => True

theorem Run.HasCfg.andThen {c : Params} {r : Run} {k : State → Run} (h : r.HasCfg c)
    (hk : ∀ s, s.cfg = c → (k s).HasCfg c) : (r.andThen k).HasCfg c := by
  cases r with
  | done s => exact hk s h
  | failed e s => exact h
  | abandoned s => exact h
  | stopped f => trivial

theorem Run.HasCfg.atWindow {c : Params} {s : State} {k : State → Run} (h : s.cfg = c)
    (hk : ∀ t, t.cfg = c → (k t).HasCfg c) : (atWindow s k).HasCfg c := by
  have hw : (window s).cfg = c := (serve_cfg _ s).trans h
  unfold Sys2Proof.Machine.atWindow
  split
  · exact hw
  · exact hk _ hw

theorem Run.HasCfg.close {c : Params} {r : Run} (h : r.HasCfg c) : r.close.HasCfg c := by
  cases r with
  | done s => exact .atWindow h (fun _ ht => ht)
  | failed e s => exact .atWindow h (fun _ ht => ht)
  | abandoned s => exact h
  | stopped f => trivial

/-- The outcome's next state, if there is one, has the parameters `c`. -/
def OutcomeHasCfg (c : Params) (o : Host.Outcome State Fault Refusal) : Prop := ∀ t, o = .next t → t.cfg = c

theorem OutcomeHasCfg.next {c : Params} {s : State} (h : s.cfg = c) : OutcomeHasCfg c (.next s) := by
  rintro t ⟨⟩; exact h

theorem Run.HasCfg.outcome {c : Params} {r : Run} (h : r.HasCfg c) : OutcomeHasCfg c r.outcome := by
  cases r with
  | done s => exact .next h
  | failed e s => exact .next h
  | abandoned s => exact .next h
  | stopped f => exact fun _ ht => nomatch ht

theorem command_hasCfg (w : Word) {body : State → Run} {s : State}
    (hbody : ∀ t, t.cfg = s.cfg → (body t).HasCfg s.cfg) : OutcomeHasCfg s.cfg (command w body s) :=
  (Run.HasCfg.atWindow (accept_cfg w s) hbody).close.outcome

/-! ## The commands' rules -/

theorem dmaRead_cfg {a : Nat} {s t : State} {b : Option Byte} (h : dmaRead a s = (b, t)) : t.cfg = s.cfg := by
  have hf : (dmaRead a s).2.cfg = s.cfg := by rw [dmaRead_frame]
  rwa [h] at hf

theorem dmaWrite_cfg {a : Nat} {v : Byte} {s t : State} {ok : Bool} (h : dmaWrite a v s = (ok, t)) : t.cfg = s.cfg := by
  have hf : (dmaWrite a v s).2.cfg = s.cfg := by rw [dmaWrite_frame]
  rwa [h] at hf

theorem loadSeed_hasCfg {c : Params} (n : Nat) : ∀ (j : Nat) {s : State}, s.cfg = c → (loadSeed n j s).HasCfg c := by
  induction n with
  | zero => exact fun _ _ h => h
  | succ n ih =>
    intro j s h
    rw [loadSeed]
    refine .atWindow h (fun t ht => ?_)
    split <;> rename_i hread
    · exact (dmaRead_cfg hread).trans ht
    · exact ih (j + 1) ((dmaRead_cfg hread).trans ht)

theorem loadKey_hasCfg {c : Params} (n : Nat) : ∀ (j : Nat) {s : State}, s.cfg = c → (loadKey n j s).HasCfg c := by
  induction n with
  | zero => exact fun _ _ h => h
  | succ n ih =>
    intro j s h
    rw [loadKey]
    refine .atWindow h (fun t ht => ?_)
    split <;> rename_i hread
    · exact (dmaRead_cfg hread).trans ht
    · exact ih (j + 1) ((dmaRead_cfg hread).trans ht)

theorem takeSeed_hasCfg {c : Params} (d : Bool) {s : State} (h : s.cfg = c) : (takeSeed d s).HasCfg c := by
  cases d with
  | true => exact h
  | false => exact loadSeed_hasCfg _ 0 h

theorem fillTable_cfg (t n : Nat) : ∀ (q : Nat) (s : State), (fillTable t n q s).cfg = s.cfg := by
  induction n with
  | zero => exact fun _ _ => rfl
  | succ n ih => exact fun q s => ih (q + 1) _

theorem fillTables_cfg (n : Nat) : ∀ (t : Nat) (s : State), (fillTables n t s).cfg = s.cfg := by
  induction n with
  | zero => exact fun _ _ => rfl
  | succ n ih => exact fun t s => (ih (t + 1) _).trans (fillTable_cfg t _ 0 s)

theorem generateAndDrop_cfg (s : State) : (generateAndDrop s).cfg = s.cfg := fillTables_cfg (opTableCount s) 0 _

theorem initBody_hasCfg {c : Params} (m : BitVec 2) (d : Bool) {s : State} (h : s.cfg = c) :
    (initBody m d s).HasCfg c := by
  unfold initBody
  split
  · exact h
  · split
    · exact h
    · refine (takeSeed_hasCfg d h).andThen (fun s1 h1 => ?_)
      refine (loadKey_hasCfg _ 0 h1).andThen (fun s2 h2 => ?_)
      refine .atWindow h2 (fun s3 h3 => ?_)
      refine .atWindow ((generateAndDrop_cfg s3).trans h3) (fun s4 h4 => ?_)
      exact .atWindow ((installKey_cfg _ s4).trans h4) (fun _ h5 => h5)

theorem resetStreamBody_hasCfg {c : Params} {s : State} (h : s.cfg = c) : (resetStreamBody s).HasCfg c := by
  unfold resetStreamBody; split <;> exact h

theorem byteStep_hasCfg {c : Params} (k : Nat) {s : State} (h : s.cfg = c) : (byteStep k s).HasCfg c := by
  unfold byteStep
  split
  · refine .atWindow h (fun t ht => ?_)
    split <;> rename_i hread
    · exact (dmaRead_cfg hread).trans ht
    · refine .atWindow ((dmaRead_cfg hread).trans ht) (fun u hu => ?_)
      split <;> rename_i hwrite
      · exact (dmaWrite_cfg hwrite).trans hu
      · exact (dmaWrite_cfg hwrite).trans hu
  · trivial

theorem byteSteps_hasCfg {c : Params} (n : Nat) : ∀ (k : Nat) {s : State}, s.cfg = c → (byteSteps n k s).HasCfg c := by
  induction n with
  | zero => exact fun _ _ h => h
  | succ n ih => exact fun k _ h => (byteStep_hasCfg k h).andThen (fun _ ht => ih (k + 1) ht)

theorem modeDispatch_cfg (s : State) : (modeDispatch s).cfg = s.cfg := by rw [modeDispatch_frame]

theorem cipherBody_hasCfg {c : Params} {s : State} (h : s.cfg = c) : (cipherBody s).HasCfg c := by
  unfold cipherBody
  split
  · exact h
  · exact byteSteps_hasCfg _ 0 ((modeDispatch_cfg s).trans h)

theorem destroyBody_hasCfg {c : Params} {s : State} (h : s.cfg = c) : (destroyBody s).HasCfg c := by
  unfold destroyBody
  split
  · exact h
  · exact .atWindow ((eraseAll_cfg s).trans h) (fun _ ht => ht)

theorem setModeBody_hasCfg {c : Params} (m : BitVec 2) {s : State} (h : s.cfg = c) : (setModeBody m s).HasCfg c := by
  unfold setModeBody
  split
  · exact h
  · split <;> exact h

/-! ## Steps -/

theorem exec_hasCfg (i : Instr) (s : State) : OutcomeHasCfg s.cfg (exec i s) := by
  cases i with
  | init m d => exact command_hasCfg _ (fun _ h => initBody_hasCfg m d h)
  | resetStream => exact command_hasCfg _ (fun _ h => resetStreamBody_hasCfg h)
  | cipher => exact command_hasCfg _ (fun _ h => cipherBody_hasCfg h)
  | destroy => exact command_hasCfg _ (fun _ h => destroyBody_hasCfg h)
  | setMode m => exact command_hasCfg _ (fun _ h => setModeBody_hasCfg m h)

theorem runWord_hasCfg (w : Word) (s : State) : OutcomeHasCfg s.cfg (runWord w s) := by
  unfold runWord
  split
  · exact exec_hasCfg _ s
  · exact command_hasCfg w (fun _ h => h)

theorem present_hasCfg (a : RegAccess) (s : State) : OutcomeHasCfg s.cfg (present a s) := by
  cases ha : acceptedWord a s with
  | some w => rw [present_accepted ha]; exact runWord_hasCfg w (answer .written s)
  | none => rw [present_other ha]; exact .next (hostEvent_cfg (.reg a) s)

theorem presentWaiting_hasCfg (s : State) : OutcomeHasCfg s.cfg (presentWaiting s) := by
  unfold presentWaiting
  split
  · exact .next rfl
  · split
    · exact .next rfl
    · exact present_hasCfg _ { s with waiting := _ }

theorem runEvent_hasCfg (e : Event) (s : State) : OutcomeHasCfg s.cfg (runEvent e s) := by
  cases e with
  | reg a => exact present_hasCfg a s
  | resume => exact presentWaiting_hasCfg s
  | engine => exact .next (engineTurn_cfg s)
  | wait => exact .next (engineFinish_cfg s)
  | load a => exact .next (hostEvent_cfg (.load a) s)
  | store a b => exact .next (hostEvent_cfg (.store a b) s)
  | setFaults fs => exact .next (hostEvent_cfg (.setFaults fs) s)
  | assertReset => exact .next (hostEvent_cfg .assertReset s)
  | releaseReset => exact .next (hostEvent_cfg .releaseReset s)

theorem runNext_hasCfg (s : State) : OutcomeHasCfg s.cfg (runNext s) := by
  cases hs : s.script with
  | nil => unfold runNext; rw [hs]; exact .next (engineTurn_cfg s)
  | cons e rest => rw [runNext_cons hs]; exact runEvent_hasCfg e { s with script := rest }

theorem step_of_not_valid {s : State} (h : ¬ s.cfg.valid = true) : step s = .refused .badConfiguration := if_neg h

/-- Settles O53: a legal configuration is carried through whatever the step is, and an illegal one has no next state. -/
theorem stepKeepsConfiguration : Obligations.StepKeepsConfiguration := by
  unfold Obligations.StepKeepsConfiguration
  intro s t ht
  by_cases hv : s.cfg.valid = true
  · rw [step_of_valid hv] at ht
    exact runNext_hasCfg s t ht
  · rw [step_of_not_valid hv] at ht
    cases ht

end Sys2Proof.Machine
end

section
/-! PROOFS. Accesses while reset is asserted (R230), and illegal parameters (R8). -/

namespace Sys2Proof.Machine

theorem present_inReset {s : State} {a : RegAccess} (hr : s.inReset = true) (hw : inWindow s a.addr = true) :
    present a s = .next (accessInReset a s) := by
  rw [present_other (acceptedWord_inReset a hr), busAccess_inReset hr hw]

/-- Settles O19: no word is accepted, so the access is the bus's, which looks at RESET_ACCESS alone. -/
theorem accessDuringResetReachesNoRegister : Obligations.AccessDuringResetReachesNoRegister := by
  unfold Obligations.AccessDuringResetReachesNoRegister
  intro s a rest hv hr hs hw
  have hstep : step s = .next (accessInReset a { s with script := rest }) :=
    (step_reg hv hs).trans (present_inReset hr (inWindow_of hw))
  unfold accessInReset at hstep
  cases hc : Config.resetAccess with
  | error => rw [hc] at hstep; exact .inl ⟨rfl, hstep⟩
  | wait => rw [hc] at hstep; exact .inr ⟨rfl, hstep⟩

/-- `DEFAULT_SEED` is as long as its parameter says (R7). -/
@[simp] theorem length_defaultSeed (p : Params) : (defaultSeed p).length = p.defaultSeedLen := by simp [defaultSeed]

theorem defaults_valid : Config.defaults.valid = true := by decide

/-- Settles O52: `Params.valid` implies each of the six constraints, so breaking one makes it false. -/
theorem badConfigurationIsRefused : Obligations.BadConfigurationIsRefused := by
  unfold Obligations.BadConfigurationIsRefused
  refine ⟨defaults_valid, fun s hbroken => step_of_not_valid (fun hv => ?_)⟩
  obtain ⟨hmin, hdefault, hmax, hsize, hhash, hkey, hkeyMax, hseedMax, hseed, -, -⟩ := (params_valid_iff s.cfg).1 hv
  obtain h | h | h | h | h | h := hbroken
  · exact h ⟨hmin, hdefault, hmax⟩
  · exact h hsize
  · exact h (by simpa using hhash)
  · exact h ⟨hkey, hkeyMax⟩
  · exact h hseedMax
  · exact h (by simpa using hseed)

end Sys2Proof.Machine
end

section
/-! PROOFS. The family of 10_state.md: what a read and a write of each register of the window do, and the state after reset. -/

namespace Sys2Proof.Machine

/-! ## The parameter registers (R42 to R49) -/

/-- The parameter registers with `v` in the one at the offset `off`. -/
def ParamRegs.set (off : Nat) (v : Word) (r : ParamRegs) : ParamRegs where
  seedAddr := if off = 0x10 then v else r.seedAddr
  seedLen := if off = 0x14 then v else r.seedLen
  keyAddr := if off = 0x18 then v else r.keyAddr
  keyLen := if off = 0x1C then v else r.keyLen
  tableCount := if off = 0x20 then v else r.tableCount
  srcAddr := if off = 0x24 then v else r.srcAddr
  dstAddr := if off = 0x28 then v else r.dstAddr
  len := if off = 0x2C then v else r.len

theorem mem_paramOffsets {off : Nat} : off ∈ paramOffsets ↔
    off = 0x10 ∨ off = 0x14 ∨ off = 0x18 ∨ off = 0x1C ∨ off = 0x20 ∨ off = 0x24 ∨ off = 0x28 ∨ off = 0x2C := by
  simp [paramOffsets]

/-- A parameter write reaches the parameter registers alone, BUSY or not (R236). -/
theorem writeReg_param {off : Nat} (h : off ∈ paramOffsets) (v : Word) (s : State) :
    writeReg off v s = { s with regs := s.regs.set off v } := by
  obtain rfl | rfl | rfl | rfl | rfl | rfl | rfl | rfl := mem_paramOffsets.1 h <;> rfl

theorem readReg_set_same {off : Nat} (h : off ∈ paramOffsets) (v : Word) (s : State) :
    readReg off { s with regs := s.regs.set off v } = v := by
  obtain rfl | rfl | rfl | rfl | rfl | rfl | rfl | rfl := mem_paramOffsets.1 h <;> rfl

theorem readReg_set_other {off off' : Nat} (h : off' ∈ paramOffsets) (hne : off ≠ off') (v : Word) (s : State) :
    readReg off' { s with regs := s.regs.set off v } = readReg off' s := by
  obtain rfl | rfl | rfl | rfl | rfl | rfl | rfl | rfl := mem_paramOffsets.1 h <;> exact if_neg hne

/-- Settles O11: a parameter write is `ParamRegs.set` on the registers, and a read shows the field it names. -/
theorem parameterRegistersReadBack : Obligations.ParameterRegistersReadBack := by
  unfold Obligations.ParameterRegistersReadBack
  intro s off v h
  rw [writeReg_param h]
  exact ⟨readReg_set_same h v s, fun off' h' hne => readReg_set_other h' hne.symm v s, rfl⟩

/-! ## The test port and the reserved offsets (R50 to R57) -/

/-- Above the parameter registers, and at the one gap below them, an offset is the test port's or reserved (R38). -/
theorem readReg_testPort {off : Nat} (h : off = 0x0C ∨ 0x30 ≤ off) (s : State) : readReg off s = testPortRead off s := by
  unfold readReg
  split
  case h_12 => rfl
  all_goals omega

theorem writeReg_testPort {off : Nat} (h : off = 0x0C ∨ 0x30 ≤ off) (v : Word) (s : State) :
    writeReg off v s = writeTestPort off v s := by
  unfold writeReg
  split
  case h_11 => rfl
  all_goals omega

/-- TEST_SEL and TEST_IDX are all that the test port lets a host write (R50 to R56). -/
theorem writeTestPort_other {off : Nat} (hsel : off ≠ 0x40) (hidx : off ≠ 0x44) (v : Word) (s : State) :
    writeTestPort off v s = s := by
  unfold writeTestPort
  split
  · rfl
  · split
    · exact absurd rfl hsel
    · exact absurd rfl hidx
    · rfl

/-- Without the test port its offsets are reserved (R57). -/
theorem testPort_absent {s : State} (h : s.cfg.testPort = false) (off : Nat) (v : Word) :
    testPortRead off s = 0 ∧ writeTestPort off v s = s := ⟨if_pos h, if_pos h⟩

/-- The test port shows nothing outside its seven registers. -/
theorem testPortRead_outside {off : Nat} (h : off < 0x40 ∨ 0x58 < off) (s : State) : testPortRead off s = 0 := by
  unfold testPortRead
  split
  · rfl
  · split
    case h_8 => rfl
    all_goals omega

/-- What each register of the test port shows with TEST_PORT = 1 (R50 to R56). -/
theorem readReg_present {s : State} (h : s.cfg.testPort = true) :
    readReg 0x40 s = s.testSel.setWidth 32 ∧ readReg 0x44 s = s.testIdx ∧ readReg 0x48 s = testDataRead s ∧
    readReg 0x4C s = testNumberRead s (BitVec.ofInt 32 s.ki) ∧ readReg 0x50 s = testNumberRead s (BitVec.ofNat 32 s.si) ∧
    readReg 0x54 s = testNumberRead s (BitVec.ofNat 32 s.klen) ∧
    readReg 0x58 s = testNumberRead s (BitVec.ofNat 32 s.tcnt) := by
  simp [readReg, testPortRead, h]

/-- The two selectors are written whatever BUSY is (R50, R51). -/
theorem writeReg_present {s : State} (h : s.cfg.testPort = true) (v : Word) :
    writeReg 0x40 v s = { s with testSel := v.extractLsb' 0 2 } ∧ writeReg 0x44 v s = { s with testIdx := v } := by
  simp [writeReg, writeTestPort, h]

/-- TEST_SEL's reserved bits are dropped (R50). -/
theorem setWidth_low_two (v : Word) : (v.extractLsb' 0 2).setWidth 32 = v &&& 3 := by
  refine BitVec.eq_of_toNat_eq ?_
  have hand : v.toNat &&& 3 = v.toNat % 4 := Nat.and_two_pow_sub_one_eq_mod v.toNat 2
  rw [BitVec.toNat_setWidth, BitVec.extractLsb'_toNat, Nat.shiftRight_zero]
  exact (Nat.mod_eq_of_lt (by omega)).trans hand.symm

/-- Settles O57: TEST_SEL keeps the low two bits and TEST_IDX the word. -/
theorem testSelectorsReadBack : Obligations.TestSelectorsReadBack := by
  unfold Obligations.TestSelectorsReadBack
  intro s v h
  obtain ⟨hsel, hidx⟩ := writeReg_present h v
  rw [hsel, hidx]
  refine ⟨?_, rfl, ?_, rfl⟩
  · obtain ⟨hread, -⟩ := readReg_present (s := { s with testSel := v.extractLsb' 0 2 }) h
    rw [hread, setWidth_low_two]
  · obtain ⟨-, hread, -⟩ := readReg_present (s := { s with testIdx := v }) h
    exact hread

/-- Settles O13: a reserved offset is none of the window's registers; TEST_SEL's half is O57's. -/
theorem reservedOffsetsReadZeroAndIgnoreWrites : Obligations.ReservedOffsetsReadZeroAndIgnoreWrites := by
  unfold Obligations.ReservedOffsetsReadZeroAndIgnoreWrites
  refine ⟨fun s off v _ _ h => ?_, fun s v h => ?_⟩
  · have hport : off = 0x0C ∨ 0x30 ≤ off := by omega
    rw [readReg_testPort hport, writeReg_testPort hport]
    by_cases hout : off < 0x40 ∨ 0x58 < off
    · exact ⟨testPortRead_outside hout s, writeTestPort_other (by omega) (by omega) v s⟩
    · obtain h | h | h | ⟨-, -, habsent⟩ := h
      case inr.inr.inr => exact testPort_absent habsent off v
      all_goals omega
  · obtain ⟨hread, hwrite, -⟩ := testSelectorsReadBack s v h
    exact ⟨hread, hwrite⟩

/-- Settles O18: the draw is cut to a byte. -/
theorem busyTestDataIsAByte : Obligations.BusyTestDataIsAByte := by
  unfold Obligations.BusyTestDataIsAByte
  intro s hb
  cases h : s.cfg.testPort with
  | false =>
    obtain ⟨hread, -⟩ := testPort_absent h 0x48 0
    rw [readReg_testPort (.inr (by decide)), hread]
    decide
  | true =>
    obtain ⟨-, -, hread, -⟩ := readReg_present h
    rw [hread, testDataRead, if_pos hb, BitVec.toNat_setWidth]
    exact Nat.lt_of_le_of_lt (Nat.mod_le _ _) (BitVec.isLt _)

/-- With BUSY = 0 TEST_DATA shows the byte that TEST_SEL and TEST_IDX name (R52). -/
theorem testDataRead_idle {s : State} (hb : s.busy = false) : testDataRead s = (testByte s).setWidth 32 := by
  simp [testDataRead, hb]

/-- A number is shown exactly while BUSY = 0 (R53 to R56). -/
theorem testNumberRead_idle {s : State} (hb : s.busy = false) (v : Word) : testNumberRead s v = v := by
  simp [testNumberRead, hb]

/-- The storages' windows of the test port end where the storages do (R50, R52). -/
theorem testByte_cases (s : State) :
    (s.testSel = 0 → testByte s = if s.testIdx.toNat < s.cfg.keyMaxLen then Memory.read s.kb s.testIdx.toNat else 0) ∧
    (s.testSel = 1 → testByte s = if s.testIdx.toNat < s.cfg.keyMaxLen then Memory.read s.okb s.testIdx.toNat else 0) ∧
    (s.testSel = 2 → testByte s = if s.testIdx.toNat < s.cfg.maxTables * 256 then Memory.read s.st s.testIdx.toNat else 0) ∧
    (s.testSel = 3 → testByte s = 0) := by
  refine ⟨fun h => ?_, fun h => ?_, fun h => ?_, fun h => ?_⟩ <;> unfold testByte <;> rw [h] <;> rfl

/-- Settles O17: each register of the idle test port shows its field, and only the two selectors can be written. -/
theorem testPortShowsTheStorages : Obligations.TestPortShowsTheStorages := by
  unfold Obligations.TestPortShowsTheStorages
  intro s h hb
  obtain ⟨-, -, hdata, hki, hsi, hklen, htcnt⟩ := readReg_present h
  rw [testDataRead_idle hb] at hdata
  rw [testNumberRead_idle hb] at hki hsi hklen htcnt
  obtain ⟨hkb, hokb, hst, hnone⟩ := testByte_cases s
  rw [hdata, hki, hsi, hklen, htcnt]
  refine ⟨?_, ?_, ?_, ?_, ?_, ?_, rfl, ?_, rfl, rfl, rfl, ?_⟩
  · intro hsel hin; rw [hkb hsel, if_pos hin]
  · intro hsel hin; rw [hokb hsel, if_pos hin]
  · intro hsel hin; rw [hst hsel, if_pos hin]
  · rintro (hsel | hsel) hout
    · rw [hkb hsel, if_neg (Nat.not_lt.2 hout)]; rfl
    · rw [hokb hsel, if_neg (Nat.not_lt.2 hout)]; rfl
  · intro hsel hout; rw [hst hsel, if_neg (Nat.not_lt.2 hout)]; rfl
  · intro hsel; rw [hnone hsel]; rfl
  · intro hneg; rw [hneg]; rfl
  · intro v off hoff
    have hport : 0x48 ≤ off := (by decide : ∀ off ∈ [0x48, 0x4C, 0x50, 0x54, 0x58], 0x48 ≤ off) off hoff
    rw [writeReg_testPort (.inr (by omega)), writeTestPort_other (by omega) (by omega)]

/-! ## STATUS and PROGRESS (R40, R41) -/

theorem writeStatus_eq (v : Word) (s : State) :
    writeStatus v s = { s with ovr := if v.getLsbD 1 then false else s.ovr } := by
  unfold writeStatus; split <;> rfl

/-- A field that begins above the lower word of two side by side is a field of the upper one. -/
theorem extract_above {v w start len : Nat} {hi : BitVec v} {lo : BitVec w} {field : BitVec len}
    (h : hi.extractLsb' (start - w) len = field) (hw : w ≤ start := by decide) : (hi ++ lo).extractLsb' start len = field :=
  (BitVec.extractLsb'_append_eq_of_le hw).trans h

/-- The fields of STATUS, each found by passing over those below it (R40). -/
theorem statusWord_fields (s : State) :
    (statusWord s).getLsbD 0 = s.busy ∧ (statusWord s).getLsbD 1 = s.ovr ∧
    (statusWord s).extractLsb' 2 2 = s.lc.code ∧ (statusWord s).extractLsb' 4 2 = s.mode.code ∧
    (statusWord s).extractLsb' 6 2 = 0 ∧ (statusWord s).extractLsb' 8 4 = s.err.code ∧
    (statusWord s).extractLsb' 12 20 = 0 := by
  have here {v w : Nat} (hi : BitVec v) (lo : BitVec w) : (hi ++ lo).extractLsb' 0 w = lo := BitVec.extractLsb'_append_eq_right
  refine ⟨?_, ?_, ?_, ?_, ?_, ?_, ?_⟩
  · exact BitVec.getLsbD_append.trans (by simp)
  · exact BitVec.getLsbD_append.trans (BitVec.getLsbD_append.trans (by simp))
  · exact extract_above (extract_above (here _ _))
  · exact extract_above (extract_above (extract_above (here _ _)))
  · exact extract_above (extract_above (extract_above (extract_above (here _ _))))
  · exact extract_above (extract_above (extract_above (extract_above (extract_above (here _ _)))))
  · exact extract_above (extract_above (extract_above (extract_above (extract_above (extract_above BitVec.extractLsb'_eq_self)))))

/-- Settles O12: the fields of STATUS are read off the word's layout, and the code tables are the definitions'. -/
theorem statusFieldsAndWriteOneToClear : Obligations.StatusFieldsAndWriteOneToClear := by
  unfold Obligations.StatusFieldsAndWriteOneToClear
  exact ⟨statusWord_fields, fun s v => writeStatus_eq v s, by decide, by decide, by decide, by decide⟩

/-- A draw of PROGRESS is at most the larger of LEN and its latched copy (R41; log entry 13). -/
theorem progressRead_busy_le {s : State} (hb : s.busy = true) :
    (progressRead s).toNat ≤ max s.regs.len.toNat s.latch.regs.len.toNat := by
  unfold progressRead
  rw [if_pos hb, BitVec.toNat_ofNat]
  calc _ ≤ (Config.draw s.draws).toNat % (max s.regs.len.toNat s.latch.regs.len.toNat + 1) := Nat.mod_le _ _
    _ ≤ _ := Nat.le_of_lt_succ (Nat.mod_lt _ (Nat.succ_pos _))

/-- Settles O16: with LEN as latched, the bound of the draw is LEN. -/
theorem progressReadsExactlyOrWithinLen : Obligations.ProgressReadsExactlyOrWithinLen := by
  unfold Obligations.ProgressReadsExactlyOrWithinLen
  refine ⟨fun s hb => ?_, fun s hb hlen => ?_, fun s v => ?_⟩
  · show progressRead s = s.progress
    simp [progressRead, hb]
  · have hle := progressRead_busy_le hb
    rwa [← hlen, Nat.max_self] at hle
  · show writeTestPort 0x08 v s = s
    exact writeTestPort_other (by decide) (by decide) v s

/-! ## Writes as a step meets them (R38, R39, R64) -/

/-- The write rule reads neither the script nor the record of answers. -/
theorem answer_writeReg (off : Nat) (v : Word) (s : State) (l : List Event) :
    answer .written (writeReg off v { s with script := l }) =
      { writeReg off v s with script := l, answers := .written :: s.answers } := by
  obtain ⟨-, -, -, -, -, -, -, -, hanswers, -⟩ := writeReg_keeps off v s
  rw [writeReg_script, ← hanswers]
  rfl

/-- Settles O59: the write is no accepted word, for its offset or for BUSY, and the bus answers it. -/
theorem registerWriteReachesItsRegister : Obligations.RegisterWriteReachesItsRegister := by
  unfold Obligations.RegisterWriteReachesItsRegister
  intro s off v rest hv hr hin halign hnot hs
  have hnone : acceptedWord (regWrite s.cfg.base off v) { s with script := rest } = none := by
    obtain hne | hb := hnot
    · exact acceptedWord_offset (s := { s with script := rest }) hin halign hne
    · exact acceptedWord_busy _ hb
  have hbus := busAccess_write (s := { s with script := rest }) (v := v) hr hin halign
  rw [step_reg hv hs, present_other hnone, hbus, answer_writeReg]

/-- A CMD write while BUSY = 1 is dropped and sets OVR (R39, R235). -/
theorem writeReg_cmd_busy {s : State} (hb : s.busy = true) (w : Word) :
    writeReg (0 : Word).toNat w s = { s with ovr := true } := if_pos hb

/-- Settles O8: O59 at CMD, whose write rule only sets OVR while BUSY = 1. -/
theorem commandDuringEraseOnlySetsOvr : Obligations.CommandDuringEraseOnlySetsOvr := by
  unfold Obligations.CommandDuringEraseOnlySetsOvr
  intro s w rest hv hb hr hs
  have hstep := registerWriteReachesItsRegister s 0 w rest hv hr (by decide) (by decide) (.inr hb) hs
  rw [hstep, writeReg_cmd_busy hb]

theorem runWord_of_decode {w : Word} {i : Instr} (h : decode w = .ok i) (s : State) : runWord w s = exec i s := by
  unfold runWord; rw [h]

/-- Settles O7: the write is accepted, and its word decodes to the command. -/
theorem stepRunsDecodedCommand : Obligations.StepRunsDecodedCommand := by
  unfold Obligations.StepRunsDecodedCommand
  intro s w i rest hv hb hr hs hd
  have haccepted := acceptedWord_cmd (s := { s with script := rest }) (w := w) hr hb
  rw [step_reg hv hs, present_accepted haccepted, runWord_of_decode hd]
  rfl

/-! ## The state after reset (R232) -/

/-- Settles O24: the fixed state is evaluated, register by register. -/
theorem resetRegisterValues : Obligations.ResetRegisterValues := by
  unfold Obligations.ResetRegisterValues
  decide

/-- Settles O55: the state after reset is an erased one, as R31 says. -/
theorem resetStateMeetsInvariant : Obligations.ResetStateMeetsInvariant := by
  unfold Obligations.ResetStateMeetsInvariant
  have herased : State.reset.ErasedInv := eraseAll_erased State.reset
  exact .of_settled defaults_valid ⟨rfl, rfl, rfl, rfl, rfl⟩ rfl
    ⟨fun hready => Lifecycle.noConfusion hready, fun _ => herased⟩

end Sys2Proof.Machine
end

section
/-! PROOFS. The family of 10_state.md: a host's register write that falls into a running command (R33, R235, R236). -/

namespace Sys2Proof.Machine

/-- A host's write before its WAIT, which changes the parameter registers by `regs` and OVR by `ovr`; the command may be over
before it. -/
def hostWrite (base off v : Word) (rest : List Event) (regs : ParamRegs → ParamRegs) (ovr : Bool → Bool) : Overlay where
  e := .reg (regWrite base off v)
  rest := rest
  regs := regs
  ovr := ovr
  base := base
  late := True

/-- The overlay is the model's, where `regs` and `ovr` say what the register's write rule does while BUSY = 1. -/
theorem hostWrite_legal {base off v : Word} (rest : List Event) {regs : ParamRegs → ParamRegs} {ovr : Bool → Bool}
    (hin : off.toNat < 256) (halign : off.toNat % 4 = 0)
    (hrule : ∀ s : State, s.busy = true → writeReg off.toNat v s = { s with regs := regs s.regs, ovr := ovr s.ovr }) :
    (hostWrite base off v rest regs ovr).Legal := by
  intro s hb hr hbase
  have hbus : busAccess (regWrite base off v) s = answer .written (writeReg off.toNat v s) := by
    rw [← (show s.cfg.base = base from hbase)]
    exact busAccess_write hr hin halign
  rw [hrule s hb] at hbus
  exact congrArg (serve (.wait :: rest)) hbus

/-- A CMD write while a command runs: OVR is set (R235). -/
theorem cmdWrite_legal (base w : Word) (rest : List Event) : (hostWrite base 0 w rest id (fun _ => true)).Legal :=
  hostWrite_legal rest (by decide) (by decide) (fun _ hb => writeReg_cmd_busy hb w)

/-- A parameter write while a command runs: the register takes the value (R236). -/
theorem paramWrite_legal (base : Word) {off : Word} (h : off.toNat ∈ paramOffsets) (v : Word) (rest : List Event) :
    (hostWrite base off v rest (ParamRegs.set off.toNat v) id).Legal := by
  have hoff := mem_paramOffsets.1 h
  exact hostWrite_legal rest (by omega) (by omega) (fun s _ => writeReg_param h v s)

/-- A CMD write that comes before everything else is already served when the command's first window ends. -/
theorem exec_cmdWrite_first (i : Instr) {s : State} {w : Word} {rest : List Event} (hr : s.inReset = false)
    (hs : s.script = .reg (regWrite s.cfg.base 0 w) :: .wait :: rest) :
    exec i s = exec i { s with script := .wait :: rest, answers := .written :: s.answers, ovr := true } := by
  refine exec_congr ?_
  have hserved := cmdWrite_legal s.cfg.base w rest (accept (encode i) s) rfl hr rfl
  calc window (accept (encode i) s)
      = serve (.reg (regWrite s.cfg.base 0 w) :: .wait :: rest) (accept (encode i) s) := by
        unfold window; rw [accept_script, hs]
    _ = window (accept (encode i) { s with script := .wait :: rest, answers := .written :: s.answers, ovr := true }) := hserved

/-- A command with the write in its script and the same command without it: the write has taken effect, in the first window where
no mark comes before it, or it still stands in the script when the command is over. -/
theorem exec_with_hostWrite {off v : Word} {rest : List Event} {regs : ParamRegs → ParamRegs} {ovr : Bool → Bool} (i : Instr)
    {s t : State} {before : List Event} (hlegal : (hostWrite s.cfg.base off v rest regs ovr).Legal) (hr : s.inReset = false)
    (hs : s.script = before ++ .reg (regWrite s.cfg.base off v) :: .wait :: rest)
    (ht : exec i { s with script := before ++ .wait :: rest } = .next t) :
    ((∀ e ∈ before, e ≠ .engine ∧ e ≠ .wait ∧ e ≠ .assertReset) →
      exec i s = .next { t with regs := regs t.regs, ovr := ovr t.ovr, answers := .written :: t.answers }) ∧
    (exec i s = .next { t with regs := regs t.regs, ovr := ovr t.ovr, answers := .written :: t.answers } ∨
      ∃ left : List Event, t.script = left ++ .wait :: rest ∧
        exec i s = .next { t with script := left ++ .reg (regWrite s.cfg.base off v) :: .wait :: rest }) := by
  have hself : s = { ({ s with script := before ++ .wait :: rest } : State) with
      script := before ++ .reg (regWrite s.cfg.base off v) :: .wait :: rest } := by rw [← hs]
  obtain ⟨hany, hfirst⟩ := exec_with_access (b := { s with script := before ++ .wait :: rest }) hlegal trivial i hr
    rfl rfl hself ht
  exact ⟨hfirst, hany⟩

/-- Settles O9: a CMD write is an overlay that sets OVR, and a command runs alike with and without it. -/
theorem commandDuringCommandIsLost : Obligations.CommandDuringCommandIsLost := by
  unfold Obligations.CommandDuringCommandIsLost
  intro i s w before rest hr hs
  refine ⟨fun hfirst => ?_, fun t ht => exec_with_hostWrite i (cmdWrite_legal s.cfg.base w rest) hr hs ht⟩
  subst hfirst
  exact exec_cmdWrite_first i hr hs

/-- Settles O10: a parameter write is an overlay of the registers, which no command reads after its acceptance. -/
theorem runningCommandUsesLatchedOperands : Obligations.RunningCommandUsesLatchedOperands := by
  unfold Obligations.RunningCommandUsesLatchedOperands
  intro i s t off v before rest hr hoff hs ht
  rw [writeReg_param hoff]
  exact exec_with_hostWrite i (paramWrite_legal s.cfg.base hoff v rest) hr hs ht

end Sys2Proof.Machine
end

section
/-! PROOFS. The family of 10_state.md: what a command never writes, from every state and whatever the other agents do. -/

namespace Sys2Proof.Machine

/-! ## Predicates that the commands cannot change -/

/-- `I` is kept by the other agents' accesses and speaks of nothing that RESET_STREAM, CIPHER or SET_MODE writes. -/
structure KeptByStream (I : State → Prop) : Prop where
  window : ∀ {s : State}, I s → s.inReset = false → I (window s)
  stream : ∀ {s : State}, I s → ∀ mode kb ki si progress mem dma,
    I { s with mode := mode, kb := kb, ki := ki, si := si, progress := progress, mem := mem, dma := dma }

/-- `I` speaks of nothing that any command writes before its completion. -/
structure KeptByCommands (I : State → Prop) : Prop extends KeptByStream I where
  engine : ∀ {s : State}, I s → ∀ lc mode kb okb klen st tcnt ki si seedbuf slen gctr,
    I { s with lc := lc, mode := mode, kb := kb, okb := okb, klen := klen, st := st, tcnt := tcnt, ki := ki, si := si,
               seedbuf := seedbuf, slen := slen, gctr := gctr }

/-- `I` holds with reset released. -/
def Released (I : State → Prop) (s : State) : Prop := I s ∧ s.inReset = false

/-- In whatever way the execution ended, `I` holds, and only a reset has abandoned it. -/
def Run.Keeps (I : State → Prop) : Run → Prop
  | .done s => Released I s
  | .failed _ s => Released I s
  | .abandoned s => I s ∧ s.inReset = true
  | .stopped _ => True

variable {I : State → Prop}

theorem Run.Keeps.andThen {r : Run} {k : State → Run} (h : r.Keeps I) (hk : ∀ s, Released I s → (k s).Keeps I) :
    (r.andThen k).Keeps I := by
  cases r with
  | done s => exact hk s h
  | failed e s => exact h
  | abandoned s => exact h
  | stopped f => trivial

theorem Run.Keeps.atWindow (hI : KeptByStream I) {s : State} {k : State → Run} (h : Released I s)
    (hk : ∀ t, Released I t → (k t).Keeps I) : (atWindow s k).Keeps I := by
  obtain ⟨hs, hr⟩ := h
  have hw : I (window s) := hI.window hs hr
  unfold Sys2Proof.Machine.atWindow
  split
  case isTrue hreset => exact ⟨hw, hreset⟩
  case isFalse hup => exact hk _ ⟨hw, Bool.eq_false_of_not_eq_true hup⟩

theorem Run.Keeps.close (hI : KeptByStream I) {r : Run} (h : r.Keeps I) : r.close.Keeps I := by
  cases r with
  | done s => exact .atWindow hI h (fun _ ht => ht)
  | failed e s => exact .atWindow hI h (fun _ ht => ht)
  | abandoned s => exact h
  | stopped f => trivial

/-- What a command's next state is: a completion with reset released, or the state in which a reset stopped it. -/
theorem command_keeps (hI : KeptByStream I) {w : Word} {body : State → Run} {s t : State} (h : Released I (accept w s))
    (hbody : ∀ u, Released I u → (body u).Keeps I) (ht : command w body s = .next t) :
    (∃ e u, t = complete e u ∧ Released I u) ∨ (I t ∧ t.inReset = true) := by
  have hrun := (Run.Keeps.atWindow hI h hbody).close hI
  unfold command at ht
  generalize (Sys2Proof.Machine.atWindow (accept w s) body).close = r at hrun ht
  cases r with
  | done u => cases ht; exact .inl ⟨.none, u, rfl, hrun⟩
  | failed e u => cases ht; exact .inl ⟨e, u, rfl, hrun⟩
  | abandoned u => cases ht; exact .inr hrun
  | stopped f => cases ht

/-! ## RESET_STREAM, CIPHER and SET_MODE -/

theorem resetCore_released (hI : KeptByStream I) {s : State} (h : Released I s) : Released I (resetCore s) :=
  ⟨hI.stream h.1 s.mode _ _ _ s.progress s.mem s.dma, h.2⟩

theorem dmaRead_released (hI : KeptByStream I) {a : Nat} {s t : State} {b : Option Byte} (h : Released I s)
    (hd : dmaRead a s = (b, t)) :
    Released I t := by
  have hf : t = { s with dma := t.dma } := by simpa only [hd] using dmaRead_frame a s
  rw [hf]
  exact ⟨hI.stream h.1 s.mode s.kb s.ki s.si s.progress s.mem _, h.2⟩

theorem dmaWrite_released (hI : KeptByStream I) {a : Nat} {v : Byte} {s t : State} {ok : Bool} (h : Released I s)
    (hd : dmaWrite a v s = (ok, t)) : Released I t := by
  have hf : t = { s with mem := t.mem, dma := t.dma } := by simpa only [hd] using dmaWrite_frame a v s
  rw [hf]
  exact ⟨hI.stream h.1 s.mode s.kb s.ki s.si s.progress _ _, h.2⟩

theorem commitStep_released (hI : KeptByStream I) (k : Nat) {s : State} (h : Released I s) : Released I (commitStep k s) :=
  ⟨hI.stream h.1 s.mode _ _ _ _ s.mem s.dma, h.2⟩

theorem resetStreamBody_keeps (hI : KeptByStream I) {s : State} (h : Released I s) : (resetStreamBody s).Keeps I := by
  unfold resetStreamBody
  split
  · exact h
  · exact resetCore_released hI h

theorem setModeBody_keeps (hI : KeptByStream I) (m : BitVec 2) {s : State} (h : Released I s) : (setModeBody m s).Keeps I := by
  unfold setModeBody
  split
  · exact h
  · split
    · exact h
    · exact ⟨hI.stream h.1 _ s.kb s.ki s.si s.progress s.mem s.dma, h.2⟩

theorem byteStep_keeps (hI : KeptByStream I) (k : Nat) {s : State} (h : Released I s) : (byteStep k s).Keeps I := by
  unfold byteStep
  split
  · refine .atWindow hI h (fun t ht => ?_)
    split <;> rename_i hread
    · exact dmaRead_released hI ht hread
    · refine .atWindow hI (dmaRead_released hI ht hread) (fun u hu => ?_)
      split <;> rename_i hwrite
      · exact dmaWrite_released hI hu hwrite
      · exact commitStep_released hI k (dmaWrite_released hI hu hwrite)
  · trivial

theorem byteSteps_keeps (hI : KeptByStream I) (n : Nat) : ∀ (k : Nat) {s : State}, Released I s → (byteSteps n k s).Keeps I := by
  induction n with
  | zero => exact fun _ _ h => h
  | succ n ih => exact fun k _ h => (byteStep_keeps hI k h).andThen (fun _ ht => ih (k + 1) ht)

theorem cipherBody_keeps (hI : KeptByStream I) {s : State} (h : Released I s) : (cipherBody s).Keeps I := by
  unfold cipherBody
  split
  · exact h
  · refine byteSteps_keeps hI _ 0 ?_
    unfold modeDispatch
    split
    · exact resetCore_released hI h
    · exact h

/-- The three commands keep what they do not write. -/
theorem exec_stream_keeps (hI : KeptByStream I) {i : Instr} (hi : i = .resetStream ∨ i = .cipher ∨ ∃ m, i = .setMode m)
    {s t : State} (h : Released I (accept (encode i) s)) (ht : exec i s = .next t) :
    (∃ e u, t = complete e u ∧ Released I u) ∨ (I t ∧ t.inReset = true) := by
  obtain rfl | rfl | ⟨m, rfl⟩ := hi
  · exact command_keeps hI h (fun _ hu => resetStreamBody_keeps hI hu) ht
  · exact command_keeps hI h (fun _ hu => cipherBody_keeps hI hu) ht
  · exact command_keeps hI h (fun _ hu => setModeBody_keeps hI m hu) ht

/-! ## INIT and DESTROY -/

theorem initAbort_released (hI : KeptByCommands I) {s : State} (h : Released I s) : Released I (initAbort s) :=
  ⟨hI.engine h.1 s.lc s.mode _ _ s.klen s.st s.tcnt s.ki s.si _ _ _, h.2⟩

theorem loadSeed_keeps (hI : KeptByCommands I) (n : Nat) : ∀ (j : Nat) {s : State}, Released I s → (loadSeed n j s).Keeps I := by
  induction n with
  | zero => exact fun _ _ h => h
  | succ n ih =>
    intro j s h
    rw [loadSeed]
    refine .atWindow hI.toKeptByStream h (fun t ht => ?_)
    split <;> rename_i u hread <;> obtain ⟨hu, hr⟩ := dmaRead_released hI.toKeptByStream ht hread
    · exact initAbort_released hI ⟨hu, hr⟩
    · exact ih (j + 1) ⟨hI.engine hu u.lc u.mode u.kb u.okb u.klen u.st u.tcnt u.ki u.si _ u.slen u.gctr, hr⟩

theorem loadKey_keeps (hI : KeptByCommands I) (n : Nat) : ∀ (j : Nat) {s : State}, Released I s → (loadKey n j s).Keeps I := by
  induction n with
  | zero => exact fun _ _ h => h
  | succ n ih =>
    intro j s h
    rw [loadKey]
    refine .atWindow hI.toKeptByStream h (fun t ht => ?_)
    split <;> rename_i u hread <;> obtain ⟨hu, hr⟩ := dmaRead_released hI.toKeptByStream ht hread
    · exact initAbort_released hI ⟨hu, hr⟩
    · exact ih (j + 1) ⟨hI.engine hu u.lc u.mode _ _ u.klen u.st u.tcnt u.ki u.si u.seedbuf u.slen u.gctr, hr⟩

theorem takeSeed_keeps (hI : KeptByCommands I) (d : Bool) {s : State} (h : Released I s) : (takeSeed d s).Keeps I := by
  have hseed (seedbuf : Memory) (slen : Nat) : Released I { s with seedbuf := seedbuf, slen := slen } :=
    ⟨hI.engine h.1 s.lc s.mode s.kb s.okb s.klen s.st s.tcnt s.ki s.si seedbuf slen s.gctr, h.2⟩
  cases d with
  | true => exact hseed _ _
  | false => exact loadSeed_keeps hI _ 0 (hseed s.seedbuf _)

theorem fillTable_released (hI : KeptByCommands I) (t n : Nat) : ∀ (q : Nat) {s : State},
    Released I s → Released I (fillTable t n q s) := by
  induction n with
  | zero => exact fun _ _ h => h
  | succ n ih =>
    intro q s h
    exact ih (q + 1) ⟨hI.engine h.1 s.lc s.mode s.kb s.okb s.klen _ s.tcnt s.ki s.si s.seedbuf s.slen _, h.2⟩

theorem fillTables_released (hI : KeptByCommands I) (n : Nat) : ∀ (t : Nat) {s : State},
    Released I s → Released I (fillTables n t s) := by
  induction n with
  | zero => exact fun _ _ h => h
  | succ n ih => exact fun t _ h => ih (t + 1) (fillTable_released hI t _ 0 h)

theorem generateAndDrop_released (hI : KeptByCommands I) {s : State} (h : Released I s) : Released I (generateAndDrop s) := by
  have hmasked : Released I (genStart (opTableCount s) s) :=
    ⟨hI.engine h.1 s.lc s.mode s.kb s.okb s.klen s.st s.tcnt s.ki s.si _ s.slen _, h.2⟩
  obtain ⟨hu, hr⟩ := fillTables_released hI (opTableCount s) 0 hmasked
  exact ⟨hI.engine hu _ _ _ _ _ _ _ _ _ _ _ _, hr⟩

theorem initBody_keeps (hI : KeptByCommands I) (m : BitVec 2) (d : Bool) {s : State} (h : Released I s) :
    (initBody m d s).Keeps I := by
  unfold initBody
  split
  · exact h
  · split
    · exact h
    · refine (takeSeed_keeps hI d h).andThen (fun s1 h1 => ?_)
      refine (loadKey_keeps hI _ 0 h1).andThen (fun s2 h2 => ?_)
      refine .atWindow hI.toKeptByStream h2 (fun s3 h3 => ?_)
      refine .atWindow hI.toKeptByStream (generateAndDrop_released hI h3) (fun s4 h4 => ?_)
      refine .atWindow hI.toKeptByStream (s := installKey _ s4) ⟨?_, h4.2⟩ (fun s5 h5 => ?_)
      · exact hI.engine h4.1 s4.lc _ s4.kb s4.okb _ s4.st _ _ _ s4.seedbuf s4.slen s4.gctr
      · exact ⟨hI.engine h5.1 _ s5.mode _ s5.okb s5.klen s5.st s5.tcnt _ _ s5.seedbuf s5.slen s5.gctr, h5.2⟩

theorem destroyBody_keeps (hI : KeptByCommands I) {s : State} (h : Released I s) : (destroyBody s).Keeps I := by
  unfold destroyBody
  split
  · exact h
  · refine .atWindow hI.toKeptByStream (s := eraseAll s) ⟨?_, h.2⟩ (fun t ht => ⟨?_, ht.2⟩)
    · exact hI.engine h.1 s.lc _ _ _ _ _ _ _ _ _ _ _
    · exact hI.engine ht.1 _ t.mode t.kb t.okb t.klen t.st t.tcnt t.ki t.si t.seedbuf t.slen t.gctr

/-- Every command keeps what no command writes. -/
theorem exec_keeps (hI : KeptByCommands I) {i : Instr} {s t : State} (h : Released I (accept (encode i) s))
    (ht : exec i s = .next t) : (∃ e u, t = complete e u ∧ Released I u) ∨ (I t ∧ t.inReset = true) := by
  cases i with
  | init m d => exact command_keeps hI.toKeptByStream h (fun _ hu => initBody_keeps hI m d hu) ht
  | destroy => exact command_keeps hI.toKeptByStream h (fun _ hu => destroyBody_keeps hI hu) ht
  | resetStream => exact exec_stream_keeps hI.toKeptByStream (.inl rfl) h ht
  | cipher => exact exec_stream_keeps hI.toKeptByStream (.inr (.inl rfl)) h ht
  | setMode m => exact exec_stream_keeps hI.toKeptByStream (.inr (.inr ⟨m, rfl⟩)) h ht

/-! ## The three statements -/

/-- The command has reported nothing. -/
def Unreported (s : State) : Prop := s.busy = true ∧ s.err = .none

theorem unreported_kept : KeptByCommands Unreported where
  window {s} h hr := by
    have he := window_engine s hr
    exact ⟨(congrArg Engine.busy he).trans h.1, (congrArg Engine.err he).trans h.2⟩
  stream h _ _ _ _ _ _ _ := h
  engine h _ _ _ _ _ _ _ _ _ _ _ _ := h

/-- Settles O22: BUSY and ERR are written at acceptance and at completion alone, and a stopped command has no completion. -/
theorem stoppedCommandReportsNothing : Obligations.StoppedCommandReportsNothing := by
  unfold Obligations.StoppedCommandReportsNothing
  intro i s t hr ht hreset
  obtain ⟨e, u, rfl, -, hup⟩ | ⟨h, -⟩ := exec_keeps unreported_kept (s := s) ⟨⟨rfl, rfl⟩, hr⟩ ht
  · exact absurd hreset (by simp [hup])
  · exact h

/-- ST, OKB, KLEN, TCNT and LC as in `s`. -/
def SameSchedule (s t : State) : Prop :=
  t.st = s.st ∧ t.okb = s.okb ∧ t.klen = s.klen ∧ t.tcnt = s.tcnt ∧ t.lc = s.lc

theorem sameSchedule_kept (s : State) : KeptByStream (SameSchedule s) where
  window {t} h hr := by
    have he := window_engine t hr
    obtain ⟨hst, hokb, hklen, htcnt, hlc⟩ := h
    exact ⟨(congrArg Engine.st he).trans hst, (congrArg Engine.okb he).trans hokb, (congrArg Engine.klen he).trans hklen,
      (congrArg Engine.tcnt he).trans htcnt, (engine_lc he).trans hlc⟩
  stream h _ _ _ _ _ _ _ := h

/-- Settles O49: the three commands write the key state, MODE and host memory alone. -/
theorem scheduleAndOriginalKeyStay : Obligations.ScheduleAndOriginalKeyStay := by
  unfold Obligations.ScheduleAndOriginalKeyStay
  intro i s t hi hr ht
  obtain ⟨e, u, rfl, h, -⟩ | ⟨h, -⟩ := exec_stream_keeps (sameSchedule_kept s) hi ⟨⟨rfl, rfl, rfl, rfl, rfl⟩, hr⟩ ht
  · exact h
  · exact h

/-- The hosts' registers, OVR, the platform's part and the reset input as in `s`. -/
def SameAround (s t : State) : Prop :=
  t.regs = s.regs ∧ t.testSel = s.testSel ∧ t.testIdx = s.testIdx ∧ t.ovr = s.ovr ∧ t.faults = s.faults ∧
  t.script = s.script ∧ t.waiting = s.waiting ∧ t.answers = s.answers ∧ t.inReset = s.inReset

/-- Where no other agent acts a window changes nothing. -/
theorem sameAround_kept {s : State} (hc : s.calm) : KeptByCommands (SameAround s) where
  window {t} h _ := by
    obtain ⟨-, -, -, -, -, hscript, -, -, hreset⟩ := id h
    have hcalm : t.calm := (calm_congr hscript hreset).2 hc
    rw [window_of_quiet t hcalm.1]
    exact h
  stream h _ _ _ _ _ _ _ := h
  engine h _ _ _ _ _ _ _ _ _ _ _ _ := h

/-- Settles O50: no command writes what stands around the engine, and without a reset it ends in a completion. -/
theorem commandsLeaveHostRegistersAlone : Obligations.CommandsLeaveHostRegistersAlone := by
  unfold Obligations.CommandsLeaveHostRegistersAlone
  intro i s t hc ht
  have start : SameAround s (accept (encode i) s) := ⟨rfl, rfl, rfl, rfl, rfl, rfl, rfl, rfl, rfl⟩
  obtain ⟨e, u, rfl, h, hup⟩ | ⟨h, hreset⟩ := exec_keeps (sameAround_kept hc) ⟨start, hc.2⟩ ht
  · obtain ⟨hregs, hsel, hidx, hovr, hfaults, hscript, hwaiting, hanswers, -⟩ := h
    exact ⟨hregs, hsel, hidx, hovr, rfl, hfaults, hscript, hwaiting, hanswers, hup⟩
  · obtain ⟨-, -, -, -, -, -, -, -, hsame⟩ := h
    rw [hsame, hc.2] at hreset
    cases hreset

end Sys2Proof.Machine
end

section
/-! PROOFS. The family of 20_memory.md: register reads and malformed accesses as a step meets them (R64), and a host's store
before a command's accesses (R70). -/

namespace Sys2Proof.Machine

/-- Settles O14: no word is accepted, and the bus only answers with an error. -/
theorem malformedAccessOnlyGetsAnError : Obligations.MalformedAccessOnlyGetsAnError := by
  unfold Obligations.MalformedAccessOnlyGetsAnError
  intro s a rest hv hr hs hin hbad
  have hsized : wellSized { s with script := rest } a = false := wellSized_false hbad
  have hbus := busAccess_malformed (s := { s with script := rest }) hr (inWindow_of hin) hsized
  rw [step_reg hv hs, present_other (acceptedWord_malformed hsized), hbus]
  rfl

/-- A read of a register depends on neither the script nor the records. -/
theorem answerRead_script (off : Nat) (s : State) (l : List Event) :
    answerRead off { s with script := l } =
      { s with script := l, answers := .data (readReg off s) :: s.answers, draws := s.draws + 1 } := rfl

/-- Settles O15: a read is no accepted word, and the bus answers it with the register's value. -/
theorem registerReadHasNoSideEffect : Obligations.RegisterReadHasNoSideEffect := by
  unfold Obligations.RegisterReadHasNoSideEffect
  intro s off rest hv hr hin halign hs
  have hoff : (BitVec.ofNat 32 off).toNat = off := Nat.mod_eq_of_lt (by omega)
  obtain ⟨hwindow, hsized, hoffset⟩ :=
    regWrite_in (s := { s with script := rest }) (off := BitVec.ofNat 32 off) (v := 0) (by omega) (by omega)
  have hbus := busAccess_read (s := { s with script := rest })
    (a := { addr := s.cfg.base + BitVec.ofNat 32 off, bytes := 4, value := none }) hr hwindow hsized rfl
  have hsame : windowOffset { s with script := rest } (s.cfg.base + BitVec.ofNat 32 off) = off := hoffset.trans hoff
  rw [step_reg hv hs, present_other (acceptedWord_read rfl), hbus, hsame, answerRead_script]

/-- Settles O20: the store is served in the command's first window, before the body runs. -/
theorem storeBeforeFirstAccessIsSeen : Obligations.StoreBeforeFirstAccessIsSeen := by
  unfold Obligations.StoreBeforeFirstAccessIsSeen
  intro i s a b rest _ hs
  refine exec_congr ?_
  have hscript : (accept (encode i) s).script = .store a b :: .wait :: rest := hs
  calc window (accept (encode i) s)
      = { hostEvent (.store a b) (accept (encode i) s) with script := .wait :: rest } := window_event hscript rfl
    _ = window (accept (encode i) { s with script := .wait :: rest, mem := Memory.write s.mem a.toNat b }) :=
        (window_of_quiet _ rfl).symm

end Sys2Proof.Machine
end

section
/-! PROOFS. The family of 20_memory.md: only CIPHER writes host memory (R61). -/

namespace Sys2Proof.Machine

/-- `P` holds however the execution ends, and it is neither abandoned nor stopped. -/
def Run.Always (P : State → Prop) (r : Run) : Prop := r.Ends P (fun _ => P) (fun _ => False)

theorem Run.Always.andThen {P : State → Prop} {r : Run} {k : State → Run} (h : r.Always P)
    (hk : ∀ s, P s → (k s).Always P) : (r.andThen k).Always P := Run.Ends.andThen h hk

/-- A command during which no other agent acts ends in a completion of what its rule leaves. -/
theorem command_always {P : State → Prop} {w : Word} {body : State → Run} {s t : State} (hcalm : ∀ u, P u → u.calm)
    (hs : s.calm) (hbody : (body (accept w s)).Always P) (ht : command w body s = .next t) :
    ∃ e u, t = complete e u ∧ P u := by
  cases hrun : body (accept w s) with
  | done u =>
    rw [hrun] at hbody
    rw [command_of_done hs hrun (hcalm u hbody)] at ht
    cases ht
    exact ⟨.none, u, rfl, hbody⟩
  | failed e u =>
    rw [hrun] at hbody
    rw [command_of_failed hs hrun (hcalm u hbody)] at ht
    cases ht
    exact ⟨e, u, rfl, hbody⟩
  | abandoned u => rw [hrun] at hbody; exact hbody.elim
  | stopped f => rw [hrun] at hbody; exact hbody.elim

/-- No other agent acts in `t`, and host memory is that of `s`. -/
def MemKept (s t : State) : Prop := t.calm ∧ t.mem = s.mem

/-- Nor is there an access of the block on record that `s` has not. -/
def Silent (s t : State) : Prop := MemKept s t ∧ t.dma = s.dma

/-! ## RESET_STREAM, SET_MODE and DESTROY -/

theorem resetStreamBody_silent {s t : State} (h : Silent s t) : (resetStreamBody t).Always (Silent s) := by
  unfold resetStreamBody
  split <;> exact h

theorem setModeBody_silent (m : BitVec 2) {s t : State} (h : Silent s t) : (setModeBody m t).Always (Silent s) := by
  unfold setModeBody
  split
  · exact h
  · split <;> exact h

theorem destroyBody_silent {s t : State} (h : Silent s t) : (destroyBody t).Always (Silent s) := by
  have hcalm : (eraseAll t).calm := h.1.1
  unfold destroyBody
  rw [atWindow_of_calm hcalm]
  split <;> exact h

/-! ## INIT -/

theorem dmaRead_memKept {a : Nat} {s t u : State} {b : Option Byte} (h : MemKept s t) (hread : dmaRead a t = (b, u)) :
    MemKept s u := by
  have hframe : u = { t with dma := u.dma } := by simpa only [hread] using dmaRead_frame a t
  rw [hframe]
  exact h

theorem loadSeed_memKept {s : State} (n : Nat) : ∀ (j : Nat) {t : State}, MemKept s t → (loadSeed n j t).Always (MemKept s) := by
  induction n with
  | zero => exact fun _ _ h => h
  | succ n ih =>
    intro j t h
    rw [loadSeed, atWindow_of_calm h.1]
    split <;> rename_i u hread <;> have hu : MemKept s u := dmaRead_memKept h hread
    · exact hu
    · exact ih (j + 1) hu

theorem loadKey_memKept {s : State} (n : Nat) : ∀ (j : Nat) {t : State}, MemKept s t → (loadKey n j t).Always (MemKept s) := by
  induction n with
  | zero => exact fun _ _ h => h
  | succ n ih =>
    intro j t h
    rw [loadKey, atWindow_of_calm h.1]
    split <;> rename_i u hread <;> have hu : MemKept s u := dmaRead_memKept h hread
    · exact hu
    · exact ih (j + 1) hu

theorem takeSeed_memKept (d : Bool) {s t : State} (h : MemKept s t) : (takeSeed d t).Always (MemKept s) := by
  cases d with
  | true => exact h
  | false => exact loadSeed_memKept _ 0 h

theorem fillTable_memKept {s : State} (i n : Nat) : ∀ (q : Nat) {t : State}, MemKept s t → MemKept s (fillTable i n q t) := by
  induction n with
  | zero => exact fun _ _ h => h
  | succ n ih => exact fun q _ h => ih (q + 1) h

theorem fillTables_memKept {s : State} (n : Nat) : ∀ (i : Nat) {t : State}, MemKept s t → MemKept s (fillTables n i t) := by
  induction n with
  | zero => exact fun _ _ h => h
  | succ n ih => exact fun i _ h => ih (i + 1) (fillTable_memKept i _ 0 h)

theorem generateAndDrop_memKept {s t : State} (h : MemKept s t) : MemKept s (generateAndDrop t) :=
  fillTables_memKept (opTableCount t) 0 (t := genStart (opTableCount t) t) h

theorem initRun_memKept (m : Mode) (d : Bool) {s t : State} (h : MemKept s t) : (initRun m d t).Always (MemKept s) := by
  refine (takeSeed_memKept d h).andThen (fun u hu => ?_)
  refine (loadKey_memKept _ 0 hu).andThen (fun v hv => ?_)
  have hgenerated : MemKept s (generateAndDrop v) := generateAndDrop_memKept hv
  have hinstalled : MemKept s (installKey m (generateAndDrop v)) := hgenerated
  rw [atWindow_of_calm hv.1, atWindow_of_calm hgenerated.1, atWindow_of_calm hinstalled.1]
  exact hinstalled

theorem initBody_memKept (m : BitVec 2) (d : Bool) {s t : State} (h : MemKept s t) : (initBody m d t).Always (MemKept s) := by
  unfold initBody
  split
  · exact h
  · split
    · exact h
    · exact initRun_memKept _ d h

/-! ## The statement -/

/-- INIT may read host memory, and leaves it as it was. -/
theorem execInit_mem {m : BitVec 2} {d : Bool} {s t : State} (hc : s.calm) (ht : exec (.init m d) s = .next t) :
    t.mem = s.mem := by
  have hstart : MemKept s (accept (encode (.init m d)) s) := ⟨hc, rfl⟩
  obtain ⟨e, u, rfl, hu⟩ := command_always (fun _ hu => hu.1) hc (initBody_memKept m d hstart) ht
  exact hu.2

/-- The three commands without DMA. -/
theorem exec_silent {i : Instr} (hi : i = .resetStream ∨ i = .destroy ∨ ∃ m, i = .setMode m) {s t : State} (hc : s.calm)
    (ht : exec i s = .next t) : t.mem = s.mem ∧ t.dma = s.dma := by
  have hstart : Silent s (accept (encode i) s) := ⟨⟨hc, rfl⟩, rfl⟩
  have hend : ∃ e u, t = complete e u ∧ Silent s u := by
    obtain rfl | rfl | ⟨m, rfl⟩ := hi
    · exact command_always (fun _ hu => hu.1.1) hc (resetStreamBody_silent hstart) ht
    · exact command_always (fun _ hu => hu.1.1) hc (destroyBody_silent hstart) ht
    · exact command_always (fun _ hu => hu.1.1) hc (setModeBody_silent m hstart) ht
  obtain ⟨e, u, rfl, ⟨-, hmem⟩, hdma⟩ := hend
  exact ⟨hmem, hdma⟩

/-- Settles O51: INIT only reads, and the three other commands make no access at all. -/
theorem onlyCipherWritesHostMemory : Obligations.OnlyCipherWritesHostMemory := by
  unfold Obligations.OnlyCipherWritesHostMemory
  intro i s t hc hi ht
  refine ⟨fun a => ?_, fun hsilent => (exec_silent hsilent hc ht).2⟩
  have hmem : t.mem = s.mem := by
    cases i with
    | init m d => exact execInit_mem hc ht
    | cipher => exact absurd rfl hi
    | resetStream => exact (exec_silent (.inl rfl) hc ht).1
    | destroy => exact (exec_silent (.inr (.inl rfl)) hc ht).1
    | setMode m => exact (exec_silent (.inr (.inr ⟨m, rfl⟩)) hc ht).1
  rw [hmem]

end Sys2Proof.Machine
end

section
/-! PROOFS. The family of 20_memory.md: what a CIPHER writes for every overlap of source and target, where a bus error stops it,
and that its keystream depends on no data (R67, R68, R76, R149 to R154). -/

namespace Sys2Proof.Machine

/-! ## The key state apart from the rest -/

/-- `a` with the key state, the schedule and PROGRESS of `s`. -/
def State.withKeyOf (a s : State) : State :=
  { a with kb := s.kb, ki := s.ki, si := s.si, klen := s.klen, st := s.st, tcnt := s.tcnt, progress := s.progress }

/-- The key state after byte steps depends on the key state and the schedule alone. -/
theorem keyAfter_withKeyOf (n : Nat) (a s : State) : keyAfter n (a.withKeyOf s) = a.withKeyOf (keyAfter n s) := by
  induction n with
  | zero => rfl
  | succ n ih => rw [keyAfter, ih]; rfl

theorem keystreamAt_withKeyOf (n : Nat) (a s : State) : keystreamAt n (a.withKeyOf s) = keystreamAt n s := by
  unfold keystreamAt
  rw [keyAfter_withKeyOf]
  rfl

/-! ## The state a CIPHER's first byte step finds -/

/-- The state after acceptance and mode dispatch (R39, R149). -/
def cipherEntry (s : State) : State := modeDispatch (accept (encode .cipher) s)

theorem cipherEntry_eq_withKeyOf (s : State) :
    cipherEntry s = (accept (encode .cipher) s).withKeyOf (cipherStart s) := by
  unfold cipherEntry cipherStart modeDispatch
  rw [accept_mode]
  split <;> rfl

/-- The mode dispatch leaves everything but the key state as it was at acceptance. -/
theorem cipherEntry_frame (s : State) :
    cipherEntry s = { accept (encode .cipher) s with
      kb := (cipherEntry s).kb, ki := (cipherEntry s).ki, si := (cipherEntry s).si } := modeDispatch_frame _

theorem cipherEntry_fields (s : State) :
    opSrcAddr (cipherEntry s) = s.regs.srcAddr.toNat ∧ opDstAddr (cipherEntry s) = s.regs.dstAddr.toNat ∧
    (cipherEntry s).mem = s.mem ∧ (cipherEntry s).dma = s.dma ∧ (cipherEntry s).faults = s.faults ∧
    (cipherEntry s).progress = 0 := by
  rw [cipherEntry_frame]
  exact ⟨rfl, rfl, rfl, rfl, rfl, rfl⟩

theorem cipherEntry_calm {s : State} (h : s.calm) : (cipherEntry s).calm := modeDispatch_calm ((accept_calm _).2 h)

theorem cipherEntry_keyInv {s : State} (h : s.KeyInv) : (cipherEntry s).KeyInv := modeDispatch_keyInv { h with }

/-! ## The bytes written and the accesses made -/

/-- The byte that byte step `k` writes, the first byte step finding `s` (R142, R145). -/
def outByte (s : State) (k : Nat) : Byte := Memory.read (stepsFrom k s).mem (opSrcAddr s + k) ^^^ keystreamAt k s

/-- A byte step reads the source byte, or an earlier step's output where the target runs ahead into the source (R68). -/
theorem outByte_eq (s : State) (k : Nat) : outByte s k =
    (if opDstAddr s ≤ opSrcAddr s + k ∧ opSrcAddr s < opDstAddr s then outByte s (opSrcAddr s + k - opDstAddr s)
     else Memory.read s.mem (opSrcAddr s + k)) ^^^ keystreamAt k s := by
  refine congrArg (· ^^^ keystreamAt k s) ?_
  split
  case isTrue hahead =>
    have hout := stepsFrom_mem_mono (n := k) (k := opSrcAddr s + k - opDstAddr s) s (by omega)
    rwa [show opDstAddr s + (opSrcAddr s + k - opDstAddr s) = opSrcAddr s + k by omega] at hout
  case isFalse hplain => exact stepsFrom_mem_outside k s _ (by omega)

/-- Byte steps read and write in turn (R67). -/
theorem stepsFrom_dma (n : Nat) (s : State) :
    (stepsFrom n s).dma = stepTrace (opSrcAddr s) (opDstAddr s) (outByte s) n ++ s.dma := by
  induction n with
  | zero => rfl
  | succ n ih =>
    obtain ⟨hsrc, hdst, -⟩ := stepsFrom_ops n s
    simp only [stepsFrom, stepped, commitStep_dma, stepTrace, outByte, ih, hsrc, hdst, keystreamByte_stepsFrom, List.cons_append]

theorem outByte_cipherEntry (s : State) (k : Nat) : outByte (cipherEntry s) k =
    (if s.regs.dstAddr.toNat ≤ s.regs.srcAddr.toNat + k ∧ s.regs.srcAddr.toNat < s.regs.dstAddr.toNat
     then outByte (cipherEntry s) (s.regs.srcAddr.toNat + k - s.regs.dstAddr.toNat)
     else Memory.read s.mem (s.regs.srcAddr.toNat + k)) ^^^ keystreamAt k (cipherStart s) := by
  obtain ⟨hsrc, hdst, hmem, -⟩ := cipherEntry_fields s
  have hkeystream : keystreamAt k (cipherEntry s) = keystreamAt k (cipherStart s) := by
    rw [cipherEntry_eq_withKeyOf, keystreamAt_withKeyOf]
  have h := outByte_eq (cipherEntry s) k
  rwa [hsrc, hdst, hmem, hkeystream] at h

/-- The state after `n` byte steps of a CIPHER, whole (R142, R149). -/
theorem stepsFrom_cipherEntry (n : Nat) (s : State) : stepsFrom n (cipherEntry s) = { s with
    kb := (keyAfter n (cipherStart s)).kb, ki := (keyAfter n (cipherStart s)).ki, si := (keyAfter n (cipherStart s)).si,
    mem := (stepsFrom n (cipherEntry s)).mem, latch := { cmd := encode .cipher, regs := s.regs }, err := .none,
    progress := BitVec.ofNat 32 n, busy := true,
    dma := stepTrace s.regs.srcAddr.toNat s.regs.dstAddr.toNat (outByte (cipherEntry s)) n ++ s.dma } := by
  obtain ⟨hsrc, hdst, -, hdma, -, hprogress⟩ := cipherEntry_fields s
  have hkey : keyAfter n (cipherEntry s) = (accept (encode .cipher) s).withKeyOf (keyAfter n (cipherStart s)) := by
    rw [cipherEntry_eq_withKeyOf, keyAfter_withKeyOf]
  obtain ⟨hkb, hki, hsi, -⟩ := stepsFrom_key n (cipherEntry s)
  have hframe := stepsFrom_frame n (cipherEntry s)
  rw [hkb, hki, hsi, hkey, stepsFrom_progress n hprogress, stepsFrom_dma, hsrc, hdst, hdma] at hframe
  refine hframe.trans ?_
  generalize (stepsFrom n (cipherEntry s)).mem = mem, outByte (cipherEntry s) = out
  rw [cipherEntry_frame]
  rfl

/-- The first `n` target bytes hold the outputs, and every other byte of host memory is as before (R68). -/
theorem read_stepsFrom_cipherEntry (n : Nat) (s : State) :
    (∀ k, k < n → Memory.read (stepsFrom n (cipherEntry s)).mem (s.regs.dstAddr.toNat + k) = outByte (cipherEntry s) k) ∧
    (∀ a, (a < s.regs.dstAddr.toNat ∨ s.regs.dstAddr.toNat + n ≤ a) →
      Memory.read (stepsFrom n (cipherEntry s)).mem a = Memory.read s.mem a) := by
  obtain ⟨-, hdst, hmem, -⟩ := cipherEntry_fields s
  rw [← hdst, ← hmem]
  exact ⟨fun _ hk => stepsFrom_mem_mono _ hk, fun a ha => stepsFrom_mem_outside n _ a ha⟩

/-- The state in which a CIPHER is over after `n` byte steps, with the accesses `last` after theirs and host memory `mem`. -/
theorem complete_stepsFrom (e : ErrCode) (n : Nat) (s : State) (mem : Memory) (last : List DmaAccess) :
    complete e { stepsFrom n (cipherEntry s) with mem := mem, dma := last ++ (stepsFrom n (cipherEntry s)).dma } = { s with
      kb := (keyAfter n (cipherStart s)).kb, ki := (keyAfter n (cipherStart s)).ki, si := (keyAfter n (cipherStart s)).si,
      mem := mem, latch := { cmd := encode .cipher, regs := s.regs }, err := e, progress := BitVec.ofNat 32 n, busy := false,
      dma := last ++ (stepTrace s.regs.srcAddr.toNat s.regs.dstAddr.toNat (outByte (cipherEntry s)) n ++ s.dma) } := by
  rw [stepsFrom_cipherEntry]
  rfl

/-! ## The execution of a CIPHER -/

/-- No other agent acts, and a CIPHER passes all its checks (R150). -/
structure CipherPasses (s : State) : Prop where
  calm : s.calm
  ready : s.lc = .ready
  mode : s.mode ≠ .undefined
  keys : s.KeyInv
  source : s.regs.srcAddr.toNat + s.regs.len.toNat ≤ 2 ^ 32
  target : s.regs.dstAddr.toNat + s.regs.len.toNat ≤ 2 ^ 32

theorem cipherBody_passes {s : State} (h : CipherPasses s) :
    cipherBody (accept (encode .cipher) s) = byteSteps s.regs.len.toNat 0 (cipherEntry s) := by
  have hcheck : cipherCheck (accept (encode .cipher) s) = none := by
    have hsource := (inRange_eq_true _ _).2 h.source
    have htarget := (inRange_eq_true _ _).2 h.target
    simp [cipherCheck, readyCheck, opSrcAddr, opDstAddr, opLen, h.ready, h.mode, hsource, htarget]
  unfold cipherBody
  rw [hcheck]
  rfl

/-- The byte steps before the first failing access. -/
theorem byteSteps_cipherEntry {s : State} (h : CipherPasses s) {n : Nat} (hr : readsSucceed s.regs.srcAddr.toNat n s)
    (hw : writesSucceed s.regs.dstAddr.toNat n s) : byteSteps n 0 (cipherEntry s) = .done (stepsFrom n (cipherEntry s)) := by
  obtain ⟨hsrc, hdst, -, -, hfaults, -⟩ := cipherEntry_fields s
  refine byteSteps_ok (cipherEntry_calm h.calm) (cipherEntry_keyInv h.keys) n (fun j hj => ?_) (fun j hj => ?_)
  · rw [hsrc, readFault_congr hfaults]; exact hr j hj
  · rw [hdst, writeFault_congr hfaults]; exact hw j hj

theorem exec_cipher_ok {s : State} (h : CipherPasses s) (hr : readsSucceed s.regs.srcAddr.toNat s.regs.len.toNat s)
    (hw : writesSucceed s.regs.dstAddr.toNat s.regs.len.toNat s) :
    exec .cipher s = .next (complete .none (stepsFrom s.regs.len.toNat (cipherEntry s))) :=
  command_of_done h.calm ((cipherBody_passes h).trans (byteSteps_cipherEntry h hr hw))
    ((stepsFrom_calm _).2 (cipherEntry_calm h.calm))

/-- Settles O38: the byte steps run to their end, and `outByte` is what they write. -/
theorem cipherEnciphersRange : Obligations.CipherEnciphersRange := by
  unfold Obligations.CipherEnciphersRange
  intro s hc hready hmode hk hsource htarget hr hw
  obtain ⟨hinside, houtside⟩ := read_stepsFrom_cipherEntry s.regs.len.toNat s
  refine ⟨_, outByte (cipherEntry s), exec_cipher_ok ⟨hc, hready, hmode, hk, hsource, htarget⟩ hr hw, ?_, hinside, houtside, ?_⟩
  · exact fun k _ => outByte_cipherEntry s k
  · have hlen : BitVec.ofNat 32 s.regs.len.toNat = s.regs.len := by simp
    have hwhole := complete_stepsFrom .none s.regs.len.toNat s (stepsFrom s.regs.len.toNat (cipherEntry s)).mem []
    rwa [hlen] at hwhole

/-! ## A failing access (R151) -/

theorem exec_cipher_fail {s t : State} {k : Nat} (h : CipherPasses s) (hlt : k < s.regs.len.toNat)
    (hr : readsSucceed s.regs.srcAddr.toNat k s) (hw : writesSucceed s.regs.dstAddr.toNat k s)
    (hfail : byteStep k (stepsFrom k (cipherEntry s)) = .failed .busError t) (ht : t.calm) :
    exec .cipher s = .next (complete .busError t) :=
  command_of_failed h.calm
    ((cipherBody_passes h).trans (byteSteps_fail _ k hlt (byteSteps_cipherEntry h hr hw) hfail)) ht

theorem Memory.read_failedWrite_other (f : DmaFault) (m : Memory) {a c : Nat} (h : a ≠ c) :
    Memory.read (failedWrite f a m) c = Memory.read m c := by
  unfold failedWrite
  split
  · rfl
  · exact Memory.read_write_other m _ h

/-- The platform's faults and the block's addresses stay the same through the byte steps. -/
theorem stepsFrom_cipherEntry_access (n : Nat) (s : State) :
    opSrcAddr (stepsFrom n (cipherEntry s)) = s.regs.srcAddr.toNat ∧
    opDstAddr (stepsFrom n (cipherEntry s)) = s.regs.dstAddr.toNat ∧ (stepsFrom n (cipherEntry s)).faults = s.faults := by
  rw [stepsFrom_cipherEntry]
  exact ⟨rfl, rfl, rfl⟩

/-- Byte step `k` of a CIPHER, whose read fails: nothing changes but the record. -/
theorem byteStep_cipher_read_fail {s : State} {k : Nat} {f : DmaFault} (h : CipherPasses s)
    (hf : readFault (s.regs.srcAddr.toNat + k) s = some f) :
    byteStep k (stepsFrom k (cipherEntry s)) = .failed .busError { stepsFrom k (cipherEntry s) with
      dma := .read (s.regs.srcAddr.toNat + k) false :: (stepsFrom k (cipherEntry s)).dma } := by
  obtain ⟨hsrc, -, hfaults⟩ := stepsFrom_cipherEntry_access k s
  have hstep := byteStep_read_fail (k := k) (f := f) ((stepsFrom_calm k).2 (cipherEntry_calm h.calm))
    (indicesInside_of (stepsFrom_keyInv (cipherEntry_keyInv h.keys) k)) (by rw [hsrc, readFault_congr hfaults]; exact hf)
  rwa [hsrc] at hstep

/-- Byte step `k` of a CIPHER, whose write fails: host memory is the platform's business, and no key state changes (R76). -/
theorem byteStep_cipher_write_fail {s : State} {k : Nat} {f : DmaFault} (h : CipherPasses s)
    (hr : readFault (s.regs.srcAddr.toNat + k) s = none) (hf : writeFault (s.regs.dstAddr.toNat + k) s = some f) :
    byteStep k (stepsFrom k (cipherEntry s)) = .failed .busError { stepsFrom k (cipherEntry s) with
      mem := failedWrite f (s.regs.dstAddr.toNat + k) (stepsFrom k (cipherEntry s)).mem,
      dma := .write (s.regs.dstAddr.toNat + k) (outByte (cipherEntry s) k) false ::
        .read (s.regs.srcAddr.toNat + k) true :: (stepsFrom k (cipherEntry s)).dma } := by
  obtain ⟨hsrc, hdst, hfaults⟩ := stepsFrom_cipherEntry_access k s
  obtain ⟨hsrc', -⟩ := cipherEntry_fields s
  have hout : outByte (cipherEntry s) k = Memory.read (stepsFrom k (cipherEntry s)).mem (s.regs.srcAddr.toNat + k) ^^^
      keystreamByte (stepsFrom k (cipherEntry s)) := by
    rw [keystreamByte_stepsFrom, ← hsrc']; rfl
  have hstep := byteStep_write_fail (k := k) (f := f) ((stepsFrom_calm k).2 (cipherEntry_calm h.calm))
    (indicesInside_of (stepsFrom_keyInv (cipherEntry_keyInv h.keys) k)) (by rw [hsrc, readFault_congr hfaults]; exact hr)
    (by rw [hdst, writeFault_congr hfaults]; exact hf)
  rwa [hsrc, hdst, ← hout] at hstep

/-- Settles O39: the byte steps before `k` stand as in O38, and step `k` ends at its failing read or write. -/
theorem cipherBusErrorKeepsPrefix : Obligations.CipherBusErrorKeepsPrefix := by
  unfold Obligations.CipherBusErrorKeepsPrefix
  intro s k f hc hready hmode hk hsource htarget hlt hr hw hfault
  have hpasses : CipherPasses s := ⟨hc, hready, hmode, hk, hsource, htarget⟩
  have hcalm : (stepsFrom k (cipherEntry s)).calm := (stepsFrom_calm k).2 (cipherEntry_calm hc)
  obtain ⟨hinside, houtside⟩ := read_stepsFrom_cipherEntry k s
  obtain hread | ⟨hread, hwrite⟩ := hfault
  · refine ⟨_, outByte (cipherEntry s),
      exec_cipher_fail hpasses hlt hr hw (byteStep_cipher_read_fail hpasses hread) hcalm, ?_, hinside, ?_, ?_⟩
    · exact fun j _ => outByte_cipherEntry s j
    · exact fun a ha => houtside a (by omega)
    · rw [hread]
      exact complete_stepsFrom .busError k s _ [.read (s.regs.srcAddr.toNat + k) false]
  · refine ⟨_, outByte (cipherEntry s),
      exec_cipher_fail hpasses hlt hr hw (byteStep_cipher_write_fail hpasses hread hwrite) hcalm, ?_, ?_, ?_, ?_⟩
    · exact fun j _ => outByte_cipherEntry s j
    · intro j hj
      exact (Memory.read_failedWrite_other f _ (by omega)).trans (hinside j hj)
    · intro a ha
      have hne : a < s.regs.dstAddr.toNat ∨ s.regs.dstAddr.toNat + k < a := by
        obtain h | h | ⟨-, h⟩ := ha
        · exact .inl h
        · exact .inr h
        · rw [hread] at h; cases h
      exact (Memory.read_failedWrite_other f _ (by omega)).trans (houtside a (by omega))
    · rw [hread]
      exact complete_stepsFrom .busError k s _
        [.write (s.regs.dstAddr.toNat + k) (outByte (cipherEntry s) k) false, .read (s.regs.srcAddr.toNat + k) true]

/-! ## The plain result (R68, R154) -/

/-- The state after a CIPHER with ERR = 0, which left host memory as `mem` and the record of accesses as `dma`. -/
def cipherDone (s : State) (mem : Memory) (dma : List DmaAccess) : State :=
  { s with
    kb := (keyAfter s.regs.len.toNat (cipherStart s)).kb, ki := (keyAfter s.regs.len.toNat (cipherStart s)).ki,
    si := (keyAfter s.regs.len.toNat (cipherStart s)).si, mem := mem, latch := { cmd := encode .cipher, regs := s.regs },
    err := .none, progress := s.regs.len, busy := false, dma := dma }

/-- Where the target does not run ahead into the source, each output byte is the source byte XORed with its keystream byte. -/
theorem exec_cipher_plain {s : State} (h : CipherPasses s) (hr : readsSucceed s.regs.srcAddr.toNat s.regs.len.toNat s)
    (hw : writesSucceed s.regs.dstAddr.toNat s.regs.len.toNat s)
    (hplain : s.regs.dstAddr.toNat ≤ s.regs.srcAddr.toNat ∨ s.regs.srcAddr.toNat + s.regs.len.toNat ≤ s.regs.dstAddr.toNat) :
    ∃ mem dma, exec .cipher s = .next (cipherDone s mem dma) ∧
      ∀ k, k < s.regs.len.toNat → Memory.read mem (s.regs.dstAddr.toNat + k) =
        Memory.read s.mem (s.regs.srcAddr.toNat + k) ^^^ keystreamAt k (cipherStart s) := by
  obtain ⟨t, out, hexec, hout, hmem, -, ht⟩ :=
    cipherEnciphersRange s h.calm h.ready h.mode h.keys h.source h.target hr hw
  refine ⟨t.mem, _, hexec.trans (congrArg Host.Outcome.next ht), fun k hk => ?_⟩
  rw [hmem k hk, hout k hk, if_neg (by omega)]

theorem keyInv_engineOnly : EngineOnly State.KeyInv := by
  rintro s t he hc ⟨hklen, hklenMax, htcnt, htcntMax, hki, hkiMax, hsi⟩
  simp only [State.engine, Engine.mk.injEq] at he
  obtain ⟨-, -, -, -, eklen, -, etcnt, eki, esi, -⟩ := he
  constructor <;> simp only [hc, eklen, etcnt, eki, esi] <;> assumption

/-- The engine's part of a state fixes where a CIPHER's key state starts. -/
theorem cipherStart_of_engine {s t : State} (he : t.engine = s.engine) : cipherStart t = t.withKeyOf (cipherStart s) := by
  simp only [State.engine, Engine.mk.injEq] at he
  obtain ⟨-, hmode, hkb, hokb, hklen, hst, htcnt, hki, hsi, -⟩ := he
  unfold cipherStart modeDispatch
  rw [hmode]
  split <;> simp only [State.withKeyOf, resetCore, ← hkb, ← hokb, ← hklen, ← hst, ← htcnt, ← hki, ← hsi]

/-- The overlaps R154 admits are among those with the plain result. -/
theorem plain_of_same_or_apart {src dst : Word} {n : Nat}
    (h : dst = src ∨ src.toNat + n ≤ dst.toNat ∨ dst.toNat + n ≤ src.toNat) :
    dst.toNat ≤ src.toNat ∨ src.toNat + n ≤ dst.toNat := by
  obtain rfl | h | h := h
  · exact .inl (Nat.le_refl _)
  · exact .inr h
  · exact .inl (by omega)

theorem xor_xor_cancel_left (b c : Byte) : b ^^^ c ^^^ b = c := by
  rw [BitVec.xor_comm b c, BitVec.xor_assoc, BitVec.xor_self, BitVec.xor_zero]

/-- Settles O41: both CIPHERs give the plain result, and their keystreams start from the same key state. -/
theorem keystreamDependsOnNoData : Obligations.KeystreamDependsOnNoData := by
  unfold Obligations.KeystreamDependsOnNoData
  intro s₁ s₂ hc₁ hc₂ hready hmode hk hcfg he hlen hr₁ hw₁ hr₂ hw₂ hsource₁ htarget₁ hsource₂ htarget₂ hapart₁ hapart₂
  have hmode₂ : s₂.mode ≠ .undefined := by rwa [show s₂.mode = s₁.mode from congrArg Engine.mode he]
  obtain ⟨mem₁, dma₁, hexec₁, hout₁⟩ := exec_cipher_plain ⟨hc₁, hready, hmode, hk, hsource₁, htarget₁⟩ hr₁ hw₁
    (plain_of_same_or_apart hapart₁)
  obtain ⟨mem₂, dma₂, hexec₂, hout₂⟩ := exec_cipher_plain
    ⟨hc₂, (engine_lc he).trans hready, hmode₂, keyInv_engineOnly s₁ s₂ he hcfg hk, hsource₂, htarget₂⟩ hr₂ hw₂
    (plain_of_same_or_apart hapart₂)
  have hkey (n : Nat) : keyAfter n (cipherStart s₂) = s₂.withKeyOf (keyAfter n (cipherStart s₁)) := by
    rw [cipherStart_of_engine he, keyAfter_withKeyOf]
  have hkeystream (k : Nat) : keystreamAt k (cipherStart s₂) = keystreamAt k (cipherStart s₁) := by
    rw [cipherStart_of_engine he, keystreamAt_withKeyOf]
  refine ⟨_, _, hexec₁, hexec₂, ?_⟩
  simp only [cipherDone, hlen, hkey, State.withKeyOf, true_and]
  intro k hlt
  rw [hout₁ k hlt, hout₂ k (by rwa [hlen]), xor_xor_cancel_left, xor_xor_cancel_left, hkeystream]

end Sys2Proof.Machine
end

section
/-! PROOFS. The family of 20_memory.md: messages in Continuous mode and the way back (R140, R156). -/

namespace Sys2Proof.Machine

/-! ## Key states that agree in the live key bytes -/

/-- Byte steps from `s` and from `t` use the same keystream: KB may differ beyond the live key. -/
structure KeyAgree (s t : State) : Prop where
  klen : t.klen = s.klen
  tcnt : t.tcnt = s.tcnt
  st : t.st = s.st
  ki : t.ki = s.ki
  si : t.si = s.si
  kb : ∀ j, j < s.klen → Memory.read t.kb j = Memory.read s.kb j

theorem KeyAgree.keyInv {s t : State} (h : KeyAgree s t) (hcfg : t.cfg = s.cfg) (hk : s.KeyInv) : t.KeyInv := by
  obtain ⟨hklen, hklenMax, htcnt, htcntMax, hki, hkiMax, hsi⟩ := hk
  constructor <;> simp only [hcfg, h.klen, h.tcnt, h.ki, h.si] <;> assumption

theorem KeyAgree.wrapKi {s t : State} (h : KeyAgree s t) : wrapKi t = wrapKi s := by
  simp only [Sys2Proof.Machine.wrapKi, h.ki, h.klen]

theorem KeyAgree.wrapSi {s t : State} (h : KeyAgree s t) : wrapSi t = wrapSi s := by
  simp only [Sys2Proof.Machine.wrapSi, h.si, h.tcnt]

theorem KeyAgree.keyByte {s t : State} (h : KeyAgree s t) (hk : s.KeyInv) : keyByte t = keyByte s := by
  have hin := wrapKi_range hk
  unfold Sys2Proof.Machine.keyByte
  rw [h.wrapKi, h.kb _ (by omega)]

theorem KeyAgree.keystreamByte {s t : State} (h : KeyAgree s t) (hk : s.KeyInv) : keystreamByte t = keystreamByte s := by
  simp only [Sys2Proof.Machine.keystreamByte, tableIndex, h.st, h.wrapSi, h.keyByte hk]

theorem KeyAgree.commitStep {s t : State} (h : KeyAgree s t) (hk : s.KeyInv) (k : Nat) :
    KeyAgree (commitStep k s) (commitStep k t) := by
  refine ⟨h.klen, h.tcnt, h.st, ?_, ?_, fun j hj => ?_⟩
  · simp only [commitStep_ki, h.wrapKi]
  · simp only [commitStep_si, h.wrapSi]
  · have hmask : keyMask t = keyMask s := by simp only [keyMask, h.wrapKi, h.wrapSi]
    rw [commitStep_kb, commitStep_kb, h.wrapKi, h.keyByte hk, hmask, Memory.read_write, Memory.read_write, h.kb j hj]

theorem keyAfter_keyInv {s : State} (h : s.KeyInv) (n : Nat) : (keyAfter n s).KeyInv := by
  induction n with
  | zero => exact h
  | succ n ih => exact commitStep_keyInv n ih

/-- Byte steps change neither the installed lengths nor the schedule. -/
theorem keyAfter_installed (n : Nat) (s : State) : (keyAfter n s).klen = s.klen ∧ (keyAfter n s).tcnt = s.tcnt ∧
    (keyAfter n s).st = s.st ∧ (keyAfter n s).cfg = s.cfg := by
  induction n with
  | zero => exact ⟨rfl, rfl, rfl, rfl⟩
  | succ n ih => exact ih

theorem KeyAgree.keyAfter {s t : State} (h : KeyAgree s t) (hk : s.KeyInv) (n : Nat) :
    KeyAgree (keyAfter n s) (keyAfter n t) := by
  induction n with
  | zero => exact h
  | succ n ih => exact ih.commitStep (keyAfter_keyInv hk n) n

theorem KeyAgree.keystreamAt {s t : State} (h : KeyAgree s t) (hk : s.KeyInv) (n : Nat) :
    keystreamAt n t = keystreamAt n s :=
  (h.keyAfter hk n).keystreamByte (keyAfter_keyInv hk n)

/-! ## Messages -/

/-- What a CIPHER from the key state of `s` makes of the message `m` (R145). -/
def encipher (s : State) (m : List Byte) : List Byte := m.mapIdx (fun k b => b ^^^ keystreamAt k s)

@[simp] theorem length_encipher (s : State) (m : List Byte) : (encipher s m).length = m.length := by simp [encipher]

/-- The keystream taken twice is gone. -/
theorem encipher_encipher (s : State) (m : List Byte) : encipher s (encipher s m) = m := by
  refine List.ext_getElem (by simp) (fun k _ _ => ?_)
  simp only [encipher, List.getElem_mapIdx]
  rw [BitVec.xor_assoc, BitVec.xor_self, BitVec.xor_zero]

theorem KeyAgree.encipher {s t : State} (h : KeyAgree s t) (hk : s.KeyInv) (m : List Byte) : encipher t m = encipher s m := by
  simp only [Sys2Proof.Machine.encipher, h.keystreamAt hk]

/-- What CIPHERs of messages, one after another, make of them in Continuous mode: the key state runs on. -/
def encipherAll : List (List Byte) → State → List (List Byte)
  | [], _ => []
  | m :: ms, s => encipher s m :: encipherAll ms (keyAfter m.length s)

theorem encipherAll_encipherAll (ms : List (List Byte)) : ∀ s : State, encipherAll (encipherAll ms s) s = ms := by
  induction ms with
  | nil => exact fun _ => rfl
  | cons m ms ih =>
    intro s
    rw [encipherAll, encipherAll, encipher_encipher, length_encipher, ih]

theorem KeyAgree.encipherAll (ms : List (List Byte)) : ∀ {s t : State}, KeyAgree s t → s.KeyInv →
    encipherAll ms t = encipherAll ms s := by
  induction ms with
  | nil => exact fun _ _ => rfl
  | cons m ms ih =>
    intro s t h hk
    rw [Sys2Proof.Machine.encipherAll, Sys2Proof.Machine.encipherAll, h.encipher hk,
      ih (h.keyAfter hk m.length) (keyAfter_keyInv hk m.length)]

/-! ## CIPHERs one after another -/

/-- `t` is ready for the next CIPHER of a Continuous stream that began in `s`: same installation, same faults. -/
structure SameStream (s t : State) : Prop where
  calm : t.calm
  ready : t.lc = .ready
  mode : t.mode = .continuous
  keys : t.KeyInv
  cfg : t.cfg = s.cfg
  okb : t.okb = s.okb
  klen : t.klen = s.klen
  tcnt : t.tcnt = s.tcnt
  st : t.st = s.st
  faults : t.faults = s.faults

/-- In Continuous mode a CIPHER's keystream goes on from the key state as it stands (R149). -/
theorem cipherStart_continuous {s : State} (h : s.mode = .continuous) : cipherStart s = { s with progress := 0 } := by
  simp [cipherStart, modeDispatch, h]

theorem CipherJob.passes {s t : State} {j : CipherJob} (h : SameStream s t) (hf : j.Fits s) : CipherPasses (j.place t) := by
  obtain ⟨hsource, htarget, -⟩ := hf
  have hmode : t.mode ≠ .undefined := by rw [h.mode]; decide
  exact ⟨h.calm, h.ready, hmode, { h.keys with }, hsource, htarget⟩

/-- One CIPHER of a stream: its output, and the key state and the stream after it. -/
theorem exec_cipher_place {s t : State} {j : CipherJob} (h : SameStream s t) (hf : j.Fits s) :
    ∃ u, exec .cipher (j.place t) = .next u ∧ u.err = .none ∧
      Memory.bytes u.mem j.dst.toNat j.len.toNat = encipher t j.input ∧
      SameStream s u ∧ KeyAgree (keyAfter j.len.toNat t) u := by
  have hpasses := CipherJob.passes h hf
  obtain ⟨-, -, hplain, hr, hw⟩ := hf
  have hfaults : (j.place t).faults = s.faults := h.faults
  obtain ⟨mem, dma, hexec, hout⟩ := exec_cipher_plain hpasses
    (fun k hk => (readFault_congr hfaults).trans (hr k hk)) (fun k hk => (writeFault_congr hfaults).trans (hw k hk)) hplain
  have hstart : KeyAgree t (cipherStart (j.place t)) := by
    rw [cipherStart_continuous (s := j.place t) h.mode]
    exact ⟨rfl, rfl, rfl, rfl, rfl, fun _ _ => rfl⟩
  have hafter := hstart.keyAfter h.keys j.len.toNat
  obtain ⟨hklen, htcnt, hst, hcfg⟩ := keyAfter_installed j.len.toNat t
  have hagree : KeyAgree (keyAfter j.len.toNat t) (cipherDone (j.place t) mem dma) :=
    ⟨hklen.symm, htcnt.symm, hst.symm, hafter.ki, hafter.si, hafter.kb⟩
  refine ⟨_, hexec, rfl, ?_, { h with keys := ?_ }, hagree⟩
  · refine List.ext_getElem (by simp [CipherJob.input]) (fun k hk _ => ?_)
    have hlt : k < j.len.toNat := by simpa using hk
    have hbyte := (hout k hlt).trans (congrArg _ (hstart.keystreamAt h.keys k))
    simp only [Memory.bytes, encipher, CipherJob.input, List.getElem_mapIdx, List.getElem_map, List.getElem_range]
    exact hbyte
  · exact hagree.keyInv hcfg.symm (keyAfter_keyInv h.keys _)

/-- The CIPHERs of a stream all succeed, and their outputs are the messages enciphered with one running keystream. -/
theorem cipherJobs_run {s : State} (l : List CipherJob) : ∀ {t : State}, SameStream s t → (∀ j ∈ l, j.Fits s) →
    ∃ u, cipherJobs l t = some (encipherAll (l.map CipherJob.input) t, u) ∧ SameStream s u := by
  induction l with
  | nil => exact fun h _ => ⟨_, rfl, h⟩
  | cons j l ih =>
    intro t h hfits
    obtain ⟨hfit, hrest⟩ := List.forall_mem_cons.1 hfits
    obtain ⟨u, hexec, herr, hbytes, hu, hagree⟩ := exec_cipher_place h hfit
    obtain ⟨v, hjobs, hv⟩ := ih hu hrest
    have hlen : j.input.length = j.len.toNat := Memory.length_bytes _ _ _
    have houts : encipherAll (l.map CipherJob.input) u = encipherAll (l.map CipherJob.input) (keyAfter j.input.length t) := by
      rw [hlen]
      exact hagree.encipherAll _ (keyAfter_keyInv h.keys _)
    refine ⟨v, ?_, hv⟩
    rw [cipherJobs, hexec]
    simp only [herr, if_true, hjobs, Option.map_some, hbytes, houts, List.map_cons, encipherAll]

/-! ## The stream reset and the way back -/

theorem exec_resetStream_ready {s : State} (hc : s.calm) (hready : s.lc = .ready) :
    exec .resetStream s = .next (complete .none (resetCore (accept (encode .resetStream) s))) := by
  refine command_of_done hc ?_ hc
  simp [resetStreamBody, readyCheck, hready]

/-- A stream reset goes back to the reset point the stream began at (R140). -/
theorem resetCore_agree {s t : State} (hs : s.resetPoint) (h : SameStream s t) : KeyAgree s (resetCore t) := by
  obtain ⟨hkb, hki, hsi⟩ := hs
  refine ⟨h.klen, h.tcnt, h.st, ?_, hsi.symm, fun j hj => ?_⟩
  · rw [resetCore_ki, h.klen, hki]
  · rw [resetCore_kb, Memory.read_copyFirst, h.klen, if_pos hj, h.okb, hkb j hj]

theorem exec_resetStream_stream {s t : State} (hs : s.resetPoint) (hk : s.KeyInv) (h : SameStream s t) :
    ∃ u, exec .resetStream t = .next u ∧ SameStream s u ∧ KeyAgree s u := by
  have haccepted : SameStream s (accept (encode .resetStream) t) := { h with keys := { h.keys with } }
  have hreset := resetCore_agree hs haccepted
  have hagree : KeyAgree s (complete .none (resetCore (accept (encode .resetStream) t))) := { hreset with }
  exact ⟨_, exec_resetStream_ready h.calm h.ready, { h with keys := hagree.keyInv h.cfg hk }, hagree⟩

/-- Settles O60: the way back takes the keystream of the way out again, byte for byte. -/
theorem continuousMessagesRoundTrip : Obligations.ContinuousMessagesRoundTrip := by
  unfold Obligations.ContinuousMessagesRoundTrip
  intro s l back hc hready hmode hk hs hl hback
  obtain ⟨t, hout, ht⟩ := cipherJobs_run l ⟨hc, hready, hmode, hk, rfl, rfl, rfl, rfl, rfl, rfl⟩ hl
  obtain ⟨u, hreset, hu, hagree⟩ := exec_resetStream_stream hs hk ht
  refine ⟨_, t, u, hout, hreset, fun hinputs => ?_⟩
  obtain ⟨v, hin, -⟩ := cipherJobs_run back hu hback
  refine ⟨v, ?_⟩
  rw [hin, hinputs, hagree.encipherAll _ hk, encipherAll_encipherAll]

end Sys2Proof.Machine
end

section
/-! PROOFS. The family of 30_encoding.md: a CMD word is its four fields, and decoding inverts encoding (R80 to R88). -/

namespace Sys2Proof.Machine

/-! ## The fields of a word (R80) -/

/-- The four fields of R80 cover the word: two words with the same fields are the same. -/
theorem word_ext_iff {v w : Word} : v = w ↔
    reservedField v = reservedField w ∧ opField v = opField w ∧ modeField v = modeField w ∧
      defseedField v = defseedField w := by
  refine ⟨fun h => h ▸ ⟨rfl, rfl, rfl, rfl⟩, fun ⟨hrsv, hop, hmode, hseed⟩ => ?_⟩
  refine BitVec.eq_of_getLsbD_eq fun k hk => ?_
  obtain hlow | hmid | rfl | hhigh : k < 4 ∨ (4 ≤ k ∧ k < 6) ∨ k = 6 ∨ 7 ≤ k := by omega
  · simpa [opField, hlow] using congrArg (·.getLsbD k) hop
  · have hbit := congrArg (·.getLsbD (k - 4)) hmode
    simpa [modeField, show k - 4 < 2 by omega, show 4 + (k - 4) = k by omega] using hbit
  · exact hseed
  · have hbit := congrArg (·.getLsbD (k - 7)) hrsv
    simpa [reservedField, show k - 7 < 25 by omega, show 7 + (k - 7) = k by omega] using hbit

@[simp] theorem opField_commandWord (op : BitVec 4) (mode : BitVec 2) (defseed : Bool) :
    opField (commandWord op mode defseed) = op := BitVec.extractLsb'_append_eq_right

@[simp] theorem modeField_commandWord (op : BitVec 4) (mode : BitVec 2) (defseed : Bool) :
    modeField (commandWord op mode defseed) = mode := extract_above BitVec.extractLsb'_append_eq_right

@[simp] theorem reservedField_commandWord (op : BitVec 4) (mode : BitVec 2) (defseed : Bool) :
    reservedField (commandWord op mode defseed) = 0 :=
  extract_above (extract_above (extract_above BitVec.extractLsb'_eq_self))

@[simp] theorem defseedField_commandWord (op : BitVec 4) (mode : BitVec 2) (defseed : Bool) :
    defseedField (commandWord op mode defseed) = defseed :=
  calc defseedField (commandWord op mode defseed)
      = (0#25 ++ BitVec.ofBool defseed ++ mode).getLsbD 2 := BitVec.getLsbD_append
    _ = (0#25 ++ BitVec.ofBool defseed).getLsbD 0 := BitVec.getLsbD_append
    _ = defseed := BitVec.getLsbD_append.trans (by simp)

/-- A word is a command's word exactly when its reserved bits are 0 and its other fields are the command's. -/
theorem commandWord_eq_iff {op : BitVec 4} {mode : BitVec 2} {defseed : Bool} {w : Word} :
    commandWord op mode defseed = w ↔
      reservedField w = 0 ∧ opField w = op ∧ modeField w = mode ∧ defseedField w = defseed := by
  rw [eq_comm, word_ext_iff]; simp

/-! ## Decoding inverts encoding (R85, R87) -/

/-- A word without operands decodes when MODE and DEFSEED are 0 (R85). -/
theorem decodePlain_eq_ok {w : Word} {i j : Instr} :
    decodePlain w i = .ok j ↔ modeField w = 0 ∧ defseedField w = false ∧ i = j := by
  unfold decodePlain
  split_ifs with hfield
  · simp only [false_iff]
    rintro ⟨hmode, hseed, -⟩
    exact hfield.elim (· hmode) (fun h => Bool.false_ne_true (hseed.symm.trans h))
  · obtain ⟨hmode, hseed⟩ := not_or.1 hfield
    simp [not_not.1 hmode, Bool.eq_false_of_not_eq_true hseed]

theorem wellFormed_init {m : BitVec 2} {d : Bool} : (Instr.init m d).wellFormed = true ↔ m ≠ 3#2 := bne_iff_ne

theorem wellFormed_setMode {m : BitVec 2} : (Instr.setMode m).wellFormed = true ↔ m ≠ 3#2 := bne_iff_ne

theorem decode_encode {i : Instr} (h : i.wellFormed = true) : decode (encode i) = .ok i := by
  cases i with
  | init m d => simp [encode, decode, wellFormed_init.1 h]
  | resetStream => simp [encode, decode, decodePlain]
  | cipher => simp [encode, decode, decodePlain]
  | destroy => simp [encode, decode, decodePlain]
  | setMode m => simp [encode, decode, wellFormed_setMode.1 h]

/-- A word without operands that decodes, its reserved bits 0, is the encoding of its command. -/
theorem wellFormed_encode_of_decodePlain {w : Word} {op : BitVec 4} {i j : Instr} (hrsv : reservedField w = 0)
    (hop : opField w = op) (hwf : j.wellFormed = true) (hj : encode j = commandWord op 0 false)
    (h : decodePlain w j = .ok i) : i.wellFormed = true ∧ encode i = w := by
  obtain ⟨hmode, hseed, rfl⟩ := decodePlain_eq_ok.1 h
  exact ⟨hwf, hj.trans (commandWord_eq_iff.2 ⟨hrsv, hop, hmode, hseed⟩)⟩

/-- Each branch of `Decode` that answers has fixed every field of the word. -/
theorem wellFormed_encode_of_decode {w : Word} {i : Instr} (h : decode w = .ok i) :
    i.wellFormed = true ∧ encode i = w := by
  unfold decode at h
  split_ifs at h with hrsv hinit hmode hreset hcipher hdestroy hset hseed hmode
  · cases h
    exact ⟨wellFormed_init.2 hmode, commandWord_eq_iff.2 ⟨not_not.1 hrsv, hinit, rfl, rfl⟩⟩
  · exact wellFormed_encode_of_decodePlain (not_not.1 hrsv) hreset rfl rfl h
  · exact wellFormed_encode_of_decodePlain (not_not.1 hrsv) hcipher rfl rfl h
  · exact wellFormed_encode_of_decodePlain (not_not.1 hrsv) hdestroy rfl rfl h
  · cases h
    exact ⟨wellFormed_setMode.2 hmode,
      commandWord_eq_iff.2 ⟨not_not.1 hrsv, hset, rfl, Bool.eq_false_of_not_eq_true hseed⟩⟩

/-- Settles O1: what decodes has every field fixed by the command, and every encoding is read back field by field. -/
theorem decodeAcceptsExactlyEncodings : Obligations.DecodeAcceptsExactlyEncodings := by
  unfold Obligations.DecodeAcceptsExactlyEncodings
  exact fun w i => ⟨wellFormed_encode_of_decode, fun ⟨hwf, hw⟩ => hw ▸ decode_encode hwf⟩

/-! ## Match and mask (R85) -/

@[simp] theorem opField_and (v w : Word) : opField (v &&& w) = opField v &&& opField w := BitVec.extractLsb'_and

@[simp] theorem modeField_and (v w : Word) : modeField (v &&& w) = modeField v &&& modeField w := BitVec.extractLsb'_and

@[simp] theorem reservedField_and (v w : Word) : reservedField (v &&& w) = reservedField v &&& reservedField w :=
  BitVec.extractLsb'_and

@[simp] theorem defseedField_and (v w : Word) : defseedField (v &&& w) = (defseedField v && defseedField w) :=
  BitVec.getLsbD_and

/-- A mask that passes the reserved bits and OP but not MODE asks for these, and for DEFSEED = 0 where it passes that. -/
theorem and_mask_eq_iff {w mask v : Word} {op : BitVec 4} {seed : Bool} (hrsv : reservedField mask = BitVec.allOnes 25)
    (hop : opField mask = BitVec.allOnes 4) (hmode : modeField mask = 0#2) (hseed : defseedField mask = seed)
    (hv : commandWord op 0 false = v) :
    w &&& mask = v ↔ reservedField w = 0 ∧ opField w = op ∧ (defseedField w && seed) = false := by
  rw [← hv, eq_comm, commandWord_eq_iff, reservedField_and, opField_and, modeField_and, defseedField_and, hrsv, hop, hmode,
    hseed, BitVec.and_allOnes, BitVec.and_allOnes]
  simp

theorem decode_init_iff {w : Word} {m : BitVec 2} {d : Bool} : decode w = .ok (.init m d) ↔
    (w &&& 0xFFFFFF8F#32 = 0x00000001#32 ∧ modeField w ≠ 3 ∧ modeField w = m ∧ defseedField w = d) := by
  have hmask : w &&& 0xFFFFFF8F#32 = 0x00000001#32 ↔ reservedField w = 0 ∧ opField w = 1 := by
    have hfields := and_mask_eq_iff (w := w) (mask := 0xFFFFFF8F#32) (v := 0x00000001#32) (op := 1) (seed := false)
      (by decide) (by decide) (by decide) (by decide) (by decide)
    rwa [Bool.and_false, eq_self, and_true] at hfields
  rw [decodeAcceptsExactlyEncodings w, encode, commandWord_eq_iff, wellFormed_init, hmask]
  constructor
  · rintro ⟨hm, hrsv, hop, rfl, hseed⟩
    exact ⟨⟨hrsv, hop⟩, hm, rfl, hseed⟩
  · rintro ⟨⟨hrsv, hop⟩, hm, rfl, hseed⟩
    exact ⟨hm, hrsv, hop, rfl, hseed⟩

theorem decode_setMode_iff {w : Word} {m : BitVec 2} : decode w = .ok (.setMode m) ↔
    (w &&& 0xFFFFFFCF#32 = 0x00000005#32 ∧ modeField w ≠ 3 ∧ modeField w = m) := by
  have hmask : w &&& 0xFFFFFFCF#32 = 0x00000005#32 ↔
      reservedField w = 0 ∧ opField w = 5 ∧ defseedField w = false := by
    have hfields := and_mask_eq_iff (w := w) (mask := 0xFFFFFFCF#32) (v := 0x00000005#32) (op := 5) (seed := true)
      (by decide) (by decide) (by decide) (by decide) (by decide)
    rwa [Bool.and_true] at hfields
  rw [decodeAcceptsExactlyEncodings w, encode, commandWord_eq_iff, wellFormed_setMode, hmask]
  constructor
  · rintro ⟨hm, hrsv, hop, rfl, hseed⟩
    exact ⟨⟨hrsv, hop, hseed⟩, hm, rfl⟩
  · rintro ⟨⟨hrsv, hop, hseed⟩, hm, rfl⟩
    exact ⟨hm, hrsv, hop, rfl, hseed⟩

/-- A command without operands has the one word of its full mask. -/
theorem decode_iff_fullMask {w v : Word} {i : Instr} (hwf : i.wellFormed = true) (hv : encode i = v) :
    decode w = .ok i ↔ w &&& 0xFFFFFFFF#32 = v := by
  have hmask : w &&& 0xFFFFFFFF#32 = w := BitVec.and_allOnes
  rw [decodeAcceptsExactlyEncodings w i, hmask, hv, and_iff_right hwf]
  exact eq_comm

/-- Settles O2: a mask of R85 passes exactly the fields that its command fixes. -/
theorem wordsSpellMnemonicsByMatchAndMask : Obligations.WordsSpellMnemonicsByMatchAndMask := by
  unfold Obligations.WordsSpellMnemonicsByMatchAndMask
  intro w
  exact ⟨fun _ _ => decode_init_iff, decode_iff_fullMask rfl rfl, decode_iff_fullMask rfl rfl, decode_iff_fullMask rfl rfl,
    fun _ => decode_setMode_iff⟩

/-! ## The twelve words (R88) -/

/-- The well-formed commands, in the order of R88's list. -/
def legalCommands : List Instr :=
  [.init 0 false, .init 1 false, .init 2 false, .init 0 true, .init 1 true, .init 2 true, .resetStream, .cipher, .destroy,
   .setMode 0, .setMode 1, .setMode 2]

theorem mem_legalCommands (i : Instr) : i ∈ legalCommands ↔ i.wellFormed = true := by
  cases i with
  | init m d => revert m d; decide
  | resetStream => decide
  | cipher => decide
  | destroy => decide
  | setMode m => revert m; decide

/-- A command and its word are a pair of R88's list exactly when the command is well formed. -/
theorem mem_map_encode_legalCommands {w : Word} {i : Instr} :
    (w, i) ∈ legalCommands.map (fun j => (encode j, j)) ↔ i.wellFormed = true ∧ encode i = w := by
  simp [mem_legalCommands, and_comm]

/-- Settles O3: R88's list is that of the well-formed commands, each with its encoding. -/
theorem exactlyTwelveLegalWords : Obligations.ExactlyTwelveLegalWords := by
  unfold Obligations.ExactlyTwelveLegalWords
  exact fun w i => (decodeAcceptsExactlyEncodings w i).trans mem_map_encode_legalCommands.symm

/-- Settles O4: each word is the encoding of its command, bit by bit. -/
theorem sampleWordsDecode : Obligations.SampleWordsDecode := by
  unfold Obligations.SampleWordsDecode
  exact ⟨decode_encode (i := .init 1 true) rfl, decode_encode (i := .resetStream) rfl, decode_encode (i := .cipher) rfl,
    decode_encode (i := .destroy) rfl, decode_encode (i := .setMode 2) rfl⟩

/-! ## MODE = 3 (R82, R208) -/

/-- A command whose rule fails at once with `e`, no other agent acting, only completes with `e` (R213, R214). -/
theorem command_rejected {w : Word} {body : State → Run} {s : State} {e : ErrCode} (hs : s.calm)
    (hbody : body (accept w s) = .failed e (accept w s)) : command w body s = .next (s.rejected w e) :=
  command_of_failed hs hbody ((accept_calm w).2 hs)

/-- Settles O6: with MODE = 3 either rule fails before it looks at the state. -/
theorem modeThreeIsIllegal : Obligations.ModeThreeIsIllegal := by
  unfold Obligations.ModeThreeIsIllegal
  exact fun s d hs => ⟨command_rejected hs rfl, command_rejected hs rfl⟩

end Sys2Proof.Machine
end

section
/-! PROOFS. The family of 40_schedule_generator.md: what a generation writes (R103 to R106), and that the tables an INIT installs
depend on its seed and its table count alone (R110, R111). -/

namespace Sys2Proof.Machine

/-! ## A generation, byte by byte (R103 to R106) -/

/-- The evaluations of `t` tables fill `t * 256` bytes (R105). -/
theorem evaluations_mul_hashLen {p : Params} (hv : p.valid = true) (t : Nat) : t * (256 / p.hashLen) * p.hashLen = t * 256 := by
  rw [Nat.mul_assoc, hashLen_mul hv]

theorem seedBytes_generateSchedule {s : State} (hv : s.cfg.valid = true) (t : Nat) :
    seedBytes (generateSchedule t s) = maskedSeed t (seedBytes s) := by
  rw [generateSchedule_frame hv]
  exact seedBytes_genStart t s

theorem gctr_generateSchedule {s : State} (hv : s.cfg.valid = true) (t : Nat) :
    (generateSchedule t s).gctr = BitVec.ofNat 64 (t * 256 / s.cfg.hashLen) := by
  have hcount : t * 256 / s.cfg.hashLen = t * (256 / s.cfg.hashLen) :=
    Nat.div_eq_of_eq_mul_left (hashLen_pos hv) (evaluations_mul_hashLen hv t).symm
  rw [hcount]
  exact (generateSchedule_spec hv t).counter

/-- What ST holds at index `j` after a generation of `t` tables over `old`: R105's byte within the schedule, the byte before
beyond it. -/
def scheduleOver (p : Params) (t : Nat) (seed : List Byte) (old : Memory) (j : Nat) : Byte :=
  if j < t * 256 then scheduleByte p (maskedSeed t seed) j else Memory.read old j

theorem read_generateSchedule {s : State} (hv : s.cfg.valid = true) (t j : Nat) :
    Memory.read (generateSchedule t s).st j = scheduleOver s.cfg t (seedBytes s) s.st j := by
  have hgen := generateSchedule_spec hv t
  have hsize : t * (256 / s.cfg.hashLen) * (genStart t s).cfg.hashLen = t * 256 := evaluations_mul_hashLen hv t
  have hcfg : (generateSchedule t s).cfg = s.cfg := by rw [generateSchedule_frame hv]
  unfold scheduleOver
  split
  case isTrue hj => rw [hgen.filled j (hsize ▸ hj), hcfg]
  case isFalse hj => exact hgen.rest j (by omega)

theorem read_generateSchedule_of_lt {s : State} (hv : s.cfg.valid = true) {t j : Nat} (hj : j < t * 256) :
    Memory.read (generateSchedule t s).st j = scheduleByte s.cfg (maskedSeed t (seedBytes s)) j :=
  (read_generateSchedule hv t j).trans (if_pos hj)

/-- Settles O28: the state after the last evaluation, as the loop invariant of R106 gives it. -/
theorem generatorFillsScheduleFromCounter : Obligations.GeneratorFillsScheduleFromCounter := by
  unfold Obligations.GeneratorFillsScheduleFromCounter
  intro s t hv
  refine ⟨seedBytes_generateSchedule hv t, gctr_generateSchedule hv t, fun j hj => ?_, fun j hj => ?_⟩
  · rw [seedBytes_generateSchedule hv]
    exact read_generateSchedule_of_lt hv hj
  · exact (read_generateSchedule hv t j).trans (if_neg (by omega))

/-! ## Table counts that are equal modulo 255 (R111) -/

/-- The transform sees a table count modulo 255 only (R103). -/
theorem maskedSeed_congr {t₁ t₂ : Nat} (h : t₁ % 255 = t₂ % 255) (seed : List Byte) : maskedSeed t₁ seed = maskedSeed t₂ seed := by
  unfold maskedSeed seedMask
  rw [h]

/-- Settles O30: the two transformed seeds are one, and a schedule byte depends on nothing else of the count. -/
theorem countsEqualModulo255Collide : Obligations.CountsEqualModulo255Collide := by
  unfold Obligations.CountsEqualModulo255Collide
  intro s t₁ t₂ hv hlt hmod
  have hseed : maskedSeed t₁ (seedBytes s) = maskedSeed t₂ (seedBytes s) := maskedSeed_congr hmod _
  refine ⟨?_, fun j hj => ?_⟩
  · rw [seedBytes_generateSchedule hv, seedBytes_generateSchedule hv, hseed]
  · have hj' : j < t₂ * 256 := hj.trans (Nat.mul_lt_mul_of_pos_right hlt (by decide))
    rw [read_generateSchedule_of_lt hv hj, read_generateSchedule_of_lt hv hj', hseed]

/-! ## A command that succeeds -/

/-- `P` holds where the execution goes on; where it failed it has a code to report; no other agent acts in either. -/
def Run.Gives (P : State → Prop) (r : Run) : Prop :=
  r.Ends (fun u => u.calm ∧ P u) (fun e u => u.calm ∧ e ≠ .none) (fun _ => False)

theorem Run.Gives.andThen {P P' : State → Prop} {r : Run} {k : State → Run} (h : r.Gives P)
    (hk : ∀ u, u.calm → P u → (k u).Gives P') : (r.andThen k).Gives P' :=
  Run.Ends.andThen h (fun u hu => hk u hu.1 hu.2)

/-- A command that reports no code has completed what its rule gives. -/
theorem command_gives {P : State → Prop} {w : Word} {body : State → Run} {s t : State} (hs : s.calm)
    (hbody : (body (accept w s)).Gives P) (ht : command w body s = .next t) (herr : t.err = .none) :
    ∃ u, t = complete .none u ∧ P u := by
  cases hrun : body (accept w s) with
  | done u =>
    rw [hrun] at hbody
    obtain ⟨hcalm, hu⟩ := hbody
    rw [command_of_done hs hrun hcalm] at ht
    cases ht
    exact ⟨u, rfl, hu⟩
  | failed e u =>
    rw [hrun] at hbody
    obtain ⟨hcalm, he⟩ := hbody
    rw [command_of_failed hs hrun hcalm] at ht
    cases ht
    exact absurd herr he
  | abandoned u => rw [hrun] at hbody; exact hbody.elim
  | stopped f => rw [hrun] at hbody; exact hbody.elim

/-! ## INIT's tables (R110, R122) -/

/-- A range's reads all succeed, or there is a first one that fails. -/
theorem readsSucceed_or_first_fault (base n : Nat) (s : State) : readsSucceed base n s ∨
    ∃ k f, k < n ∧ readsSucceed base k s ∧ readFault (base + k) s = some f := by
  induction n with
  | zero => exact .inl (fun j hj => absurd hj (Nat.not_lt_zero j))
  | succ n ih =>
    obtain hall | ⟨k, f, hk, hbefore, hfault⟩ := ih
    · cases hlast : readFault (base + n) s with
      | none => exact .inl (Nat.forall_lt_succ_right.2 ⟨hall, hlast⟩)
      | some f => exact .inr ⟨n, f, Nat.lt_succ_self n, hall, hlast⟩
    · exact .inr ⟨k, f, Nat.lt_succ_of_lt hk, hbefore, hfault⟩

/-- The seed an INIT in execution takes: `seedOf`, from the latched operands (R122, R125). -/
def latchedSeed (d : Bool) (s : State) : List Byte :=
  if d then defaultSeed s.cfg else Memory.bytes s.mem (opSeedAddr s) (opSeedLen s)

theorem latchedSeed_accept (w : Word) (d : Bool) (s : State) : latchedSeed d (accept w s) = seedOf d s := rfl

/-- The generator's inputs in `t`: the parameters, the table count and the storage are those of `s`, and the seed is `seed`. -/
structure SeedTaken (s : State) (seed : List Byte) (t : State) : Prop where
  cfg : t.cfg = s.cfg
  count : opTableCount t = opTableCount s
  st : t.st = s.st
  seed : seedBytes t = seed

theorem Memory.bytes_writeBytes (m : Memory) (bs : List Byte) : Memory.bytes (Memory.writeBytes m 0 bs) 0 bs.length = bs := by
  refine List.ext_getElem (Memory.length_bytes _ _ _) (fun j _ hj => ?_)
  simp [Memory.bytes, Memory.read_writeBytes, hj]

/-- "load seed into scratch" (R122, R125). -/
theorem takeSeed_gives (d : Bool) {s : State} (hc : s.calm) : (takeSeed d s).Gives (SeedTaken s (latchedSeed d s)) := by
  have hdone (hreads : d = false → readsSucceed (opSeedAddr s) (opSeedLen s) s) :
      (takeSeed d s).Gives (SeedTaken s (latchedSeed d s)) := by
    rw [takeSeed_ok d hc hreads rfl]
    exact ⟨hc, rfl, rfl, rfl, Memory.bytes_writeBytes _ _⟩
  cases d with
  | true => exact hdone Bool.noConfusion
  | false =>
    obtain hreads | ⟨k, f, hk, hbefore, hfault⟩ := readsSucceed_or_first_fault (opSeedAddr s) (opSeedLen s) s
    · exact hdone (fun _ => hreads)
    · have hrun := loadSeed_fail (opSeedLen s) 0 k (s := { s with slen := opSeedLen s }) hc hk hbefore hfault
      rw [takeSeed, if_neg Bool.false_ne_true, hrun]
      exact ⟨hc, ErrCode.noConfusion⟩

/-- The key reads leave the generator's inputs alone (R66, R122). -/
theorem loadKey_gives (n : Nat) {s t : State} {seed : List Byte} (hc : t.calm) (h : SeedTaken s seed t) :
    (loadKey n 0 t).Gives (SeedTaken s seed) := by
  obtain hreads | ⟨k, f, hk, hbefore, hfault⟩ := readsSucceed_or_first_fault (opKeyAddr t) n t
  · rw [loadKey_ok n 0 hc hreads]
    exact ⟨hc, h.cfg, h.count, h.st, h.seed⟩
  · rw [loadKey_fail n 0 k hc hk hbefore hfault]
    exact ⟨hc, ErrCode.noConfusion⟩

theorem generateAndDrop_calm {s : State} (hc : s.calm) : (generateAndDrop s).calm := (generateAndDrop_memKept ⟨hc, rfl⟩).1

/-- INIT's generation from the inputs of `s` (R122). -/
theorem read_generateAndDrop {s t : State} {seed : List Byte} (hv : s.cfg.valid = true) (h : SeedTaken s seed t) (j : Nat) :
    Memory.read (generateAndDrop t).st j = scheduleOver s.cfg (opTableCount s) seed s.st j := by
  rw [generateAndDrop, dropSeed_st, read_generateSchedule (h.cfg ▸ hv), h.cfg, h.count, h.st, h.seed]

/-- ST in `u` holds the schedule that an INIT in execution at `s` generates, over what stood there (R105, R122). -/
def TablesInstalled (d : Bool) (s u : State) : Prop :=
  ∀ j, Memory.read u.st j = scheduleOver s.cfg (opTableCount s) (latchedSeed d s) s.st j

/-- INIT after its validation: the generator runs on the seed taken, and nothing after it writes ST (R122). -/
theorem initRun_gives_tables (m : Mode) (d : Bool) {s : State} (hc : s.calm) (hv : s.cfg.valid = true) :
    (initRun m d s).Gives (TablesInstalled d s) := by
  refine (takeSeed_gives d hc).andThen (fun s1 hc1 h1 => ?_)
  refine (loadKey_gives _ hc1 h1).andThen (fun s2 hc2 h2 => ?_)
  have hgenerated : (generateAndDrop s2).calm := generateAndDrop_calm hc2
  have hinstalled : (installKey m (generateAndDrop s2)).calm := hgenerated
  rw [atWindow_of_calm hc2, atWindow_of_calm hgenerated, atWindow_of_calm hinstalled]
  exact ⟨hinstalled, read_generateAndDrop hv h2⟩

/-- Each row of R121 has a code. -/
theorem initCheck_ne_none {d : Bool} {s : State} {e : ErrCode} (h : initCheck d s = some e) : e ≠ .none := by
  rintro rfl
  unfold initCheck at h
  split_ifs at h <;> cases h

theorem initBody_gives_tables (m : BitVec 2) (d : Bool) {s : State} (hc : s.calm) (hv : s.cfg.valid = true) :
    (initBody m d s).Gives (TablesInstalled d s) := by
  unfold initBody
  split
  · exact ⟨hc, ErrCode.noConfusion⟩
  · split
    next hcheck => exact ⟨hc, initCheck_ne_none hcheck⟩
    next => exact initRun_gives_tables _ d hc hv

/-- ST after an INIT that succeeds: the schedule of its seed and its table count over what stood there (R105, R122). -/
theorem read_st_of_exec_init {m : BitVec 2} {d : Bool} {s t : State} (hc : s.calm) (hv : s.cfg.valid = true)
    (ht : exec (.init m d) s = .next t) (herr : t.err = .none) (j : Nat) :
    Memory.read t.st j = scheduleOver s.cfg s.regs.tableCount.toNat (seedOf d s) s.st j := by
  have hrun := initBody_gives_tables m d (s := accept (encode (.init m d)) s) hc hv
  obtain ⟨u, rfl, hu⟩ := command_gives hc hrun ht herr
  rw [← latchedSeed_accept (encode (.init m d))]
  exact hu j

/-- Over erased storages the schedule is the same. -/
theorem scheduleOver_congr_of_erased {s₁ s₂ : State} (h₁ : s₁.ErasedInv) (h₂ : s₂.ErasedInv) (p : Params) (t : Nat)
    (seed : List Byte) (j : Nat) : scheduleOver p t seed s₁.st j = scheduleOver p t seed s₂.st j := by
  unfold scheduleOver
  rw [h₁.st_zero j (Nat.zero_le j), h₂.st_zero j (Nat.zero_le j)]

/-- Settles O29: each INIT leaves the schedule of its seed and its count over an erased ST, and the two schedules are one. -/
theorem sameSeedAndCountGiveSameTables : Obligations.SameSeedAndCountGiveSameTables := by
  unfold Obligations.SameSeedAndCountGiveSameTables
  intro s₁ s₂ t₁ t₂ m₁ m₂ d₁ d₂ hc₁ hc₂ hv hcfg he₁ he₂ hx₁ hx₂ herr₁ herr₂ hcount hseed j
  rw [read_st_of_exec_init hc₁ hv hx₁ herr₁, read_st_of_exec_init hc₂ (hcfg ▸ hv) hx₂ herr₂, hcfg, hcount, hseed]
  exact scheduleOver_congr_of_erased he₁ he₂ _ _ _ j

end Sys2Proof.Machine
end

section
/-! PROOFS. The family of 41_init.md: INIT's validation (R121), its effect when every read succeeds (R122, R123), and its abort at
a read that fails (R124). -/

namespace Sys2Proof.Machine

/-! ## Validation (R121) -/

/-- The first row that holds gives the code. -/
theorem firstCode_cons (c : Bool) (e : ErrCode) (rows : List (Bool × ErrCode)) :
    (((c, e) :: rows).find? (fun r => r.1)).map Prod.snd =
      if c = true then some e else (rows.find? (fun r => r.1)).map Prod.snd := by
  cases c <;> rfl

/-- INIT's checks at acceptance are the rows of R121, the latched operands being the registers (R39, R86). -/
theorem initCheck_accept (w : Word) (d : Bool) (s : State) :
    initCheck d (accept w s) = ((initRows d s).find? (fun r => r.1)).map Prod.snd := by
  simp only [initRows, firstCode_cons, List.find?_nil, Option.map_none, beq_iff_eq, Bool.or_eq_true, Bool.and_eq_true,
    Bool.not_eq_true', decide_eq_true_eq, ← inRange_eq_false]
  rfl

/-- Settles O25: the validation comes before anything that INIT writes. -/
theorem initFailsWithFirstRowThatHolds : Obligations.InitFailsWithFirstRowThatHolds := by
  unfold Obligations.InitFailsWithFirstRowThatHolds
  intro s m d c e hs hm hrow
  obtain ⟨mode, hmode, -⟩ := ofField_code hm
  have hcheck : initCheck d (accept (encode (.init m d)) s) = some e := by rw [initCheck_accept, hrow]; rfl
  have hbody : initBody m d (accept (encode (.init m d)) s) = .failed e (accept (encode (.init m d)) s) := by
    rw [initBody, hmode, hcheck]
  exact command_rejected hs hbody

/-- Where every row of R121 is off, none is found. -/
theorem initRows_find?_eq_none {d : Bool} {s : State} (hlc : s.lc = .uninit)
    (hcount : s.cfg.minTables ≤ s.regs.tableCount.toNat ∧ s.regs.tableCount.toNat ≤ s.cfg.maxTables)
    (hlen : 1 ≤ s.regs.keyLen.toNat ∧ s.regs.keyLen.toNat ≤ s.cfg.keyMaxLen)
    (hkey : s.regs.keyAddr.toNat + s.regs.keyLen.toNat ≤ 2 ^ 32)
    (hseed : d = false → s.regs.seedLen.toNat ≤ s.cfg.seedMaxLen ∧ s.regs.seedAddr.toNat + s.regs.seedLen.toNat ≤ 2 ^ 32) :
    (initRows d s).find? (fun r => r.1) = none := by
  have seedRow {p : Prop} [Decidable p] (h : d = false → ¬ p) : (!d && decide p) = false := by
    cases d with
    | true => rfl
    | false => exact decide_eq_false (h rfl)
  simp only [initRows, hlc, decide_eq_false hcount.1.not_gt, decide_eq_false hcount.2.not_gt,
    decide_eq_false (Nat.ne_of_gt hlen.1), decide_eq_false hlen.2.not_gt, seedRow (fun hd => (hseed hd).1.not_gt),
    seedRow (fun hd => (hseed hd).2.not_gt), decide_eq_false hkey.not_gt]
  rfl

/-- Where no row holds INIT goes on past its validation, with the mode as given (R121, R122). -/
theorem initBody_of_no_row {m : BitVec 2} {d : Bool} {s : State} (w : Word) (hm : m ≠ 3)
    (hrows : (initRows d s).find? (fun r => r.1) = none) :
    ∃ mode : Mode, mode.code = m ∧ initBody m d (accept w s) = initRun mode d (accept w s) := by
  obtain ⟨mode, hmode, hcode⟩ := ofField_code hm
  have hcheck : initCheck d (accept w s) = none := by rw [initCheck_accept, hrows]; rfl
  exact ⟨mode, hcode, by rw [initBody, hmode, hcheck]⟩

/-! ## The reads that succeed (R66, R122) -/

/-- The record of the seed's reads, latest first: `DEFAULT_SEED` takes none (R125). -/
def seedTrace (d : Bool) (s : State) : List DmaAccess := if d then [] else readTrace (opSeedAddr s) (opSeedLen s)

/-- The state once the seed is in scratch. -/
def withSeed (d : Bool) (s : State) : State :=
  { s with seedbuf := Memory.writeBytes s.seedbuf 0 (latchedSeed d s), slen := (latchedSeed d s).length,
           dma := seedTrace d s ++ s.dma }

theorem takeSeed_eq_withSeed {d : Bool} {s : State} (hc : s.calm)
    (hseed : d = false → readsSucceed (opSeedAddr s) (opSeedLen s) s) : takeSeed d s = .done (withSeed d s) :=
  takeSeed_ok d hc hseed rfl

/-- The key bytes in host memory. -/
def latchedKey (s : State) : List Byte := Memory.bytes s.mem (opKeyAddr s) (opKeyLen s)

/-- The state once the key is in KB and OKB. -/
def withKey (s : State) : State :=
  { s with kb := Memory.writeBytes s.kb 0 (latchedKey s), okb := Memory.writeBytes s.okb 0 (latchedKey s),
           dma := readTrace (opKeyAddr s) (opKeyLen s) ++ s.dma }

theorem loadKey_eq_withKey {s : State} (hc : s.calm) (hkey : readsSucceed (opKeyAddr s) (opKeyLen s) s) :
    loadKey (opKeyLen s) 0 s = .done (withKey s) :=
  loadKey_ok (opKeyLen s) 0 hc hkey

/-! ## An INIT that succeeds (R122, R123) -/

/-- Generation is over and the seed dropped: ST alone keeps a trace of it. -/
theorem generateAndDrop_frame {s : State} (hv : s.cfg.valid = true) :
    generateAndDrop s = dropSeed { s with st := (generateAndDrop s).st } := by
  rw [generateAndDrop, generateSchedule_frame hv]
  rfl

/-- The state at the end of INIT's rule, every read having succeeded. The stream reset at its end copies OKB over KB. -/
def installed (m : Mode) (d : Bool) (s : State) : State :=
  { s with lc := .ready, mode := m,
           kb := Memory.copyFirst (opKeyLen s) (withKey s).kb (withKey s).okb, okb := (withKey s).okb, klen := opKeyLen s,
           st := (generateAndDrop (withKey (withSeed d s))).st, tcnt := opTableCount s, ki := (opKeyLen s : Int) - 1, si := 0,
           seedbuf := Memory.zeros, slen := 0, gctr := 0,
           dma := readTrace (opKeyAddr s) (opKeyLen s) ++ (seedTrace d s ++ s.dma) }

/-- INIT after its validation, every read succeeding (R122). -/
theorem initRun_ok (m : Mode) {d : Bool} {s : State} (hc : s.calm) (hv : s.cfg.valid = true)
    (hseed : d = false → readsSucceed (opSeedAddr s) (opSeedLen s) s)
    (hkey : readsSucceed (opKeyAddr s) (opKeyLen s) s) : initRun m d s = .done (installed m d s) := by
  have hloaded : (withKey (withSeed d s)).calm := hc
  have hgenerated : (generateAndDrop (withKey (withSeed d s))).calm := generateAndDrop_calm hloaded
  have hinstalled : (installKey m (generateAndDrop (withKey (withSeed d s)))).calm := hgenerated
  have hload : loadKey (opKeyLen (withSeed d s)) 0 (withSeed d s) = .done (withKey (withSeed d s)) :=
    loadKey_eq_withKey hc hkey
  simp only [initRun, takeSeed_eq_withSeed hc hseed, Run.andThen, hload, atWindow_of_calm hloaded,
    atWindow_of_calm hgenerated, atWindow_of_calm hinstalled]
  rw [generateAndDrop_frame (s := withKey (withSeed d s)) hv]
  rfl

/-- An erased buffer that the key was written to. -/
theorem read_writeBytes_latchedKey {m : Memory} (hm : m.zeroFrom 0) (s : State) (j : Nat) :
    Memory.read (Memory.writeBytes m 0 (latchedKey s)) j =
      if j < opKeyLen s then Memory.read s.mem (opKeyAddr s + j) else 0 := by
  have hlen : (latchedKey s).length = opKeyLen s := Memory.length_bytes _ _ _
  rw [Memory.read_writeBytes, hlen, Nat.zero_add, Nat.sub_zero, hm j (Nat.zero_le j)]
  by_cases hj : j < opKeyLen s
  · rw [if_pos ⟨Nat.zero_le j, hj⟩, if_pos hj, latchedKey, Memory.getD_bytes _ _ _ _ hj]
  · rw [if_neg (fun h => hj h.2), if_neg hj]

theorem read_installed_okb (m : Mode) (d : Bool) {s : State} (he : s.ErasedInv) (j : Nat) :
    Memory.read (installed m d s).okb j = if j < opKeyLen s then Memory.read s.mem (opKeyAddr s + j) else 0 :=
  read_writeBytes_latchedKey he.okb_zero s j

/-- The stream reset at the end of INIT leaves KB as the key reads did: OKB holds the same bytes. -/
theorem read_installed_kb (m : Mode) (d : Bool) {s : State} (he : s.ErasedInv) (j : Nat) :
    Memory.read (installed m d s).kb j = if j < opKeyLen s then Memory.read s.mem (opKeyAddr s + j) else 0 := by
  refine (Memory.read_copyFirst _ _ _ j).trans ?_
  rw [withKey, read_writeBytes_latchedKey he.okb_zero, read_writeBytes_latchedKey he.kb_zero, ite_self]

/-- Settles O26: `installed` is the state INIT's rule ends in, and ST in it holds the schedule of `read_st_of_exec_init`. -/
theorem initInstallsKeyAndSchedule : Obligations.InitInstallsKeyAndSchedule := by
  unfold Obligations.InitInstallsKeyAndSchedule
  intro s m d hc hv hlc he hm htmin htmax hkmin hkmax hkrange hkey hseed
  have hrows := initRows_find?_eq_none hlc ⟨htmin, htmax⟩ ⟨hkmin, hkmax⟩ hkrange
    (fun hd => ⟨(hseed hd).1, (hseed hd).2.1⟩)
  obtain ⟨mode, hcode, hbody⟩ := initBody_of_no_row (encode (.init m d)) hm hrows
  have hrun := initRun_ok mode (s := accept (encode (.init m d)) s) hc hv (fun hd => (hseed hd).2.2) hkey
  have hexec : exec (.init m d) s = .next (complete .none (installed mode d (accept (encode (.init m d)) s))) :=
    command_of_done hc (hbody.trans hrun) hc
  have hst := read_st_of_exec_init hc hv hexec rfl
  have herased : (accept (encode (.init m d)) s).ErasedInv := { he with }
  have hkb := read_installed_kb mode d herased
  have hokb := read_installed_okb mode d herased
  refine ⟨_, hexec, hcode, fun j hj => ?key, fun j hj => ?rest, fun j hj => ?schedule, fun j hj => ?beyond, fun _ => rfl, rfl⟩
  case key => exact ⟨(hkb j).trans (if_pos hj), (hokb j).trans (if_pos hj)⟩
  case rest => exact ⟨(hkb j).trans (if_neg hj.not_gt), (hokb j).trans (if_neg hj.not_gt)⟩
  case schedule => exact (hst j).trans (if_pos hj)
  case beyond => exact (hst j).trans ((if_neg hj.not_gt).trans (he.st_zero j (Nat.zero_le j)))

/-! ## An INIT that aborts (R124) -/

/-- A canonical storage whose every byte is 0 lists none. -/
theorem Memory.eq_zeros {m : Memory} (hw : m.wf = true) (hz : m.zeroFrom 0) : m = Memory.zeros :=
  Memory.ext_of_wf hw Memory.wf_zeros (fun j => hz j (Nat.zero_le j))

/-- Zeroing undoes what was written to an erased storage below `n`. -/
theorem Memory.zeroFirst_writeBytes {m : Memory} (hw : m.wf = true) (hz : m.zeroFrom 0) {bs : List Byte} {n : Nat}
    (hn : bs.length ≤ n) : Memory.zeroFirst n (Memory.writeBytes m 0 bs) = m := by
  refine Memory.ext_of_wf (Memory.wf_zeroFirst n (Memory.wf_writeBytes 0 bs hw)) hw (fun j => ?_)
  rw [Memory.read_zeroFirst, hz j (Nat.zero_le j)]
  by_cases hj : j < n
  · exact if_pos hj
  · rw [if_neg hj, Memory.read_writeBytes, if_neg (by omega), hz j (Nat.zero_le j)]

/-- `InitAbort()` leaves an erased state as it was, whatever part of the seed and the key had been loaded (R124). -/
theorem initAbort_restores {s : State} (he : s.ErasedInv) (hc : s.Canonical) {key : List Byte} (hkey : key.length ≤ opKeyLen s)
    (seedbuf : Memory) (slen : Nat) (dma : List DmaAccess) :
    initAbort { s with kb := Memory.writeBytes s.kb 0 key, okb := Memory.writeBytes s.okb 0 key, seedbuf := seedbuf,
                       slen := slen, dma := dma } = { s with dma := dma } := by
  have hkb := Memory.zeroFirst_writeBytes hc.kb he.kb_zero hkey
  have hokb := Memory.zeroFirst_writeBytes hc.okb he.okb_zero hkey
  have hbuf := Memory.eq_zeros hc.seedbuf he.seedbuf_zero
  simp only [initAbort, dropSeed, opKeyLen] at hkb hokb ⊢
  rw [hkb, hokb, ← hbuf, ← he.slen_zero, ← he.gctr_zero]

/-- INIT after its validation, seed byte `k` the first whose read fails (R66, R124). -/
theorem initRun_seed_fail (m : Mode) {s : State} {k : Nat} {f : DmaFault} (hc : s.calm) (he : s.ErasedInv) (hcan : s.Canonical)
    (hk : k < opSeedLen s) (hbefore : readsSucceed (opSeedAddr s) k s) (hfault : readFault (opSeedAddr s + k) s = some f) :
    initRun m false s = .failed .busError { s with
      dma := .read (opSeedAddr s + k) false :: (readTrace (opSeedAddr s) k ++ s.dma) } := by
  have hload := loadSeed_fail (opSeedLen s) 0 k (s := { s with slen := opSeedLen s }) hc hk hbefore hfault
  have habort := initAbort_restores he hcan (key := []) (Nat.zero_le _)
    (Memory.writeBytes s.seedbuf 0 (Memory.bytes s.mem (opSeedAddr s) k)) (opSeedLen s)
    (.read (opSeedAddr s + k) false :: (readTrace (opSeedAddr s) k ++ s.dma))
  rw [initRun, takeSeed, if_neg Bool.false_ne_true, hload]
  exact congrArg (Run.failed .busError) habort

/-- INIT after its validation, key byte `k` the first whose read fails, after the whole seed (R66, R124). -/
theorem initRun_key_fail (m : Mode) {d : Bool} {s : State} {k : Nat} {f : DmaFault} (hc : s.calm) (he : s.ErasedInv)
    (hcan : s.Canonical) (hseed : d = false → readsSucceed (opSeedAddr s) (opSeedLen s) s)
    (hk : k < opKeyLen s) (hbefore : readsSucceed (opKeyAddr s) k s) (hfault : readFault (opKeyAddr s + k) s = some f) :
    initRun m d s = .failed .busError { s with
      dma := .read (opKeyAddr s + k) false :: (readTrace (opKeyAddr s) k ++ (seedTrace d s ++ s.dma)) } := by
  have hlen : (Memory.bytes s.mem (opKeyAddr s) k).length ≤ opKeyLen s := (Memory.length_bytes _ _ _).trans_le hk.le
  have habort := initAbort_restores he hcan hlen (withSeed d s).seedbuf (withSeed d s).slen
    (.read (opKeyAddr s + k) false :: (readTrace (opKeyAddr s) k ++ (seedTrace d s ++ s.dma)))
  have hload := (loadKey_fail (opKeyLen (withSeed d s)) 0 k (s := withSeed d s) hc hk hbefore hfault).trans
    (congrArg (Run.failed .busError) habort)
  simp only [initRun, takeSeed_eq_withSeed hc hseed, Run.andThen, hload]

/-- An INIT that passes its checks and then fails with nothing changed but the record of its reads. -/
theorem exec_init_busError {s : State} {m : BitVec 2} {d : Bool} {l : List DmaAccess} (hc : s.calm) (hm : m ≠ 3)
    (hrows : (initRows d s).find? (fun r => r.1) = none)
    (hrun : ∀ mode, initRun mode d (accept (encode (.init m d)) s) =
      .failed .busError { accept (encode (.init m d)) s with dma := l }) :
    exec (.init m d) s = .next { s.rejected (encode (.init m d)) .busError with dma := l } := by
  obtain ⟨mode, -, hbody⟩ := initBody_of_no_row (encode (.init m d)) hm hrows
  exact command_of_failed hc (hbody.trans (hrun mode)) hc

/-- Settles O27: the first read that fails is the seed's or the key's, and the abort zeroes all that was loaded before it. -/
theorem initBusErrorRestoresState : Obligations.InitBusErrorRestoresState := by
  unfold Obligations.InitBusErrorRestoresState
  intro s m d k f hc _ _ he hcan hm hrows
  have herased (w : Word) : (accept w s).ErasedInv := { he with }
  have hcanonical (w : Word) : (accept w s).Canonical := { hcan with }
  refine ⟨?seed, ?key⟩
  case seed =>
    rintro ⟨rfl, hk, hbefore, hfault⟩
    exact exec_init_busError hc hm hrows
      (fun mode => initRun_seed_fail mode hc (herased _) (hcanonical _) hk hbefore hfault)
  case key =>
    rintro ⟨hseed, hk, hbefore, hfault⟩
    exact exec_init_busError hc hm hrows
      (fun mode => initRun_key_fail mode hc (herased _) (hcanonical _) hseed hk hbefore hfault)

end Sys2Proof.Machine
end

section
/-! PROOFS. The family of 42_keystream.md: the stream reset and the mode field (R140, R141, R158), CIPHER's checks and a CIPHER of no
bytes (R150, R152), and that no step stops (R160, R241). -/

namespace Sys2Proof.Machine

/-! ## RESET_STREAM and SET_MODE -/

/-- Settles O31: in READY the command is `resetCore`, which copies the live key bytes and nothing beyond them. -/
theorem resetStreamRollsKeyStateBack : Obligations.ResetStreamRollsKeyStateBack := by
  unfold Obligations.ResetStreamRollsKeyStateBack
  intro s hc hready
  refine ⟨_, exec_resetStream_ready hc hready, fun j hj => ?live, fun j hj => ?rest, fun _ => rfl, rfl⟩
  case live => exact (Memory.read_copyFirst s.klen s.kb s.okb j).trans (if_pos hj)
  case rest => exact (Memory.read_copyFirst s.klen s.kb s.okb j).trans (if_neg (by omega))

theorem setModeBody_ready {m : BitVec 2} {mode : Mode} {s : State} (hm : Mode.ofField m = some mode) (hready : s.lc = .ready) :
    setModeBody m s = .done { s with mode := mode } := by
  simp only [setModeBody, readyCheck, hm, hready]

/-- Settles O45: a MODE field other than 3 encodes a mode, and the command's rule stores it. -/
theorem setModeStoresItsOperand : Obligations.SetModeStoresItsOperand := by
  unfold Obligations.SetModeStoresItsOperand
  intro s m hc hready hm
  obtain ⟨mode, hmode, hcode⟩ := ofField_code hm
  exact ⟨_, command_of_done hc (setModeBody_ready hmode hready) hc, hcode, fun _ => rfl, rfl⟩

/-! ## CIPHER's checks (R150, R213) -/

/-- CIPHER's checks at acceptance are the rows of R150, the latched operands being the registers (R39, R86). -/
theorem cipherCheck_accept (w : Word) (s : State) :
    cipherCheck (accept w s) = ((cipherRows s).find? (fun r => r.1)).map Prod.snd := by
  simp only [cipherRows, firstCode_cons, List.find?_nil, Option.map_none, beq_iff_eq, decide_eq_true_eq, ← inRange_eq_false]
  unfold cipherCheck readyCheck
  rw [accept_lc]
  cases s.lc <;> rfl

/-- Settles O37: the validation comes before anything that CIPHER writes. -/
theorem cipherFailsWithFirstRowThatHolds : Obligations.CipherFailsWithFirstRowThatHolds := by
  unfold Obligations.CipherFailsWithFirstRowThatHolds
  intro s c e hc hrow
  have hcheck : cipherCheck (accept (encode .cipher) s) = some e := by rw [cipherCheck_accept, hrow]; rfl
  have hbody : cipherBody (accept (encode .cipher) s) = .failed e (accept (encode .cipher) s) := by rw [cipherBody, hcheck]
  exact command_rejected hc hbody

/-! ## LEN = 0 (R152) -/

/-- A range of no bytes is in range at every address, so no row of R150 holds. -/
theorem cipherRows_zero_bytes {s : State} (hready : s.lc = .ready) (hmode : s.mode ≠ .undefined) (hlen : s.regs.len = 0) :
    (cipherRows s).find? (fun r => r.1) = none := by
  have haddr (a : Word) : a.toNat ≤ 4294967296 := Nat.le_of_lt a.isLt
  simp [cipherRows, hready, hmode, hlen, haddr]

/-- A CIPHER of no bytes is its mode dispatch. -/
theorem exec_cipher_zero_bytes {s : State} (hc : s.calm) (hready : s.lc = .ready) (hmode : s.mode ≠ .undefined)
    (hlen : s.regs.len = 0) : exec .cipher s = .next (complete .none (cipherEntry s)) := by
  have hcheck : cipherCheck (accept (encode .cipher) s) = none := by
    rw [cipherCheck_accept, cipherRows_zero_bytes hready hmode hlen]; rfl
  have hnone : opLen (accept (encode .cipher) s) = 0 := congrArg BitVec.toNat hlen
  have hbody : cipherBody (accept (encode .cipher) s) = .done (cipherEntry s) := by rw [cipherBody, hcheck, hnone]; rfl
  exact command_of_done hc hbody (cipherEntry_calm hc)

theorem cipherEntry_autoReset {s : State} (h : s.mode = .autoReset) :
    cipherEntry s = resetCore (accept (encode .cipher) s) := if_pos h

theorem cipherEntry_continuous {s : State} (h : s.mode = .continuous) : cipherEntry s = accept (encode .cipher) s :=
  if_neg (by rw [accept_mode, h]; decide)

/-- Settles O40: what the mode dispatch does is all that the CIPHER does. -/
theorem cipherOfZeroBytes : Obligations.CipherOfZeroBytes := by
  unfold Obligations.CipherOfZeroBytes
  intro s hc hready hlen
  refine ⟨fun hmode => ?_, fun hmode => ?_⟩
  · rw [exec_cipher_zero_bytes hc hready (by rw [hmode]; decide) hlen, cipherEntry_autoReset hmode]; rfl
  · rw [exec_cipher_zero_bytes hc hready (by rw [hmode]; decide) hlen, cipherEntry_continuous hmode]; rfl

/-! ## Every step goes on -/

/-- Settles O56: from the invariant a step answers a next state, which O54 shows to meet the invariant again. -/
theorem everyStepFromInvariantGoesOn : Obligations.EveryStepFromInvariantGoesOn := by
  unfold Obligations.EveryStepFromInvariantGoesOn
  intro s h
  obtain ⟨t, hstep, -⟩ := step_goesOnInv h
  exact ⟨t, hstep⟩

end Sys2Proof.Machine
end

section
/-! PROOFS. The family of 42_keystream.md: one byte step (R142, R160), and the walk of the indices from a reset point with the
keystream of one key byte and one table (R147, R161). -/

namespace Sys2Proof.Machine

/-! ## One byte step (R142, R160) -/

/-- `byte(ki + 11 + si)` is the sum modulo 256 (R146, R160). -/
theorem toNat_keyMask (s : State) : (keyMask s).toNat = ((wrapKi s + 11 + wrapSi s) % 256).toNat := BitVec.toNat_ofInt _

theorem keyMask_eq_mod (s : State) : keyMask s = BitVec.ofInt 8 ((wrapKi s + 11 + wrapSi s) % 256) := by
  refine BitVec.eq_of_toNat_eq ?_
  rw [toNat_keyMask, BitVec.toNat_ofInt, show ((2 ^ 8 : Nat) : Int) = 256 from rfl, Int.emod_emod_of_dvd _ (dvd_refl _)]

/-- Settles O35: the ranges of the wrapped indices, and those that the step leaves, one key index lower and one schedule index
higher. -/
theorem byteStepIndicesStayInRange : Obligations.ByteStepIndicesStayInRange := by
  unfold Obligations.ByteStepIndicesStayInRange
  intro s k hk
  obtain ⟨hki, hkiMax⟩ := wrapKi_range hk
  have hsi : wrapSi s + 1 ≤ s.tcnt := by have := wrapSi_range hk; have := hk.tcnt_pos; omega
  have hafter := commitStep_keyInv k hk
  exact ⟨hki, hkiMax, hsi, rfl, tableIndex_lt hk, by omega, by omega, toNat_keyMask s, hafter.ki_ge, hafter.ki_le, hafter.si_le⟩

/-- Settles O33: with the indices in range a byte step goes as far as its accesses do, and commits after both. -/
theorem byteStepFollowsItsSteps : Obligations.ByteStepFollowsItsSteps := by
  unfold Obligations.ByteStepFollowsItsSteps
  intro s k ki si ks b hc hk hki hsi hks hb
  obtain rfl : ki = wrapKi s := hki
  obtain rfl : si = wrapSi s := hsi
  obtain rfl : ks = keystreamByte s := hks
  have hinside := indicesInside_of hk
  refine ⟨fun hr hw => ?done, fun f hr => byteStep_read_fail hc hinside hr, fun f hr hw => ?writeFails⟩
  case done =>
    rw [byteStep_ok hc hinside hr hw, hb, ← keyMask_eq_mod]
    rfl
  case writeFails =>
    exact ⟨_, byteStep_write_fail hc hinside hr hw, rfl, fun a ha => Memory.read_failedWrite_other f s.mem ha.symm⟩

/-! ## The walk of the indices (R147) -/

/-- A remainder goes up by one, and wraps to 0 after its last value. -/
theorem mod_succ_cases {c : Nat} (hc : 1 ≤ c) (n : Nat) :
    n % c + 1 = c ∧ (n + 1) % c = 0 ∨ n % c + 1 < c ∧ (n + 1) % c = n % c + 1 := by
  have hstep : (n % c + 1) % c = (n + 1) % c := Nat.mod_add_mod n c 1
  obtain hlast | hbefore := Nat.eq_or_lt_of_le (Nat.mod_lt n hc)
  · exact .inl ⟨hlast, by rw [← hstep, show n % c + 1 = c from hlast, Nat.mod_self]⟩
  · exact .inr ⟨hbefore, by rw [← hstep, Nat.mod_eq_of_lt hbefore]⟩

/-- The key index of byte step `n` from a reset point. -/
theorem wrapKi_keyAfter {s : State} (hklen : 1 ≤ s.klen) (hki : s.ki = (s.klen : Int) - 1) (n : Nat) :
    wrapKi (keyAfter n s) = (s.klen : Int) - 1 - ((n % s.klen : Nat) : Int) := by
  induction n with
  | zero => rw [keyAfter, wrapKi, hki, Nat.zero_mod]; split <;> omega
  | succ n ih =>
    have hlen := (keyAfter_installed n s).1
    rw [keyAfter, wrapKi, commitStep_ki, commitStep_klen, hlen, ih]
    obtain ⟨hlast, hnext⟩ | ⟨hbefore, hnext⟩ := mod_succ_cases hklen n
    · rw [if_pos (by omega), hnext]; omega
    · rw [if_neg (by omega), hnext]; omega

/-- The schedule index of byte step `n` from a reset point. -/
theorem wrapSi_keyAfter {s : State} (htcnt : 1 ≤ s.tcnt) (hsi : s.si = 0) (n : Nat) :
    wrapSi (keyAfter n s) = n % s.tcnt := by
  induction n with
  | zero => rw [keyAfter, wrapSi, hsi, Nat.zero_mod]; split <;> rfl
  | succ n ih =>
    have hcount := (keyAfter_installed n s).2.1
    rw [keyAfter, wrapSi, commitStep_si, commitStep_tcnt, hcount, ih]
    obtain ⟨hlast, hnext⟩ | ⟨hbefore, hnext⟩ := mod_succ_cases htcnt n
    · rw [if_pos hlast, hnext]
    · rw [if_neg (by omega), hnext]

/-- After a whole number of walks through the key, and only then, KI rests at -1 (R161 d). -/
theorem ki_rests_iff {s : State} (hklen : 1 ≤ s.klen) (hki : s.ki = (s.klen : Int) - 1) (n : Nat) :
    (keyAfter n s).ki = -1 ↔ n % s.klen = 0 ∧ n ≠ 0 := by
  cases n with
  | zero => rw [keyAfter, hki]; omega
  | succ n =>
    rw [keyAfter, commitStep_ki, wrapKi_keyAfter hklen hki]
    obtain ⟨hlast, hnext⟩ | ⟨hbefore, hnext⟩ := mod_succ_cases hklen n <;> omega

/-- After a whole number of walks through the tables, and only then, SI rests at TCNT (R161 e). -/
theorem si_rests_iff {s : State} (htcnt : 1 ≤ s.tcnt) (hsi : s.si = 0) (n : Nat) :
    (keyAfter n s).si = s.tcnt ↔ n % s.tcnt = 0 ∧ n ≠ 0 := by
  cases n with
  | zero => rw [keyAfter, hsi]; omega
  | succ n =>
    rw [keyAfter, commitStep_si, wrapSi_keyAfter htcnt hsi]
    obtain ⟨hlast, hnext⟩ | ⟨hbefore, hnext⟩ := mod_succ_cases htcnt n <;> omega

/-- Settles O34: each index counts byte steps modulo its length. -/
theorem indicesWalkFromResetPoint : Obligations.IndicesWalkFromResetPoint := by
  unfold Obligations.IndicesWalkFromResetPoint
  intro s n hklen htcnt hki hsi
  exact ⟨wrapKi_keyAfter hklen hki n, wrapSi_keyAfter htcnt hsi n, ki_rests_iff hklen hki n, si_rests_iff htcnt hsi n⟩

/-! ## One key byte and one table (R161 b, c) -/

/-- The one key byte of the key state after `n` byte steps: each step XORs it with `byte(0 + 11 + 0)`. -/
theorem keyByte_keyAfter_single {s : State} {n : Nat} (hki : ∀ n, wrapKi (keyAfter n s) = 0)
    (hsi : ∀ n, wrapSi (keyAfter n s) = 0) : keyByte (keyAfter n s) =
      if n % 2 = 0 then Memory.read s.kb 0 else Memory.read s.kb 0 ^^^ 0x0b := by
  induction n with
  | zero => rw [keyByte, hki]; rfl
  | succ n ih =>
    have hmask : keyMask (keyAfter n s) = 0x0b := by rw [keyMask, hki, hsi]; rfl
    have hstep : keyByte (keyAfter (n + 1) s) = keyByte (keyAfter n s) ^^^ 0x0b := by
      rw [keyByte, hki, keyAfter, commitStep_kb, hki, hmask]
      exact Memory.read_write_same _ _ _
    obtain heven | hodd := Nat.mod_two_eq_zero_or_one n
    · rw [hstep, ih, if_pos heven, if_neg (by omega)]
    · rw [hstep, ih, if_neg (by omega), if_pos (by omega), BitVec.xor_assoc, BitVec.xor_self, BitVec.xor_zero]

/-- Settles O36: both indices stay 0, so the table is read at the one key byte. -/
theorem oneByteKeyAndOneTableGivePeriodTwo : Obligations.OneByteKeyAndOneTableGivePeriodTwo := by
  unfold Obligations.OneByteKeyAndOneTableGivePeriodTwo
  intro s n hklen htcnt hki hsi
  have hwrapKi (n : Nat) : wrapKi (keyAfter n s) = 0 := by
    rw [wrapKi_keyAfter (by omega) (by omega), hklen, Nat.mod_one]; rfl
  have hwrapSi (n : Nat) : wrapSi (keyAfter n s) = 0 := by rw [wrapSi_keyAfter (by omega) hsi, htcnt, Nat.mod_one]
  have hst := (keyAfter_installed n s).2.2.1
  rw [keystreamAt, keystreamByte, tableIndex, hwrapSi, keyByte_keyAfter_single hwrapKi hwrapSi, hst, Nat.zero_mul, Nat.zero_add]

end Sys2Proof.Machine
end

section
/-! PROOFS. The family of 42_keystream.md: the way back in AutoReset mode, and in place in Continuous mode (R149, R155, R156). -/

namespace Sys2Proof.Machine

/-! ## AutoReset mode (R155) -/

/-- In AutoReset mode a CIPHER starts from the installation's own reset point, wherever the key state stood (R149). -/
theorem cipherStart_autoReset_agree {s u : State} (hs : s.mode = .autoReset) (hu : u.mode = .autoReset) (hokb : u.okb = s.okb)
    (hklen : u.klen = s.klen) (hst : u.st = s.st) (htcnt : u.tcnt = s.tcnt) : KeyAgree (cipherStart s) (cipherStart u) := by
  have hstart {v : State} (hv : v.mode = .autoReset) : cipherStart v = { resetCore v with progress := 0 } := by
    rw [cipherStart, modeDispatch, if_pos hv]
  rw [hstart hs, hstart hu]
  refine ⟨hklen, htcnt, hst, congrArg (fun n : Nat => (n : Int) - 1) hklen, rfl, fun j hj => ?_⟩
  have hlive : j < s.klen := hj
  simp only [resetCore_kb, Memory.read_copyFirst, hklen, if_pos hlive, hokb]

theorem cipherStart_keyInv {s : State} (h : s.KeyInv) : (cipherStart s).KeyInv := { modeDispatch_keyInv h with }

/-- Settles O42: the second CIPHER takes the first one's keystream, and a byte XORed twice with it is the byte again. -/
theorem autoResetRoundTrip : Obligations.AutoResetRoundTrip := by
  unfold Obligations.AutoResetRoundTrip
  intro s src dst back n hc hready hmode hk hr hw hsource htarget hback hplain hplainBack
  have hdefined {v : State} (hv : v.mode = .autoReset) : v.mode ≠ .undefined := by rw [hv]; decide
  obtain ⟨mem, dma, hexec, hout⟩ := exec_cipher_plain (s := s.setCipher src dst n)
    ⟨hc, hready, hdefined hmode, { hk with }, hsource, htarget⟩ hr hw hplain
  refine ⟨_, hexec, rfl, fun u huc hu humode hur huw hcfg hokb hklen hst htcnt huk hstands => ?_⟩
  obtain ⟨mem', dma', hexec', hout'⟩ := exec_cipher_plain (s := u.setCipher dst back n)
    ⟨huc, hu, hdefined humode, { huk with }, htarget, hback⟩ hur huw hplainBack
  refine ⟨_, hexec', rfl, fun k hlt => ?_⟩
  have hagree : KeyAgree (cipherStart (s.setCipher src dst n)) (cipherStart (u.setCipher dst back n)) :=
    cipherStart_autoReset_agree hmode humode hokb hklen hst htcnt
  have hkeystream := hagree.keystreamAt (cipherStart_keyInv (s := s.setCipher src dst n) { hk with }) k
  calc Memory.read mem' (back.toNat + k)
      = Memory.read u.mem (dst.toNat + k) ^^^ keystreamAt k (cipherStart (u.setCipher dst back n)) := hout' k hlt
    _ = Memory.read s.mem (src.toNat + k) ^^^ keystreamAt k (cipherStart (s.setCipher src dst n)) ^^^
          keystreamAt k (cipherStart (s.setCipher src dst n)) := by
        rw [hstands k hlt, hkeystream]; exact congrArg (· ^^^ _) (hout k hlt)
    _ = Memory.read s.mem (src.toNat + k) := by rw [BitVec.xor_assoc, BitVec.xor_self, BitVec.xor_zero]

/-! ## In place in Continuous mode (R156) -/

/-- What an in-place CIPHER of the range `(base, n)` from the key state of `s` XORs the byte at address `x` with. -/
def rangeMask (base n : Nat) (s : State) (x : Nat) : Byte :=
  if base ≤ x ∧ x < base + n then keystreamAt (x - base) s else 0

/-- What in-place CIPHERs of the ranges of a list XOR the byte at address `x` with, the key state running on. -/
def rangesMask : List (Word × Word) → State → Nat → Byte
  | [], _, _ => 0
  | (a, n) :: rest, s, x => rangeMask a.toNat n.toNat s x ^^^ rangesMask rest (keyAfter n.toNat s) x

theorem KeyAgree.rangesMask (l : List (Word × Word)) (x : Nat) : ∀ {s t : State}, KeyAgree s t → s.KeyInv →
    rangesMask l t x = rangesMask l s x := by
  induction l with
  | nil => exact fun _ _ => rfl
  | cons r l ih =>
    intro s t h hk
    rw [Sys2Proof.Machine.rangesMask, Sys2Proof.Machine.rangesMask, ih (h.keyAfter hk _) (keyAfter_keyInv hk _), rangeMask,
      rangeMask, h.keystreamAt hk]

/-- The CIPHER of a range in place. -/
def inPlace (r : Word × Word) (t : State) : CipherJob := { src := r.1, dst := r.1, len := r.2, mem := t.mem }

/-- The range is in range and no access to it fails (R65, R76). -/
def RangeFits (r : Word × Word) (s : State) : Prop :=
  r.1.toNat + r.2.toNat ≤ 2 ^ 32 ∧ readsSucceed r.1.toNat r.2.toNat s ∧ writesSucceed r.1.toNat r.2.toNat s

theorem inPlace_fits {r : Word × Word} {s : State} (h : RangeFits r s) (t : State) : (inPlace r t).Fits s := by
  obtain ⟨hrange, hr, hw⟩ := h
  exact ⟨hrange, hrange, .inl (Nat.le_refl _), hr, hw⟩

/-- A CIPHER of a stream leaves every byte outside its target (R61). -/
theorem exec_cipher_place_outside {s t u : State} {j : CipherJob} (h : SameStream s t) (hf : j.Fits s)
    (hu : exec .cipher (j.place t) = .next u) {x : Nat} (hx : x < j.dst.toNat ∨ j.dst.toNat + j.len.toNat ≤ x) :
    Memory.read u.mem x = Memory.read j.mem x := by
  have hpasses := CipherJob.passes h hf
  obtain ⟨-, -, -, hr, hw⟩ := hf
  have hfaults : (j.place t).faults = s.faults := h.faults
  rw [exec_cipher_ok hpasses (fun k hk => (readFault_congr hfaults).trans (hr k hk))
    (fun k hk => (writeFault_congr hfaults).trans (hw k hk))] at hu
  cases hu
  exact (read_stepsFrom_cipherEntry j.len.toNat (j.place t)).2 x hx

/-- One in-place CIPHER of a stream. -/
theorem exec_cipher_inPlace {s t : State} {r : Word × Word} (h : SameStream s t) (hf : RangeFits r s) :
    ∃ u, exec .cipher (t.setCipher r.1 r.1 r.2) = .next u ∧ u.err = .none ∧ SameStream s u ∧
      KeyAgree (keyAfter r.2.toNat t) u ∧
      ∀ x, Memory.read u.mem x = Memory.read t.mem x ^^^ rangeMask r.1.toNat r.2.toNat t x := by
  obtain ⟨u, hexec, herr, hbytes, hu, hagree⟩ := exec_cipher_place h (inPlace_fits hf t)
  refine ⟨u, hexec, herr, hu, hagree, fun x => ?_⟩
  unfold rangeMask
  split
  case isTrue hin =>
    obtain ⟨k, rfl⟩ := Nat.exists_eq_add_of_le hin.1
    have hlt : k < r.2.toNat := by omega
    have hbyte := congrArg (fun l => l.getD k 0) hbytes
    rw [Nat.add_sub_cancel_left]
    simpa [inPlace, Memory.bytes, encipher, CipherJob.input, hlt] using hbyte
  case isFalse hout =>
    have hkept := exec_cipher_place_outside h (inPlace_fits hf t) hexec (x := x) (by simp only [inPlace]; omega)
    exact hkept.trans BitVec.xor_zero.symm

/-- The in-place CIPHERs of a stream all succeed, and each byte of host memory is XORed with the masks of the ranges it is in. -/
theorem cipherEach_run {s : State} (l : List (Word × Word)) : ∀ {t : State}, SameStream s t → (∀ r ∈ l, RangeFits r s) →
    ∃ u, cipherEach l t = some u ∧ SameStream s u ∧
      ∀ x, Memory.read u.mem x = Memory.read t.mem x ^^^ rangesMask l t x := by
  induction l with
  | nil => exact fun h _ => ⟨_, rfl, h, fun _ => (BitVec.xor_zero).symm⟩
  | cons r l ih =>
    intro t h hfits
    obtain ⟨hfit, hrest⟩ := List.forall_mem_cons.1 hfits
    obtain ⟨u, hexec, herr, hu, hagree, hmem⟩ := exec_cipher_inPlace h hfit
    obtain ⟨v, heach, hv, hmem'⟩ := ih hu hrest
    refine ⟨v, ?_, hv, fun x => ?_⟩
    · rw [cipherEach, hexec]
      simp only [herr, if_true, heach]
    · rw [hmem', hmem, hagree.rangesMask l x (keyAfter_keyInv h.keys _), BitVec.xor_assoc]
      rfl

/-- Settles O43: from the reset point again, the way back XORs each byte with the mask of the way out. -/
theorem continuousRoundTrip : Obligations.ContinuousRoundTrip := by
  unfold Obligations.ContinuousRoundTrip
  intro s l hc hready hmode hk hs hl
  obtain ⟨t, hout, ht, hmemOut⟩ := cipherEach_run l ⟨hc, hready, hmode, hk, rfl, rfl, rfl, rfl, rfl, rfl⟩ hl
  obtain ⟨u, hreset, hu, hagree⟩ := exec_resetStream_stream hs hk ht
  obtain ⟨v, hback, -, hmemBack⟩ := cipherEach_run l hu hl
  refine ⟨t, u, v, hout, hreset, hback, fun x => ?_⟩
  have hkept : u.mem = t.mem := (exec_silent (.inl rfl) ht.calm hreset).1
  rw [hmemBack, hkept, hmemOut, hagree.rangesMask l x hk, BitVec.xor_assoc, BitVec.xor_self, BitVec.xor_zero]

end Sys2Proof.Machine
end

section
/-! PROOFS. The family of 42_keystream.md: one CIPHER in Continuous mode and the same bytes in two (R157). -/

namespace Sys2Proof.Machine

/-! ## Byte steps that do the same work -/

/-- Byte steps from `x` and from `y` read the same host memory and use the same key state. -/
structure SameWork (x y : State) : Prop where
  mem : y.mem = x.mem
  kb : y.kb = x.kb
  ki : y.ki = x.ki
  si : y.si = x.si
  klen : y.klen = x.klen
  st : y.st = x.st
  tcnt : y.tcnt = x.tcnt

theorem SameWork.trans {x y z : State} (h : SameWork x y) (h' : SameWork y z) : SameWork x z :=
  ⟨h'.mem.trans h.mem, h'.kb.trans h.kb, h'.ki.trans h.ki, h'.si.trans h.si, h'.klen.trans h.klen, h'.st.trans h.st,
    h'.tcnt.trans h.tcnt⟩

theorem SameWork.symm {x y : State} (h : SameWork x y) : SameWork y x :=
  ⟨h.mem.symm, h.kb.symm, h.ki.symm, h.si.symm, h.klen.symm, h.st.symm, h.tcnt.symm⟩

/-- Byte step `j` of the one and byte step `k` of the other, at the same source and target byte. -/
theorem SameWork.stepped {x y : State} (h : SameWork x y) {j k : Nat} (hsrc : opSrcAddr y + k = opSrcAddr x + j)
    (hdst : opDstAddr y + k = opDstAddr x + j) : SameWork (stepped j x) (stepped k y) := by
  constructor <;> simp only [Sys2Proof.Machine.stepped, commitStep, keyByte, keyMask, keystreamByte, tableIndex, wrapKi, wrapSi,
    hsrc, hdst, h.mem, h.kb, h.ki, h.si, h.klen, h.st, h.tcnt]

/-- The byte steps `m, …, m + n - 1` of the one and the byte steps `0, …, n - 1` of the other, over the same bytes. -/
theorem SameWork.stepsFrom {x y : State} {m : Nat} (h : SameWork (stepsFrom m x) y) (n : Nat)
    (hsrc : ∀ k, k < n → opSrcAddr y + k = opSrcAddr x + (m + k))
    (hdst : ∀ k, k < n → opDstAddr y + k = opDstAddr x + (m + k)) : SameWork (stepsFrom (m + n) x) (stepsFrom n y) := by
  induction n with
  | zero => exact h
  | succ n ih =>
    have hbefore := ih (fun k hk => hsrc k (Nat.lt_succ_of_lt hk)) (fun k hk => hdst k (Nat.lt_succ_of_lt hk))
    obtain ⟨hsrcx, hdstx, -⟩ := stepsFrom_ops (m + n) x
    obtain ⟨hsrcy, hdsty, -⟩ := stepsFrom_ops n y
    refine hbefore.stepped ?_ ?_
    · rw [hsrcx, hsrcy]; exact hsrc n (Nat.lt_succ_self n)
    · rw [hdstx, hdsty]; exact hdst n (Nat.lt_succ_self n)

/-! ## Two CIPHERs for one (R157) -/

/-- The second chunk's addresses go on where the first chunk's end. -/
theorem add_chunk_addr {base a b : Word} (h : base.toNat + (a.toNat + b.toNat) ≤ 2 ^ 32) {k : Nat} (hk : k < b.toNat) :
    (base + a).toNat + k = base.toNat + (a.toNat + k) := by
  rw [BitVec.toNat_add_of_lt (by omega), Nat.add_assoc]

/-- The second chunk is in range, even where it is empty and its address wraps to 0. -/
theorem add_chunk_range {base a b : Word} (h : base.toNat + (a.toNat + b.toNat) ≤ 2 ^ 32) :
    (base + a).toNat + b.toNat ≤ 2 ^ 32 := by
  rw [BitVec.toNat_add]
  have := Nat.mod_le (base.toNat + a.toNat) (2 ^ 32)
  omega

/-- The state after a CIPHER of `len` bytes from `src` to `dst` in which no access failed. -/
def cipherResult (s : State) (src dst len : Word) : State :=
  complete .none (stepsFrom len.toNat (cipherEntry (s.setCipher src dst len)))

/-- A CIPHER of a stream, whatever the overlap of its ranges, runs all its byte steps. -/
theorem exec_cipher_stream {s t : State} {src dst len : Word} (h : SameStream s t) (hsource : src.toNat + len.toNat ≤ 2 ^ 32)
    (htarget : dst.toNat + len.toNat ≤ 2 ^ 32) (hr : readsSucceed src.toNat len.toNat s)
    (hw : writesSucceed dst.toNat len.toNat s) :
    exec .cipher (t.setCipher src dst len) = .next (cipherResult t src dst len) := by
  have hmode : t.mode ≠ .undefined := by rw [h.mode]; decide
  exact exec_cipher_ok (s := t.setCipher src dst len) ⟨h.calm, h.ready, hmode, { h.keys with }, hsource, htarget⟩
    (fun k hk => (readFault_congr h.faults).trans (hr k hk)) (fun k hk => (writeFault_congr h.faults).trans (hw k hk))

/-- The stream goes on after a CIPHER. -/
theorem cipherResult_sameStream {s t : State} (h : SameStream s t) (src dst len : Word) :
    SameStream s (cipherResult t src dst len) := by
  have hcalm := (stepsFrom_calm len.toNat).2 (cipherEntry_calm (s := t.setCipher src dst len) h.calm)
  have hkeys := stepsFrom_keyInv (cipherEntry_keyInv (s := t.setCipher src dst len) { h.keys with }) len.toNat
  refine ⟨hcalm, ?_, ?_, { hkeys with }, ?_, ?_, ?_, ?_, ?_, ?_⟩ <;> rw [cipherResult, stepsFrom_cipherEntry]
  · exact h.ready
  · exact h.mode
  · exact h.cfg
  · exact h.okb
  · exact h.klen
  · exact h.tcnt
  · exact h.st
  · exact h.faults

/-- A Continuous CIPHER starts from memory and key state as they stand (R149). -/
theorem cipherEntry_sameWork {t : State} (h : t.mode = .continuous) (src dst len : Word) :
    SameWork t (cipherEntry (t.setCipher src dst len)) := by
  rw [cipherEntry_continuous (s := t.setCipher src dst len) h]
  exact ⟨rfl, rfl, rfl, rfl, rfl, rfl, rfl⟩

/-- With another length the byte steps are the same. -/
theorem stepsFrom_sameWork_of_len {t : State} (h : t.mode = .continuous) (src dst len len' : Word) (n : Nat) :
    SameWork (stepsFrom n (cipherEntry (t.setCipher src dst len))) (stepsFrom n (cipherEntry (t.setCipher src dst len'))) := by
  have hstart : SameWork (stepsFrom 0 (cipherEntry (t.setCipher src dst len))) (cipherEntry (t.setCipher src dst len')) :=
    (cipherEntry_sameWork h src dst len).symm.trans (cipherEntry_sameWork h src dst len')
  obtain ⟨hsrc, hdst, -⟩ := cipherEntry_fields (t.setCipher src dst len)
  obtain ⟨hsrc', hdst', -⟩ := cipherEntry_fields (t.setCipher src dst len')
  have hsteps := hstart.stepsFrom n (fun k _ => by rw [hsrc, hsrc', Nat.zero_add]; rfl)
    (fun k _ => by rw [hdst, hdst', Nat.zero_add]; rfl)
  rwa [Nat.zero_add] at hsteps

/-- The two chunks leave the memory and the key state of the whole. -/
theorem cipherResult_chunks {s : State} {src dst a b : Word} (hs : SameStream s s)
    (hsource : src.toNat + (a.toNat + b.toNat) ≤ 2 ^ 32) (htarget : dst.toNat + (a.toNat + b.toNat) ≤ 2 ^ 32)
    (hlen : (a + b).toNat = a.toNat + b.toNat) : SameWork (cipherResult s src dst (a + b))
      (cipherResult (cipherResult s src dst a) (src + a) (dst + a) b) := by
  have hmode : (cipherResult s src dst a).mode = .continuous := (cipherResult_sameStream hs src dst a).mode
  have hfirst : SameWork (stepsFrom a.toNat (cipherEntry (s.setCipher src dst (a + b)))) (cipherResult s src dst a) :=
    { stepsFrom_sameWork_of_len hs.mode src dst (a + b) a a.toNat with }
  have hsecond := hfirst.trans (cipherEntry_sameWork hmode (src + a) (dst + a) b)
  obtain ⟨hsrc, hdst, -⟩ := cipherEntry_fields (s.setCipher src dst (a + b))
  obtain ⟨hsrc', hdst', -⟩ := cipherEntry_fields ((cipherResult s src dst a).setCipher (src + a) (dst + a) b)
  have hwhole := hsecond.stepsFrom b.toNat (fun k hk => by rw [hsrc, hsrc']; exact add_chunk_addr hsource hk)
    (fun k hk => by rw [hdst, hdst']; exact add_chunk_addr htarget hk)
  rw [← hlen] at hwhole
  exact { hwhole with }

/-- Settles O44: the first chunk does the first `a` byte steps of the whole, and the second chunk does the rest. -/
theorem continuousChunking : Obligations.ContinuousChunking := by
  unfold Obligations.ContinuousChunking
  intro s src dst a b hc hready hmode hk hr hw hsource htarget hsum
  have hlen : (a + b).toNat = a.toNat + b.toNat := BitVec.toNat_add_of_lt hsum
  have hs : SameStream s s := ⟨hc, hready, hmode, hk, rfl, rfl, rfl, rfl, rfl, rfl⟩
  have hwhole := exec_cipher_stream (len := a + b) hs (hlen ▸ hsource) (hlen ▸ htarget) (hlen ▸ hr) (hlen ▸ hw)
  have hfirst := exec_cipher_stream (len := a) hs (by omega) (by omega) (fun k hk => hr k (by omega))
    (fun k hk => hw k (by omega))
  have hsecond := exec_cipher_stream (len := b) (cipherResult_sameStream hs src dst a) (add_chunk_range hsource)
    (add_chunk_range htarget) (fun k hk => add_chunk_addr hsource hk ▸ hr (a.toNat + k) (by omega))
    (fun k hk => add_chunk_addr htarget hk ▸ hw (a.toNat + k) (by omega))
  have hsame := cipherResult_chunks hs hsource htarget hlen
  exact ⟨_, _, _, hwhole, hfirst, hsecond, rfl, rfl, rfl, fun x => congrArg (Memory.read · x) hsame.mem, hsame.kb, hsame.ki,
    hsame.si⟩

end Sys2Proof.Machine
end

section
/-! PROOFS. The family of 43_erasure.md: the lifecycle's rejections and its sink (R170, R177), DESTROY and its repeat
(R171 to R178), and the post-reset erase action by action (R179, R231). -/

namespace Sys2Proof.Machine

/-! ## Commands in a wrong lifecycle state (R170, R203 to R205) -/

/-- Where LC is not READY, it alone gives the code of RESET_STREAM, CIPHER and a SET_MODE that a word can spell (R213). -/
theorem exec_stream_rejected {i : Instr} (hi : i = .resetStream ∨ i = .cipher ∨ ∃ m, m ≠ 3 ∧ i = .setMode m) {s : State}
    {e : ErrCode} (hc : s.calm) (he : readyCheck s = some e) : exec i s = .next (s.rejected (encode i) e) := by
  have hcheck (w : Word) : readyCheck (accept w s) = some e := he
  obtain rfl | rfl | ⟨m, hm, rfl⟩ := hi
  case inl => exact command_rejected hc (by rw [resetStreamBody, hcheck])
  case inr.inl => exact command_rejected hc (by rw [cipherBody, cipherCheck, hcheck])
  case inr.inr =>
    obtain ⟨mode, hmode, -⟩ := ofField_code hm
    exact command_rejected hc (by rw [setModeBody, hmode, hcheck])

/-- Settles O32: the lifecycle is what the three commands check, and the first two rows of INIT's table (O25). -/
theorem lifecycleErrors : Obligations.LifecycleErrors := by
  unfold Obligations.LifecycleErrors
  intro s m d hc hm
  have stream {e : ErrCode} (he : readyCheck s = some e) : exec .resetStream s = .next (s.rejected (encode .resetStream) e) ∧
      exec .cipher s = .next (s.rejected (encode .cipher) e) ∧
      exec (.setMode m) s = .next (s.rejected (encode (.setMode m)) e) :=
    ⟨exec_stream_rejected (.inl rfl) hc he, exec_stream_rejected (.inr (.inl rfl)) hc he,
      exec_stream_rejected (.inr (.inr ⟨m, hm, rfl⟩)) hc he⟩
  refine ⟨fun hlc => ?uninit, fun hlc => ?ready, fun hlc => ⟨?init, ?destroyed⟩⟩
  case uninit => exact stream (by rw [readyCheck, hlc])
  case ready => exact initFailsWithFirstRowThatHolds s m d true _ hc hm (by rw [initRows, hlc]; rfl)
  case init => exact initFailsWithFirstRowThatHolds s m d true _ hc hm (by rw [initRows, hlc]; rfl)
  case destroyed => exact stream (by rw [readyCheck, hlc])

/-! ## DESTROY (R171 to R178) -/

theorem destroyBody_destroyed {s : State} (h : s.lc = .destroyed) : destroyBody s = .done s := if_pos h

/-- The erase comes first, and LC changes only after it (R173). -/
theorem destroyBody_erases {s : State} (hc : s.calm) (h : s.lc ≠ .destroyed) :
    destroyBody s = .done { eraseAll s with lc := .destroyed } := by
  have hcalm : (eraseAll s).calm := hc
  rw [destroyBody, if_neg h, atWindow_of_calm hcalm]

/-- Settles O47: acceptance and completion are all that a repeat consists of. -/
theorem repeatedDestroyIsANoOp : Obligations.RepeatedDestroyIsANoOp := by
  unfold Obligations.RepeatedDestroyIsANoOp
  intro s hc hlc
  exact command_of_done hc (destroyBody_destroyed hlc) hc

/-- Over zeroed buffers the idle test port shows no byte but 0, and without the test port there is none to show (R52, R57). -/
theorem readReg_testData_of_zeros {s : State} (hb : s.busy = false) (hkb : s.kb = Memory.zeros) (hokb : s.okb = Memory.zeros)
    (hst : s.st = Memory.zeros) : readReg 0x48 s = 0 := by
  cases hport : s.cfg.testPort with
  | false => rw [readReg_testPort (.inr (by decide)), (testPort_absent hport 0x48 0).1]
  | true =>
    have hbyte : testByte s = 0 := by simp only [testByte, hkb, hokb, hst, Memory.read_zeros, ite_self]
    obtain ⟨-, -, hdata, -⟩ := readReg_present hport
    rw [hdata, testDataRead_idle hb, hbyte]; rfl

/-- Settles O46: outside DESTROYED the command's rule is the erase followed by `LC <- DESTROYED`. -/
theorem destroyErasesAllKeyMaterial : Obligations.DestroyErasesAllKeyMaterial := by
  unfold Obligations.DestroyErasesAllKeyMaterial
  intro s hc hlc
  have hbody := destroyBody_erases ((accept_calm (encode .destroy)).2 hc) hlc
  exact ⟨_, command_of_done hc hbody hc, fun _ => ⟨rfl, rfl, rfl, rfl⟩, fun _ _ => readReg_testData_of_zeros rfl rfl rfl rfl,
    fun _ => rfl, rfl⟩

/-! ## The way out of DESTROYED (R170, R177) -/

/-- LC = DESTROYED. -/
def Destroyed (s : State) : Prop := s.lc = .destroyed

theorem destroyed_kept : KeptByStream Destroyed where
  window h hr := (engine_lc (window_engine _ hr)).trans h
  stream h _ _ _ _ _ _ _ := h

theorem initBody_destroyed (m : BitVec 2) (d : Bool) {s : State} (h : Released Destroyed s) : (initBody m d s).Keeps Destroyed := by
  have hcheck : initCheck d s = some .disposed := if_pos h.1
  unfold initBody
  rw [hcheck]
  split <;> exact h

/-- A next state, if there is one, is still DESTROYED. -/
def StaysDestroyed (o : Host.Outcome State Fault Refusal) : Prop := ∀ t, o = .next t → Destroyed t

theorem StaysDestroyed.next {s : State} (h : Destroyed s) : StaysDestroyed (.next s) := by
  intro t ht; cases ht; exact h

/-- A command whose rule keeps LC = DESTROYED ends there, completed or stopped by a reset. -/
theorem command_staysDestroyed (w : Word) {body : State → Run} {s : State} (h : Released Destroyed s)
    (hbody : ∀ u, Released Destroyed u → (body u).Keeps Destroyed) : StaysDestroyed (command w body s) := by
  intro t ht
  obtain ⟨e, u, rfl, hu, -⟩ | ⟨hu, -⟩ := command_keeps destroyed_kept (s := s) h hbody ht
  · exact hu
  · exact hu

/-- No command leaves DESTROYED, whatever the other agents do while it runs. -/
theorem exec_staysDestroyed (i : Instr) {s : State} (h : Released Destroyed s) : StaysDestroyed (exec i s) := by
  cases i with
  | init m d => exact command_staysDestroyed _ h (fun _ hu => initBody_destroyed m d hu)
  | resetStream => exact command_staysDestroyed _ h (fun _ hu => resetStreamBody_keeps destroyed_kept hu)
  | cipher => exact command_staysDestroyed _ h (fun _ hu => cipherBody_keeps destroyed_kept hu)
  | destroy => exact command_staysDestroyed _ h (fun u hu => by rw [destroyBody_destroyed hu.1]; exact hu)
  | setMode m => exact command_staysDestroyed _ h (fun _ hu => setModeBody_keeps destroyed_kept m hu)

theorem runWord_staysDestroyed (w : Word) {s : State} (h : Released Destroyed s) : StaysDestroyed (runWord w s) := by
  unfold runWord
  split
  · exact exec_staysDestroyed _ h
  · exact command_staysDestroyed w h (fun _ hu => hu)

theorem present_staysDestroyed (a : RegAccess) {s : State} (h : Destroyed s) : StaysDestroyed (present a s) := by
  cases ha : acceptedWord a s with
  | some w =>
    obtain ⟨hr, -⟩ := acceptedWord_some ha
    rw [present_accepted ha]
    exact runWord_staysDestroyed w ⟨h, hr⟩
  | none =>
    obtain ⟨he, -⟩ := busAccess_keeps a s
    rw [present_other ha]
    exact .next ((engine_lc he).trans h)

theorem presentWaiting_staysDestroyed {s : State} (h : Destroyed s) : StaysDestroyed (presentWaiting s) := by
  unfold presentWaiting
  split
  · exact .next h
  · split
    · exact .next h
    · exact present_staysDestroyed _ h

/-- Neither action of the post-reset sequence writes LC: its release has done that (R231). -/
theorem engineTurn_lc (s : State) : (engineTurn s).lc = s.lc := by
  obtain ⟨-, he⟩ | ⟨-, -, he⟩ | ⟨-, -, he⟩ := engineTurn_cases s <;> rw [he]
  · exact eraseAll_lc s
  · exact finishReset_lc s

theorem engineFinish_lc (s : State) : (engineFinish s).lc = s.lc := by
  obtain ⟨-, he⟩ | ⟨-, he⟩ := engineFinish_cases s <;> rw [he]
  exact finishReset_lc s

/-- Without an asserted reset there is nothing to release. -/
theorem releaseReset_released {s : State} (h : s.inReset = false) : releaseReset s = s := by
  rw [releaseReset, h, if_neg Bool.false_ne_true]

/-- The one event that leaves DESTROYED is the release of an asserted reset. -/
theorem runEvent_staysDestroyed {e : Event} {s : State} (h : Destroyed s) (hne : e = .releaseReset → s.inReset = false) :
    StaysDestroyed (runEvent e s) := by
  cases e with
  | reg a => exact present_staysDestroyed a h
  | resume => exact presentWaiting_staysDestroyed h
  | engine => exact .next ((engineTurn_lc s).trans h)
  | wait => exact .next ((engineFinish_lc s).trans h)
  | load _ => exact .next h
  | store _ _ => exact .next h
  | setFaults _ => exact .next h
  | assertReset => exact .next h
  | releaseReset =>
    refine .next ?_
    rw [hostEvent, releaseReset_released (hne rfl)]
    exact h

theorem runNext_staysDestroyed {s : State} (h : Destroyed s)
    (hne : ∀ rest, s.script = .releaseReset :: rest → s.inReset = false) : StaysDestroyed (runNext s) := by
  cases hs : s.script with
  | nil => unfold runNext; rw [hs]; exact .next ((engineTurn_lc s).trans h)
  | cons e rest =>
    rw [runNext_cons hs]
    exact runEvent_staysDestroyed h (fun he => hne rest (by rw [hs, he]))

/-- Settles O48: any other step, a whole command with what falls into it included, ends in DESTROYED. -/
theorem onlyResetLeavesDestroyed : Obligations.OnlyResetLeavesDestroyed := by
  unfold Obligations.OnlyResetLeavesDestroyed
  intro s t h ht hleft
  by_cases hv : s.cfg.valid = true
  · rw [step_of_valid hv] at ht
    by_contra hno
    refine hleft (runNext_staysDestroyed h (fun rest hs => ?_) t ht)
    exact Bool.eq_false_of_not_eq_true (fun hr => hno ⟨hr, rest, hs⟩)
  · rw [step_of_not_valid hv] at ht
    cases ht

/-! ## The post-reset erase, action by action (R179, R231) -/

/-- Whether anything is left to erase does not hang on the script. -/
theorem eraseAll_withScript_iff (s : State) (l : List Event) :
    eraseAll { s with script := l } = { s with script := l } ↔ eraseAll s = s :=
  ⟨congrArg (fun u : State => { u with script := s.script }), congrArg (fun u : State => { u with script := l })⟩

/-- A mark `engine` in the script is the engine's turn. -/
theorem step_engine {s : State} {rest : List Event} (hv : s.cfg.valid = true) (hs : s.script = .engine :: rest) :
    step s = .next (engineTurn { s with script := rest }) := by
  rw [step_of_valid hv, runNext_cons hs]; rfl

/-- STATUS while the post-reset sequence runs and MODE is cleared: BUSY = 1, OVR as it is, every other field 0 (R40). -/
theorem statusWord_erased {s : State} (hb : s.busy = true) (hmode : s.mode = .undefined) (hlc : s.lc = .uninit)
    (he : s.err = .none) : statusWord s = if s.ovr then 3 else 1 := by
  rw [statusWord, hb, hmode, hlc, he]
  cases s.ovr <;> rfl

/-- Settles O58: the engine's turn is the erase or the fall of BUSY, by whether the erase would change anything. -/
theorem eraseComesBeforeBusyFalls : Obligations.EraseComesBeforeBusyFalls := by
  unfold Obligations.EraseComesBeforeBusyFalls
  intro s rest hv hr hb hs
  have hpending : erasePending { s with script := rest } = true := (erasePending_iff _).2 ⟨hb, hr⟩
  have hdone : erased { s with script := rest } = true ↔ eraseAll s = s := (erased_iff _).trans (eraseAll_withScript_iff s rest)
  refine ⟨fun hleft => ?erase, fun hnone => ?fall, rfl, hb, rfl, fun hlc he => statusWord_erased hb rfl hlc he⟩
  case erase => rw [step_engine hv hs, engineTurn, if_pos hpending, if_neg (mt hdone.1 hleft)]; rfl
  case fall => rw [step_engine hv hs, engineTurn, if_pos hpending, if_pos (hdone.2 hnone)]

end Sys2Proof.Machine
end

section
/-! PROOFS. The family of 60_exceptions.md: a CMD word that spells no command completes with ILLEGAL_COMMAND (R208). -/

namespace Sys2Proof.Machine

/-- R208's clauses on the fields of a CMD word (R80): a reserved OP, a reserved bit, MODE = 3 in INIT or SET_MODE, MODE or DEFSEED
nonzero where it must be 0. -/
def IllegalWord (w : Word) : Prop :=
  opField w = 0 ∨ 6 ≤ (opField w).toNat ∨ reservedField w ≠ 0 ∨
  ((opField w = 1 ∨ opField w = 5) ∧ modeField w = 3) ∨
  ((opField w = 2 ∨ opField w = 3 ∨ opField w = 4) ∧ modeField w ≠ 0) ∨
  (opField w ≠ 1 ∧ defseedField w = true)

/-- No clause of R208 holds of a well-formed command's word: its fields are those the command was encoded from. -/
theorem not_illegalWord_encode {i : Instr} (h : i.wellFormed = true) : ¬ IllegalWord (encode i) := by
  unfold IllegalWord
  cases i with
  | init m d => simp [encode, wellFormed_init.1 h]
  | resetStream => simp [encode]
  | cipher => simp [encode]
  | destroy => simp [encode]
  | setMode m => simp [encode, wellFormed_setMode.1 h]

/-- An illegal word does not decode, since what decodes is a well-formed command's word (R87). -/
theorem decode_of_illegalWord {w : Word} (h : IllegalWord w) : ∃ r, decode w = .error r := by
  cases hd : decode w with
  | error r => exact ⟨r, rfl⟩
  | ok i =>
    obtain ⟨hwf, rfl⟩ := wellFormed_encode_of_decode hd
    exact absurd h (not_illegalWord_encode hwf)

theorem runWord_of_reject {w : Word} {r : DecodeReject} (h : decode w = .error r) (s : State) :
    runWord w s = execIllegal w s := by
  unfold runWord; rw [h]

/-- ILLEGAL_COMMAND comes before every check of the lifecycle state and changes nothing else (R208, R214). -/
theorem execIllegal_rejected (w : Word) {s : State} (hs : s.calm) :
    execIllegal w s = .next (s.rejected w .illegalCommand) :=
  command_rejected hs rfl

/-- Settles O5: the write is accepted, its word does not decode, and the command is rejected. -/
theorem illegalWordsFailInEveryState : Obligations.IllegalWordsFailInEveryState := by
  unfold Obligations.IllegalWordsFailInEveryState
  refine ⟨rfl, fun s w rest hv hb hs hcalm hillegal => ?_⟩
  have haccepted := acceptedWord_cmd (s := { s with script := rest }) (w := w) hcalm.2 hb
  have hanswered : (answer .written { s with script := rest }).calm := hcalm
  obtain ⟨r, hreject⟩ := decode_of_illegalWord hillegal
  rw [step_reg hv hs, present_accepted haccepted, runWord_of_reject hreject, execIllegal_rejected w hanswered]
  rfl

end Sys2Proof.Machine
end

section
/-! PROOFS. The family of 70_reset_and_hazards.md: a reset before a command's first action (R230, R243), and the post-reset sequence
that its release runs (R231, R232). -/

namespace Sys2Proof.Machine

/-! ## Reset before a command's first action (R230, R243) -/

/-- A window that opens with a reset ends there. -/
theorem window_assertReset {s : State} {rest : List Event} (hs : s.script = .assertReset :: rest) :
    window s = assertReset { s with script := rest } := by
  unfold window; rw [hs, serve]

/-- Where reset falls into a window, what the engine would do next is not done. -/
theorem atWindow_assertReset {s : State} {rest : List Event} (hs : s.script = .assertReset :: rest) (k : State → Run) :
    atWindow s k = .abandoned (assertReset { s with script := rest }) := by
  unfold atWindow; rw [window_assertReset hs, assertReset_inReset, if_pos rfl]

/-- A command that meets reset in its first window has been accepted, and its rule does not run. -/
theorem command_assertReset {s : State} {rest : List Event} (w : Word) (body : State → Run)
    (hs : s.script = .assertReset :: rest) :
    command w body s = .next (assertReset { accept w s with script := rest }) := by
  have hwindow := atWindow_assertReset (s := accept w s) hs body
  rw [command, hwindow]; rfl

/-- Settles O21: every command is a rule behind its first window, and the reset falls into that window. -/
theorem resetStopsCommandAtOnce : Obligations.ResetStopsCommandAtOnce := by
  unfold Obligations.ResetStopsCommandAtOnce
  intro i s rest _ hs
  cases i with
  | init m d => exact command_assertReset _ _ hs
  | resetStream => exact command_assertReset _ _ hs
  | cipher => exact command_assertReset _ _ hs
  | destroy => exact command_assertReset _ _ hs
  | setMode m => exact command_assertReset _ _ hs

/-! ## The post-reset sequence (R231) -/

/-- The release of an asserted reset gives every register its reset value and raises BUSY; the erase is still to come (R231). -/
theorem releaseReset_asserted {s : State} (h : s.inReset = true) :
    releaseReset s =
      { s with inReset := false, regs := ParamRegs.reset s.cfg, testSel := 0, testIdx := 0, err := .none, ovr := false,
               progress := 0, lc := .uninit, busy := true, latch := Latch.reset } := if_pos h

theorem step_releaseReset {s : State} {rest : List Event} (hv : s.cfg.valid = true) (hs : s.script = .releaseReset :: rest) :
    step s = .next (releaseReset { s with script := rest }) := by
  rw [step_of_valid hv, runNext_cons hs]; rfl

/-- A host's WAIT runs the engine until BUSY = 0 (R89). -/
theorem step_wait {s : State} {rest : List Event} (hv : s.cfg.valid = true) (hs : s.script = .wait :: rest) :
    step s = .next (engineFinish { s with script := rest }) := by
  rw [step_of_valid hv, runNext_cons hs]; rfl

/-- With the post-reset sequence under way a WAIT runs the rest of it: the erase and the fall of BUSY (R231). -/
theorem step_wait_erasePending {s : State} {rest : List Event} (hv : s.cfg.valid = true) (hs : s.script = .wait :: rest)
    (hp : erasePending s = true) : step s = .next (finishReset { s with script := rest }) := by
  rw [step_wait hv hs]
  exact congrArg _ (if_pos hp)

/-- Every byte of the block's storages is 0 once the post-reset sequence is over. -/
theorem read_finishReset (s : State) (j : Nat) :
    Memory.read (finishReset s).kb j = 0 ∧ Memory.read (finishReset s).okb j = 0 ∧
    Memory.read (finishReset s).st j = 0 ∧ Memory.read (finishReset s).seedbuf j = 0 :=
  ⟨Memory.read_nil j, Memory.read_nil j, Memory.read_nil j, Memory.read_nil j⟩

/-- Settles O23: the release writes the registers and raises BUSY, the WAIT erases and lets BUSY fall; together they write every
piece of the block's state. -/
theorem resetSequenceGivesResetValues : Obligations.ResetSequenceGivesResetValues := by
  unfold Obligations.ResetSequenceGivesResetValues
  intro s rest hv hr hs
  have hrelease := step_releaseReset hv hs
  rw [releaseReset_asserted (s := { s with script := .wait :: rest }) hr] at hrelease
  exact ⟨_, _, hrelease, rfl, rfl, rfl, step_wait_erasePending hv rfl rfl, rfl, read_finishReset _⟩

end Sys2Proof.Machine
end
